-- ==== Sys2Proof/Word.lean ====
section
/-! DEFINITION. The word types of FAWX: the byte, byte sequences, the 64-bit command word (00_scope section 6). -/

namespace Sys2Proof

/-- One byte, the smallest addressable unit everywhere (20_memory R40). -/
abbrev Byte := BitVec 8

/-- A finite byte sequence, indexed from 0 (00_scope section 6, "Bytes"). -/
abbrev Bytes := List Byte

/-- A command word or the value a register read returns (30_encoding R60, 10_state R31). -/
abbrev Word64 := BitVec 64

end Sys2Proof
end

