-- ==== Sys2Proof/Config.lean ====
section
/-! DEFINITION. The constants of R1 and the parameters of R2 and R3 (00_scope). The values of one build are the constant
`Config.build`, which has no body: nothing in Lean can evaluate it, so what is proved of the machine holds for every build
(log 5). The well-formedness of R4 is a predicate over a configuration (Machine/Parameters.lean), not built in (log 6). -/

namespace Sys2Proof

/-- `AAC_BLOCK_SAMPLES`: samples of duration of one ES frame and of one silence frame (00_scope R1). -/
def aacBlockSamples : Nat := 1024

/-- `DRIFT_TOL`: the half-frame tolerance of the drift rules (00_scope R1). -/
def driftTol : Nat := 512

/-- `START_LEN` (00_scope R1). -/
def startLen : Nat := 8

/-- `PROBE_LEN` (00_scope R1). -/
def probeLen : Nat := 16

/-- `END_LEN` (00_scope R1). -/
def endLen : Nat := 12

/-- `CK_LEN`: bytes of the trailing checksum field (00_scope R1). -/
def ckLen : Nat := 4

/-- `ADTS_LEN`: bytes of the ADTS header (00_scope R1). -/
def adtsLen : Nat := 7

/-- `SR_ENTRIES` (00_scope R1). -/
def srEntries : Nat := 13

/-- The parameters of a build of FAWX (00_scope R2, R3; 92_eei_decisions, "Open parameters in one list"). The marker
lengths are in the types, as R2 gives them. -/
structure Config where
  /-- `START_MARKER`. -/
  startMarker : Vector Byte startLen
  /-- `HALF_PROBE_MARKER`. -/
  halfProbeMarker : Vector Byte probeLen
  /-- `END_MARKER`. -/
  endMarker : Vector Byte endLen
  /-- `SIL_TEMPLATE[1]`. -/
  silTemplate1 : Bytes
  /-- `SIL_TEMPLATE[2]`. -/
  silTemplate2 : Bytes
  /-- `SIL_TEMPLATE[6]`. -/
  silTemplate6 : Bytes
  /-- `SR_TABLE[0..12]` (41_adts R94). -/
  srTable : Vector Nat srEntries
  /-- `HALF_FILL`, the untouched byte of a Half-mode sample. -/
  halfFill : Byte
  /-- `BUF_CAP`, the capacity in bytes of each window and queue; `none` is infinity. -/
  bufCap : Option Nat
  /-- `delay_frames` (45_wrapper R158). -/
  delayFrames : Nat → Nat
  /-- A free value: what a 64-bit register view reads when its mathematical value does not fit in 64 bits, which no rule
  states (log 7). -/
  wideView : Int → Word64
deriving Inhabited

/-- The configuration this machine was built with: every parameter is a free value (log 5). -/
opaque Config.build : Config

/-- `START_MARKER` as a byte sequence. -/
def Config.startBytes (cfg : Config) : Bytes := cfg.startMarker.toList

/-- `HALF_PROBE_MARKER` as a byte sequence. -/
def Config.probeBytes (cfg : Config) : Bytes := cfg.halfProbeMarker.toList

/-- `END_MARKER` as a byte sequence. -/
def Config.endBytes (cfg : Config) : Bytes := cfg.endMarker.toList

/-- The default of `SR_TABLE` (41_adts R94; from general knowledge, 93_implementation_defined G2). -/
def defaultSrTable : Vector Nat srEntries :=
  #v[96000, 88200, 64000, 48000, 44100, 32000, 24000, 22050, 16000, 12000, 11025, 8000, 7350]

/-- The default of `delay_frames` (45_wrapper R158). -/
def defaultDelayFrames (d : Nat) : Nat := d / 1024

end Sys2Proof
end

