-- ==== Sys2Proof/Machine/Adts.lean ====
section
/-! DEFINITION. The ADTS Header Reader, `PARSE` (41_adts). A header is the 56-bit string of its 7 bytes, byte 0 most
significant (10_state R20, 20_memory R44). -/

namespace Sys2Proof.Machine

/-- The fields `PARSE` gives (41_adts R90), with the looked-up sample rate. -/
structure Header where
  id : BitVec 1
  protectionAbsent : BitVec 1
  profile : BitVec 2
  sampleRateIndex : BitVec 4
  sampleRate : Nat
  privateBit : BitVec 1
  channelCount : BitVec 3
  original : BitVec 1
  home : BitVec 1
  copyrightBit : BitVec 1
  copyrightStart : BitVec 1
  frameLength : BitVec 13
  bufferFullness : BitVec 11
  rawDataBlocksMinus1 : BitVec 2
deriving DecidableEq, Repr

/-- The field of `width` bits whose most significant bit is stream bit `first`; stream bit `k` is register bit `55 - k`
(41_adts R91, 10_state R20). -/
def streamField (h : BitVec 56) (first width : Nat) : BitVec width := h.extractLsb' (56 - first - width) width

/-- `channel_count`, stream bits 23 to 25 (R91). -/
def channelCountOf (h : BitVec 56) : BitVec 3 := streamField h 23 3

/-- `frame_length`, stream bits 30 to 42, in bytes, header included (R91). -/
def frameLengthOf (h : BitVec 56) : BitVec 13 := streamField h 30 13

/-- The sample-rate lookup: `SR_TABLE[i]` for `i` up to 12 and 0 above (R93). -/
def sampleRateOf (cfg : Config) (i : BitVec 4) : Nat := cfg.srTable.toList.getD i.toNat 0

/-- `PARSE(h)` (R90, R91): total, pure, checks nothing (R95). -/
def parse (cfg : Config) (h : BitVec 56) : Header :=
  { id := streamField h 12 1
    protectionAbsent := streamField h 15 1
    profile := streamField h 16 2
    sampleRateIndex := streamField h 18 4
    sampleRate := sampleRateOf cfg (streamField h 18 4)
    privateBit := streamField h 22 1
    channelCount := channelCountOf h
    original := streamField h 26 1
    home := streamField h 27 1
    copyrightBit := streamField h 28 1
    copyrightStart := streamField h 29 1
    frameLength := frameLengthOf h
    bufferFullness := streamField h 43 11
    rawDataBlocksMinus1 := streamField h 54 2 }

/-- The 7 header bytes as one 56-bit value, byte 0 most significant (10_state R20). -/
def headerOfBytes (h : Bytes) : BitVec 56 := BitVec.ofNat 56 (h.foldl (fun a b => a * 256 + b.toNat) 0)

/-- The layout of R91 as byte arithmetic over the 7 bytes (41_adts R92). -/
def parseByteArithmetic (cfg : Config) (_h0 h1 h2 h3 h4 h5 h6 : Byte) : Header :=
  let n1 := h1.toNat; let n2 := h2.toNat; let n3 := h3.toNat; let n4 := h4.toNat; let n5 := h5.toNat
  let n6 := h6.toNat
  { id := BitVec.ofNat 1 ((n1 >>> 3) &&& 1)
    protectionAbsent := BitVec.ofNat 1 (n1 &&& 1)
    profile := BitVec.ofNat 2 (n2 >>> 6)
    sampleRateIndex := BitVec.ofNat 4 ((n2 >>> 2) &&& 0xF)
    sampleRate := sampleRateOf cfg (BitVec.ofNat 4 ((n2 >>> 2) &&& 0xF))
    privateBit := BitVec.ofNat 1 ((n2 >>> 1) &&& 1)
    channelCount := BitVec.ofNat 3 (((n2 &&& 1) <<< 2) ||| (n3 >>> 6))
    original := BitVec.ofNat 1 ((n3 >>> 5) &&& 1)
    home := BitVec.ofNat 1 ((n3 >>> 4) &&& 1)
    copyrightBit := BitVec.ofNat 1 ((n3 >>> 3) &&& 1)
    copyrightStart := BitVec.ofNat 1 ((n3 >>> 2) &&& 1)
    frameLength := BitVec.ofNat 13 (((n3 &&& 3) <<< 11) ||| (n4 <<< 3) ||| (n5 >>> 5))
    bufferFullness := BitVec.ofNat 11 (((n5 &&& 0x1F) <<< 6) ||| (n6 >>> 2))
    rawDataBlocksMinus1 := BitVec.ofNat 2 (n6 &&& 3) }

end Sys2Proof.Machine
end

