-- ==== Sys2Proof/Syntax.lean ====
section
/-! DEFINITION. The fourteen host commands of FAWX as one inductive, one constructor per row of spec/opcode_table.json
(30_encoding R64, 48_commands), and the (word, payload) pair that a command is sent as (30_encoding R60, R63). -/

namespace Sys2Proof

/-- An encoder index `u`, 0 or 1 (30_encoding R62). -/
inductive EncIndex where
  | e0
  | e1
deriving DecidableEq, Repr

/-- A mixer queue (30_encoding R62): `qa` is track A, `SEL = 0`; `qb` is track B, `SEL = 1`. -/
inductive QueueName where
  | qa
  | qb
deriving DecidableEq, Repr

/-- The refusal codes of 60_exceptions R211. -/
inductive ErrCode where
  | eOpcode
  | eRsvd
  | eSel
  | ePhase
  | eArg
deriving DecidableEq, Repr

/-- A host command with its operands (48_commands). A `PUSH` carries its payload, whose length is `ARG`. -/
inductive Instr where
  /-- `NOP` (R180). -/
  | nop
  /-- `RESET` (R183). -/
  | reset
  /-- `RDREG sel` (R182). -/
  | rdreg (sel : BitVec 8)
  /-- `WRREG sel, value` (R186). -/
  | wrreg (sel : BitVec 8) (value : BitVec 32)
  /-- `DEC_INIT` (R184). -/
  | decInit
  /-- `DEC_PUSH bytes` (R185). -/
  | decPush (payload : Bytes)
  /-- `DEC_FINISH` (R187). -/
  | decFinish
  /-- `ENC_INIT u` (R188). -/
  | encInit (u : EncIndex)
  /-- `ENC_PUSH u, bytes` (R189). -/
  | encPush (u : EncIndex) (payload : Bytes)
  /-- `ENC_FINISH u` (R190). -/
  | encFinish (u : EncIndex)
  /-- `MIX_INIT` (R191). -/
  | mixInit
  /-- `MIX_PUSH q, bytes` (R192). -/
  | mixPush (q : QueueName) (payload : Bytes)
  /-- `MIX_STEP` (R193). -/
  | mixStep
  /-- `MIX_FINISH` (R194). -/
  | mixFinish
deriving DecidableEq, Repr

/-- What the host sends for one command: the 64-bit word and the payload bytes after it (30_encoding R60, R63). -/
structure Command where
  word : Word64
  payload : Bytes
deriving DecidableEq, Repr

end Sys2Proof
end

