-- ==== Sys2Proof/WellFormed.lean ====
section
/-! DEFINITION. Which instructions a command word can carry: a `PUSH` payload's length fits the 32 bits of `ARG`
(30_encoding R63: "an unsigned byte count 0 to 2^32 - 1"). Every other operand is bounded by its type. -/

namespace Sys2Proof

/-- A payload whose length fits `ARG` (30_encoding R63). -/
def payloadFits (p : Bytes) : Bool := decide (p.length < 2 ^ 32)

/-- The instruction has an encoding: the one check is the payload length of the three `PUSH` commands. -/
def Instr.wellFormed : Instr → Bool
  | .nop => true
  | .reset => true
  | .rdreg _ => true
  | .wrreg _ _ => true
  | .decInit => true
  | .decPush p => payloadFits p
  | .decFinish => true
  | .encInit _ => true
  | .encPush _ p => payloadFits p
  | .encFinish _ => true
  | .mixInit => true
  | .mixPush _ p => payloadFits p
  | .mixStep => true
  | .mixFinish => true

end Sys2Proof
end

