-- ==== Sys2Proof/Decode.lean ====
section
/-! DEFINITION. The decoder and the encoder of the command word (30_encoding R60 to R66). The decoder is total on every
(word, payload) pair: it answers an instruction, one refusal code, or that the pair is not a command because its payload has
another length than the word asks for (R63). After it the encoder, the opcode table of R64 as data, the pseudo-commands
of R68 and the assembler form of R67. -/

namespace Sys2Proof

/-! ## Fields of the command word (R61) -/

/-- `OP`, bits 63 to 56. -/
def opField (w : Word64) : BitVec 8 := w.extractLsb' 56 8

/-- `SEL`, bits 55 to 48. -/
def selField (w : Word64) : BitVec 8 := w.extractLsb' 48 8

/-- `RSVD`, bits 47 to 32. -/
def rsvdField (w : Word64) : BitVec 16 := w.extractLsb' 32 16

/-- `ARG`, bits 31 to 0. -/
def argField (w : Word64) : BitVec 32 := w.extractLsb' 0 32

/-- The word with these four fields. -/
def packWord (op sel : BitVec 8) (arg : BitVec 32) : Word64 := op ++ sel ++ (0 : BitVec 16) ++ arg

/-! ## Opcodes (R64) -/

/-- The fourteen opcodes, by mnemonic. -/
inductive Opcode where
  | nop | reset | rdreg | wrreg
  | decInit | decPush | decFinish
  | encInit | encPush | encFinish
  | mixInit | mixPush | mixStep | mixFinish
deriving DecidableEq, Repr

/-- The value of `OP` of each command (R64). -/
def opCode : Opcode → BitVec 8
  | .nop => 0x00#8
  | .reset => 0x01#8
  | .rdreg => 0x02#8
  | .wrreg => 0x03#8
  | .decInit => 0x10#8
  | .decPush => 0x11#8
  | .decFinish => 0x12#8
  | .encInit => 0x20#8
  | .encPush => 0x21#8
  | .encFinish => 0x22#8
  | .mixInit => 0x30#8
  | .mixPush => 0x31#8
  | .mixStep => 0x32#8
  | .mixFinish => 0x33#8

/-- The fourteen opcodes in the table's order. -/
def allOpcodes : List Opcode :=
  [.nop, .reset, .rdreg, .wrreg, .decInit, .decPush, .decFinish, .encInit, .encPush, .encFinish, .mixInit, .mixPush,
    .mixStep, .mixFinish]

/-- The command an `OP` value names; `none` for the reserved values (R66). -/
def opcodeOf (op : BitVec 8) : Option Opcode := allOpcodes.find? (fun o => opCode o == op)

/-- Whether a payload follows the word: the three `PUSH` commands only (R60, R66). -/
def hasPayload : Opcode → Bool
  | .decPush => true
  | .encPush => true
  | .mixPush => true
  | _ => false

/-- How many payload bytes belong to a command word, learned from `OP` and `ARG` alone (R66): so a refused `PUSH` takes
its payload with it. -/
def payloadLength (w : Word64) : Nat :=
  match opcodeOf (opField w) with
  | some o => if hasPayload o then (argField w).toNat else 0
  | none => 0

/-! ## Selectors (R62) -/

/-- The encoder a `SEL` names; `none` above 1. -/
def encIndexOf (sel : BitVec 8) : Option EncIndex :=
  if sel = 0#8 then some .e0 else if sel = 1#8 then some .e1 else none

/-- The `SEL` of an encoder. -/
def encIndexCode : EncIndex → BitVec 8
  | .e0 => 0#8
  | .e1 => 1#8

/-- The queue a `SEL` names; `none` above 1. -/
def queueOf (sel : BitVec 8) : Option QueueName :=
  if sel = 0#8 then some .qa else if sel = 1#8 then some .qb else none

/-- The `SEL` of a queue. -/
def queueCode : QueueName → BitVec 8
  | .qa => 0#8
  | .qb => 1#8

/-! ## The decoder (R65) -/

/-- What the decoder reads from a (word, payload) pair. -/
inductive Decoded where
  /-- A well-formed command. -/
  | instr (i : Instr)
  /-- A command that is refused with this code before it runs (60_exceptions R211). -/
  | refused (e : ErrCode)
  /-- The payload has another length than the word asks for: not a command (R63). -/
  | notACommand
deriving DecidableEq, Repr

/-- Format `N`: `SEL` and `ARG` must be 0. -/
def decodeN (w : Word64) (i : Instr) : Decoded :=
  if rsvdField w = 0 ∧ selField w = 0 ∧ argField w = 0 then .instr i else .refused .eRsvd

/-- Format `U`: `SEL` an encoder index, `ARG` must be 0. -/
def decodeU (w : Word64) (f : EncIndex → Instr) : Decoded :=
  if rsvdField w = 0 ∧ argField w = 0 then
    match encIndexOf (selField w) with
    | some u => .instr (f u)
    | none => .refused .eSel
  else .refused .eRsvd

/-- Format `P`: `SEL` must be 0, `ARG` is the payload length. -/
def decodeP (w : Word64) (i : Instr) : Decoded :=
  if rsvdField w = 0 ∧ selField w = 0 then .instr i else .refused .eRsvd

/-- Format `UP` of `ENC_PUSH`: `SEL` an encoder index, `ARG` the payload length. -/
def decodeUPEnc (w : Word64) (f : EncIndex → Instr) : Decoded :=
  if rsvdField w = 0 then
    match encIndexOf (selField w) with
    | some u => .instr (f u)
    | none => .refused .eSel
  else .refused .eRsvd

/-- Format `UP` of `MIX_PUSH`: `SEL` a queue, `ARG` the payload length. -/
def decodeUPMix (w : Word64) (f : QueueName → Instr) : Decoded :=
  if rsvdField w = 0 then
    match queueOf (selField w) with
    | some q => .instr (f q)
    | none => .refused .eSel
  else .refused .eRsvd

/-- Format `R`: `SEL` a register number, `ARG` must be 0. The register number is checked when the command runs (R64). -/
def decodeR (w : Word64) : Decoded :=
  if rsvdField w = 0 ∧ argField w = 0 then .instr (.rdreg (selField w)) else .refused .eRsvd

/-- Format `W`: `SEL` a register number, `ARG` the value. -/
def decodeW (w : Word64) : Decoded :=
  if rsvdField w = 0 then .instr (.wrreg (selField w) (argField w)) else .refused .eRsvd

/-- The checks of one opcode's format, in R65's order after `OP`. -/
def decodeAs (w : Word64) (p : Bytes) : Opcode → Decoded
  | .nop => decodeN w .nop
  | .reset => decodeN w .reset
  | .rdreg => decodeR w
  | .wrreg => decodeW w
  | .decInit => decodeN w .decInit
  | .decPush => decodeP w (.decPush p)
  | .decFinish => decodeN w .decFinish
  | .encInit => decodeU w .encInit
  | .encPush => decodeUPEnc w (fun u => .encPush u p)
  | .encFinish => decodeU w .encFinish
  | .mixInit => decodeN w .mixInit
  | .mixPush => decodeUPMix w (fun q => .mixPush q p)
  | .mixStep => decodeN w .mixStep
  | .mixFinish => decodeN w .mixFinish

/-- The decoder, total on every pair (R65): `OP` first, then `RSVD` and the fields that must be 0, then `SEL`. -/
def decode (c : Command) : Decoded :=
  if c.payload.length = payloadLength c.word then
    match opcodeOf (opField c.word) with
    | some o => decodeAs c.word c.payload o
    | none => .refused .eOpcode
  else .notACommand

/-! ## The encoder -/

/-- The opcode of an instruction. -/
def Instr.opcode : Instr → Opcode
  | .nop => .nop
  | .reset => .reset
  | .rdreg _ => .rdreg
  | .wrreg _ _ => .wrreg
  | .decInit => .decInit
  | .decPush _ => .decPush
  | .decFinish => .decFinish
  | .encInit _ => .encInit
  | .encPush _ _ => .encPush
  | .encFinish _ => .encFinish
  | .mixInit => .mixInit
  | .mixPush _ _ => .mixPush
  | .mixStep => .mixStep
  | .mixFinish => .mixFinish

/-- `ARG` of a `PUSH`: the payload's length (R62). -/
def lengthArg (p : Bytes) : BitVec 32 := BitVec.ofNat 32 p.length

/-- The word and payload of an instruction (R61, R62, R64). -/
def encode : Instr → Command
  | .nop => ⟨packWord (opCode .nop) 0 0, []⟩
  | .reset => ⟨packWord (opCode .reset) 0 0, []⟩
  | .rdreg sel => ⟨packWord (opCode .rdreg) sel 0, []⟩
  | .wrreg sel v => ⟨packWord (opCode .wrreg) sel v, []⟩
  | .decInit => ⟨packWord (opCode .decInit) 0 0, []⟩
  | .decPush p => ⟨packWord (opCode .decPush) 0 (lengthArg p), p⟩
  | .decFinish => ⟨packWord (opCode .decFinish) 0 0, []⟩
  | .encInit u => ⟨packWord (opCode .encInit) (encIndexCode u) 0, []⟩
  | .encPush u p => ⟨packWord (opCode .encPush) (encIndexCode u) (lengthArg p), p⟩
  | .encFinish u => ⟨packWord (opCode .encFinish) (encIndexCode u) 0, []⟩
  | .mixInit => ⟨packWord (opCode .mixInit) 0 0, []⟩
  | .mixPush q p => ⟨packWord (opCode .mixPush) (queueCode q) (lengthArg p), p⟩
  | .mixStep => ⟨packWord (opCode .mixStep) 0 0, []⟩
  | .mixFinish => ⟨packWord (opCode .mixFinish) 0 0, []⟩

/-! ## The opcode table of R64 as data -/

/-- A row of the table: a word `w` is the command when `w & mask = pattern` (the table's "match"). -/
structure OpcodeRow where
  op : Opcode
  mask : Word64
  pattern : Word64
deriving DecidableEq, Repr

/-- The fourteen rows of R64. -/
def opcodeTable : List OpcodeRow :=
  [⟨.nop, 0xFFFFFFFFFFFFFFFF#64, 0x0000000000000000#64⟩,
   ⟨.reset, 0xFFFFFFFFFFFFFFFF#64, 0x0100000000000000#64⟩,
   ⟨.rdreg, 0xFF00FFFFFFFFFFFF#64, 0x0200000000000000#64⟩,
   ⟨.wrreg, 0xFF00FFFF00000000#64, 0x0300000000000000#64⟩,
   ⟨.decInit, 0xFFFFFFFFFFFFFFFF#64, 0x1000000000000000#64⟩,
   ⟨.decPush, 0xFFFFFFFF00000000#64, 0x1100000000000000#64⟩,
   ⟨.decFinish, 0xFFFFFFFFFFFFFFFF#64, 0x1200000000000000#64⟩,
   ⟨.encInit, 0xFFFEFFFFFFFFFFFF#64, 0x2000000000000000#64⟩,
   ⟨.encPush, 0xFFFEFFFF00000000#64, 0x2100000000000000#64⟩,
   ⟨.encFinish, 0xFFFEFFFFFFFFFFFF#64, 0x2200000000000000#64⟩,
   ⟨.mixInit, 0xFFFFFFFFFFFFFFFF#64, 0x3000000000000000#64⟩,
   ⟨.mixPush, 0xFFFEFFFF00000000#64, 0x3100000000000000#64⟩,
   ⟨.mixStep, 0xFFFFFFFFFFFFFFFF#64, 0x3200000000000000#64⟩,
   ⟨.mixFinish, 0xFFFFFFFFFFFFFFFF#64, 0x3300000000000000#64⟩]

/-- The row a word matches. -/
def rowMatches (w : Word64) (r : OpcodeRow) : Bool := w &&& r.mask == r.pattern

/-! ## A word as the host's opcode table numbers its bits -/

/-- Payload byte `k` of an instruction written as one number: bits 64 + 8k and up (log 1). -/
def tablePayload (v : Nat) : Nat → Bytes
  | 0 => []
  | n + 1 => BitVec.ofNat 8 v :: tablePayload (v / 256) n

/-- The (word, payload) pair of an instruction whose bits are the low `nbits` bits of `w`: the first 64 bits are the
command word, the bits above are the payload bytes in order. -/
def commandOfBits (nbits w : Nat) : Command :=
  let v := w % 2 ^ nbits
  let word := BitVec.ofNat 64 v
  ⟨word, tablePayload (v / 2 ^ 64) (payloadLength word)⟩

/-- The instruction the decoder reads from the low `nbits` bits of `w`; `none` where it refuses. -/
def decodeTableWord (nbits w : Nat) : Option Instr :=
  match decode (commandOfBits nbits w) with
  | .instr i => some i
  | .refused _ => none
  | .notACommand => none

/-! ## Pseudo-commands (R68) -/

/-- `DEC_OPEN nch`. -/
def decOpen (nch : BitVec 32) : List Instr := [.wrreg 0x12#8 nch, .decInit]

/-- The register number of an encoder's register with offset `k` in its bank (10_state R31). -/
def encBank (u : EncIndex) (k : BitVec 8) : BitVec 8 :=
  match u with
  | .e0 => 0x40#8 + k
  | .e1 => 0x60#8 + k

/-- `ENC_OPEN u, mode, nch, rate, delay_ms`. -/
def encOpen (u : EncIndex) (mode nch rate delayMs : BitVec 32) : List Instr :=
  [.wrreg (encBank u 1) mode, .wrreg (encBank u 2) nch, .wrreg (encBank u 3) rate, .wrreg (encBank u 4) delayMs,
    .encInit u]

/-- `CLRERR`. -/
def clrErr : List Instr := [.wrreg 0x01#8 0]

/-- `MIX_RUN`. -/
def mixRunCommand : List Instr := [.mixStep]

/-! ## Assembler form (R67) -/

/-- One hexadecimal digit. -/
def hexDigit (n : Nat) : String := String.ofList ["0123456789ABCDEF".toList.getD (n % 16) '0']

/-- A byte in hexadecimal, two digits. -/
def hexByte (b : Byte) : String := hexDigit (b.toNat / 16) ++ hexDigit b.toNat

/-- A byte sequence in hexadecimal, bytes separated by a space. -/
def hexBytes : Bytes → String
  | [] => ""
  | [b] => hexByte b
  | b :: bs => hexByte b ++ " " ++ hexBytes bs

/-- The mnemonic of a command (R64). -/
def mnemonic : Opcode → String
  | .nop => "NOP"
  | .reset => "RESET"
  | .rdreg => "RDREG"
  | .wrreg => "WRREG"
  | .decInit => "DEC_INIT"
  | .decPush => "DEC_PUSH"
  | .decFinish => "DEC_FINISH"
  | .encInit => "ENC_INIT"
  | .encPush => "ENC_PUSH"
  | .encFinish => "ENC_FINISH"
  | .mixInit => "MIX_INIT"
  | .mixPush => "MIX_PUSH"
  | .mixStep => "MIX_STEP"
  | .mixFinish => "MIX_FINISH"

/-- An encoder index in decimal. -/
def encIndexText : EncIndex → String
  | .e0 => "0"
  | .e1 => "1"

/-- A queue's letter. -/
def queueText : QueueName → String
  | .qa => "A"
  | .qb => "B"

/-- The operands of a command, separated by commas (R67). Register numbers are written in hexadecimal. -/
def operandText : Instr → List String
  | .nop => []
  | .reset => []
  | .rdreg sel => ["0x" ++ hexByte sel]
  | .wrreg sel v => ["0x" ++ hexByte sel, toString v.toNat]
  | .decInit => []
  | .decPush p => [hexBytes p]
  | .decFinish => []
  | .encInit u => [encIndexText u]
  | .encPush u p => [encIndexText u, hexBytes p]
  | .encFinish u => [encIndexText u]
  | .mixInit => []
  | .mixPush q p => [queueText q, hexBytes p]
  | .mixStep => []
  | .mixFinish => []

/-- A command as a line of the assembler (R67). -/
def asmLine (i : Instr) : String :=
  match operandText i with
  | [] => mnemonic i.opcode
  | ops => mnemonic i.opcode ++ " " ++ ", ".intercalate ops

end Sys2Proof
end

