-- ==== Sys2Proof/Machine/State.lean ====
section
/-! DEFINITION. The state of FAWX as plain data (10_state), the reasons a step can stop, and the state after reset (R33).
The last three fields of `State` are the model's own: what the host has sent and not yet had executed, and what FAWX has
handed back to it (logs 1 and 4). -/

namespace Sys2Proof.Machine

/-- `PHASE`, the sequencing state of a unit, 2 bits (10_state R13). -/
inductive Phase where
  | idle
  | active
  | finished
  | halted
deriving DecidableEq, Repr

/-- `DEC.MODE`, the Stream Mode, 2 bits (10_state R14). -/
inductive Mode where
  | unknown
  | full
  | half
  | mix
deriving DecidableEq, Repr

/-- The four units (10_state R10). -/
inductive UnitName where
  | dec
  | enc (u : EncIndex)
  | mix
deriving DecidableEq, Repr

/-- The unit faults of 60_exceptions R213. -/
inductive UnitFault where
  | noFormat
  | bufOvf
  | cntOvf
  | esMalformed
deriving DecidableEq, Repr

/-- A Bitstream Buffer (10_state section 5). -/
structure Buffer where
  /-- `W`, the live window, oldest byte first (R16). -/
  window : Bytes
  /-- `BPS`, bytes per whole sample (R17). -/
  bps : BitVec 16
  /-- `IN_SAMPLES`, samples ever appended (R18). -/
  inSamples : BitVec 64
  /-- `OUT_SAMPLES`, samples ever emitted (R19). -/
  outSamples : BitVec 64
  /-- `HDR`, the header most recently recorded, byte 0 most significant (R20). -/
  hdr : BitVec 56
deriving DecidableEq, Repr

/-- Unit `DEC` (10_state section 4). -/
structure Dec where
  phase : Phase
  mode : Mode
  /-- `DEC.NCH`, the container's channel count (R15). -/
  nch : BitVec 8
  /-- `DEC.ERR`, the unit fault code (R15). -/
  err : BitVec 8
  /-- `DEC.RAW` (R23). -/
  raw : Buffer
  /-- `DEC.LO`, the low-lane sub-track (R23). -/
  lo : Buffer
  /-- `DEC.HI`, the high-lane sub-track (R23). -/
  hi : Buffer
deriving DecidableEq, Repr

/-- Unit `ENC[u]` (10_state section 6). -/
structure Enc where
  phase : Phase
  /-- `CFG_MODE`: 0 none, 1 Full, 2 Half, 3 Mix (R24). -/
  cfgMode : BitVec 2
  /-- `CFG_NCH` (R24). -/
  cfgNch : BitVec 8
  /-- `CFG_RATE`, container sample rate in Hz (R24). -/
  cfgRate : BitVec 32
  /-- `CFG_DELAY_MS` (R24). -/
  cfgDelayMs : BitVec 32
  /-- `ENC[u].ERR` (R25). -/
  err : BitVec 8
  /-- `ACC`, the accumulator (R25). -/
  acc : Buffer
  /-- `DELAY_DONE`, 1 bit (R25). -/
  delayDone : Bool
deriving DecidableEq, Repr

/-- Unit `MIX` (10_state section 7). -/
structure Mix where
  phase : Phase
  /-- `MIX.ERR` (R27). -/
  err : BitVec 8
  /-- `QA`, track A, oldest byte first (R27). -/
  qa : Bytes
  /-- `QB`, track B, oldest byte first (R27). -/
  qb : Bytes
  /-- `MIX.TOTAL`, bytes emitted since `MIX_INIT` (R30). -/
  total : BitVec 64
deriving DecidableEq, Repr

/-- The five output ports (20_memory R42): for each the bytes emitted so far, in order (log 4). -/
structure Ports where
  doutA : Bytes
  doutB : Bytes
  eout0 : Bytes
  eout1 : Bytes
  mout : Bytes
deriving DecidableEq, Repr

/-- What the host can do to FAWX between commands (00_scope R6, 70_reset R230). -/
inductive HostInput where
  /-- Issue a command word with its payload. -/
  | command (c : Command)
  /-- Pulse the hardware reset input. -/
  | hardReset
deriving DecidableEq, Repr

/-- The whole machine: the global register `CMDERR` and the four units (10_state R10, R11), and the model's own fields. -/
structure State where
  /-- `CMDERR`, the code of the most recent refusal (R11). -/
  cmdErr : BitVec 8
  dec : Dec
  enc0 : Enc
  enc1 : Enc
  mix : Mix
  /-- The model's own: the bytes that have left on each port (log 4). -/
  ports : Ports
  /-- The model's own: the values `RDREG` has returned, oldest first (log 4). -/
  reads : List Word64
  /-- The model's own: what the host has issued and FAWX has not yet taken, next first (log 1). -/
  input : List HostInput
deriving DecidableEq, Repr

/-- The reasons a step stops. FAWX itself never stops (70_reset R246): refusals and unit faults of the spec are next
states. -/
inductive Fault where
  /-- Raised by `step` alone, when the host's next entry is a word with a payload of another length than the word asks
  for: "not a command" (30_encoding R63), so outside the input alphabet. Safe: nothing is claimed of such input. -/
  | notACommand
deriving DecidableEq, Repr

/-- The reasons the model has no meaning for an instruction. -/
inductive Refusal where
  /-- Raised by an arm of `exec` for an instruction that has no meaning yet; no arm raises it now. Safe. -/
  | notModelled (mnemonic : String)
deriving DecidableEq, Repr

/-- A buffer after reset: empty, `BPS = 1`, counters and header 0 (R33). -/
def Buffer.reset : Buffer := ⟨[], 1#16, 0#64, 0#64, 0#56⟩

/-- `DEC` after reset (R33). -/
def Dec.reset : Dec := ⟨.idle, .unknown, 0#8, 0#8, Buffer.reset, Buffer.reset, Buffer.reset⟩

/-- `ENC[u]` after reset (R33). -/
def Enc.reset : Enc := ⟨.idle, 0#2, 0#8, 0#32, 0#32, 0#8, Buffer.reset, false⟩

/-- `MIX` after reset (R33). -/
def Mix.reset : Mix := ⟨.idle, 0#8, [], [], 0#64⟩

/-- The machine right after reset (10_state R33, 70_reset R231), with nothing sent yet and nothing emitted yet. -/
def State.reset : State :=
  { cmdErr := 0#8, dec := Dec.reset, enc0 := Enc.reset, enc1 := Enc.reset, mix := Mix.reset,
    ports := ⟨[], [], [], [], []⟩, reads := [], input := [] }

end Sys2Proof.Machine
end

