-- ==== Sys2Proof/Machine/Flags.lean ====
section
/-! DEFINITION. FAWX has no condition codes (10_state R34): its status is made of the numeric codes of the phases, the
mode, the refusals and the unit faults, and of three views computed from them (`PHASES`, `TOTAL_SAT32`, the counter
arithmetic that raises `F_CNT_OVF`). All of them are here. -/

namespace Sys2Proof.Machine

/-- The 2-bit code of a phase (10_state R13). -/
def phaseCode : Phase → BitVec 2
  | .idle => 0#2
  | .active => 1#2
  | .finished => 2#2
  | .halted => 3#2

/-- The 2-bit code of the Stream Mode (10_state R14). -/
def modeCode : Mode → BitVec 2
  | .unknown => 0#2
  | .full => 1#2
  | .half => 2#2
  | .mix => 3#2

/-- The refusal code `CMDERR` takes (60_exceptions R211). -/
def errCode : ErrCode → BitVec 8
  | .eOpcode => 1#8
  | .eRsvd => 2#8
  | .eSel => 3#8
  | .ePhase => 4#8
  | .eArg => 5#8

/-- The unit fault code `ERR` takes (60_exceptions R213). -/
def faultCode : UnitFault → BitVec 8
  | .noFormat => 0x10#8
  | .bufOvf => 0x11#8
  | .cntOvf => 0x12#8
  | .esMalformed => 0x13#8

/-- The view `PHASES`: `DEC` in bits 1 and 0, `ENC[0]` in 3 and 2, `ENC[1]` in 5 and 4, `MIX` in 7 and 6 (10_state
R11). -/
def phasesView (s : State) : BitVec 8 :=
  phaseCode s.mix.phase ++ phaseCode s.enc1.phase ++ phaseCode s.enc0.phase ++ phaseCode s.dec.phase

/-- The view `MIX.TOTAL_SAT32 = min(MIX.TOTAL, 2^32 - 1)` (10_state R30). -/
def totalSat32 (total : BitVec 64) : BitVec 32 := BitVec.ofNat 32 (min total.toNat (2 ^ 32 - 1))

/-- A 64-bit counter advanced by `n`; `none` where it would pass `2^64 - 1`, which raises `F_CNT_OVF` (42_buffer R110). -/
def addCounter (c : BitVec 64) (n : Nat) : Option (BitVec 64) :=
  if c.toNat + n < 2 ^ 64 then some (BitVec.ofNat 64 (c.toNat + n)) else none

/-- A 64-bit register view of a natural number (`LENGTH`, `QA_LEN`, `QB_LEN`; 10_state R21, R31): the number, or a free
value where it does not fit (log 7). -/
def natView (cfg : Config) (n : Nat) : Word64 := if n < 2 ^ 64 then BitVec.ofNat 64 n else cfg.wideView n

/-- A 64-bit two's-complement register view of an integer (`IN_START`; 10_state R21): the integer, or a free value where
it does not fit (log 7). -/
def intView (cfg : Config) (v : Int) : Word64 :=
  if -(2 ^ 63) ≤ v ∧ v < 2 ^ 63 then BitVec.ofInt 64 v else cfg.wideView v

end Sys2Proof.Machine
end

