-- ==== Sys2Proof/Machine/Ops.lean ====
section
/-! DEFINITION. The shared operations: byte sequences and the search primitive (00_scope section 6, 42_buffer R108), the
Bitstream Buffer operations (42_buffer), the outcome of a unit operation that may raise a unit fault, taking an exception
(refusal R211, unit fault entry R212) and the return from one (R217), reset (70_reset R230). -/

namespace Sys2Proof.Machine

/-! ## Byte sequences -/

/-- `s[a..b)` (00_scope section 6). -/
def slice (s : Bytes) (a b : Nat) : Bytes := (s.drop a).take (b - a)

/-- `zeros(n)`. -/
def zeros (n : Nat) : Bytes := List.replicate n 0#8

/-- `le16(v)`: low byte first (20_memory R43). -/
def le16 (v : BitVec 16) : Bytes := [v.extractLsb' 0 8, v.extractLsb' 8 8]

/-- `le32(v)`: low byte first (20_memory R43 (e)). -/
def le32 (v : BitVec 32) : Bytes :=
  [v.extractLsb' 0 8, v.extractLsb' 8 8, v.extractLsb' 16 8, v.extractLsb' 24 8]

/-- The little-endian value of a byte sequence (00_scope section 6, `LE16`, `LE32`). -/
def leNat : Bytes → Nat
  | [] => 0
  | b :: bs => b.toNat + 256 * leNat bs

/-- The least index from `i` on at which `p` occurs in `h`, `h` being the haystack from index `i`. -/
def scanFrom (p : Bytes) : Bytes → Nat → Option Nat
  | [], _ => none
  | x :: xs, i => if p.isPrefixOf (x :: xs) then some i else scanFrom p xs (i + 1)

/-- `find(h, p, from)`, `p` not empty (42_buffer R108). -/
def find (h p : Bytes) (start : Nat) : Option Nat := scanFrom p (h.drop start) start

/-! ## Operations that may raise a unit fault -/

/-- The outcome of a unit operation: it goes on, or it has raised a unit fault and `s` is all it did before the `raise`
(48_commands R196). -/
inductive Flow (σ : Type) where
  | go (s : σ)
  | raised (f : UnitFault) (s : σ)
deriving DecidableEq, Repr

/-- The next operation runs only if none before it has raised. -/
def Flow.andThen {σ : Type} (r : Flow σ) (k : σ → Flow σ) : Flow σ :=
  match r with
  | .go s => k s
  | .raised f s => .raised f s

/-- An operation on a part, seen as an operation on the whole. -/
def Flow.map {σ τ : Type} (g : σ → τ) (r : Flow σ) : Flow τ :=
  match r with
  | .go s => .go (g s)
  | .raised f s => .raised f (g s)

/-! ## The Bitstream Buffer (42_buffer) -/

/-- A length above `BUF_CAP` (R101). -/
def overCap (cfg : Config) (n : Nat) : Bool :=
  match cfg.bufCap with
  | none => false
  | some c => decide (c < n)

/-- `APPEND(B, s)` (R100): the capacity test, the window, then the counter. -/
def Buffer.append (cfg : Config) (b : Buffer) (s : Bytes) : Flow Buffer :=
  if overCap cfg (b.window.length + s.length) then .raised .bufOvf b
  else
    match addCounter b.inSamples (s.length / b.bps.toNat) with
    | some n => .go { b with window := b.window ++ s, inSamples := n }
    | none => .raised .cntOvf { b with window := b.window ++ s }

/-- A lane of the 16-bit container samples (R102). -/
inductive Lane where
  | low
  | high
deriving DecidableEq, Repr

/-- `(x - 128) mod 256` (R102, 47_mixer R171), and equally `(x + 128) mod 256` (45_wrapper R156). -/
def remap (x : Byte) : Byte := x - 128#8

/-- The lane's byte of each whole sample, remapped; the last byte of an odd-length sequence is dropped (R102, R103). -/
def laneBytes (lane : Lane) : Bytes → Bytes
  | lo :: hi :: rest =>
    remap (match lane with
      | .low => lo
      | .high => hi) :: laneBytes lane rest
  | [_] => []
  | [] => []

/-- `APPEND_PACKED(B, lane, s)` (R102). -/
def Buffer.appendPacked (cfg : Config) (lane : Lane) (b : Buffer) (s : Bytes) : Flow Buffer :=
  b.append cfg (laneBytes lane s)

/-- `CONSUME(B, n)`, asked for only with `n` at most the window's length (R104, R105). -/
def Buffer.consume (b : Buffer) (n : Nat) : Buffer := { b with window := b.window.drop n }

/-- `RECORD_HEADER(B, h)` (R106). -/
def Buffer.recordHeader (b : Buffer) (h : Bytes) : Buffer := { b with hdr := headerOfBytes h }

/-- `CLEAR(B)` (R109). -/
def Buffer.clear (b : Buffer) : Buffer := { b with window := [], inSamples := 0#64, outSamples := 0#64, hdr := 0#56 }

/-- `IN_START(B)`, a mathematical integer (10_state R21). -/
def Buffer.inStart (b : Buffer) : Int := (b.inSamples.toNat : Int) - (b.window.length / b.bps.toNat : Nat)

/-- `OUT_SAMPLES <- OUT_SAMPLES + 1024`, raising `F_CNT_OVF` where it would not fit (10_state R19, 42_buffer R110). -/
def Buffer.advance (b : Buffer) : Flow Buffer :=
  match addCounter b.outSamples aacBlockSamples with
  | some n => .go { b with outSamples := n }
  | none => .raised .cntOvf b

/-! ## Parts of the state -/

/-- `ENC[u]`. -/
def State.enc (s : State) (u : EncIndex) : Enc :=
  match u with
  | .e0 => s.enc0
  | .e1 => s.enc1

/-- `ENC[u]` replaced. -/
def State.setEnc (s : State) (u : EncIndex) (e : Enc) : State :=
  match u with
  | .e0 => { s with enc0 := e }
  | .e1 => { s with enc1 := e }

/-- The bytes that have left on `EOUT[u]`. -/
def Ports.eout (p : Ports) (u : EncIndex) : Bytes :=
  match u with
  | .e0 => p.eout0
  | .e1 => p.eout1

/-- `EOUT[u]` replaced. -/
def Ports.setEout (p : Ports) (u : EncIndex) (b : Bytes) : Ports :=
  match u with
  | .e0 => { p with eout0 := b }
  | .e1 => { p with eout1 := b }

/-- `PHASE` of a unit. -/
def State.phase (s : State) : UnitName → Phase
  | .dec => s.dec.phase
  | .enc u => (s.enc u).phase
  | .mix => s.mix.phase

/-- `ERR` of a unit. -/
def State.unitErr (s : State) : UnitName → BitVec 8
  | .dec => s.dec.err
  | .enc u => (s.enc u).err
  | .mix => s.mix.err

/-- `PHASE` and `ERR` of a unit replaced. -/
def State.setPhaseErr (s : State) (u : UnitName) (p : Phase) (e : BitVec 8) : State :=
  match u with
  | .dec => { s with dec := { s.dec with phase := p, err := e } }
  | .enc v => s.setEnc v { s.enc v with phase := p, err := e }
  | .mix => { s with mix := { s.mix with phase := p, err := e } }

/-! ## Taking an exception, and the return from one -/

/-- A refusal: nothing but `CMDERR` changes (60_exceptions R211). -/
def State.refuse (e : ErrCode) (s : State) : State := { s with cmdErr := errCode e }

/-- A value handed to the host as the result of an `RDREG` (48_commands R195). -/
def State.returnRead (v : Word64) (s : State) : State := { s with reads := s.reads ++ [v] }

/-- A refused `RDREG`: the read value is 0 (60_exceptions R211). -/
def State.refuseRead (e : ErrCode) (s : State) : State := (s.refuse e).returnRead 0#64

/-- The refusal of a command word the decoder rejects: as any refusal, and with the read value 0 where `OP` is
`RDREG`'s (60_exceptions R211). -/
def State.refuseWord (w : Word64) (e : ErrCode) (s : State) : State :=
  if opcodeOf (opField w) = some .rdreg then s.refuseRead e else s.refuse e

/-- Fault entry `raise F(U)`: `ERR` takes the code and `PHASE` becomes `Halted`; nothing else is saved (60_exceptions
R212). -/
def State.raise (u : UnitName) (f : UnitFault) (s : State) : State := s.setPhaseErr u .halted (faultCode f)

/-- The return from a unit fault, done by the unit's `INIT` alone: `ERR <- 0`, `PHASE <- Active` (60_exceptions R217,
48_commands R184, R188, R191). -/
def State.openUnit (u : UnitName) (s : State) : State := s.setPhaseErr u .active 0#8

/-- The unit's `FINISH` has run: `PHASE <- Finished` (10_state R13). -/
def State.closeUnit (u : UnitName) (s : State) : State := s.setPhaseErr u .finished (s.unitErr u)

/-- The end of a command of unit `u`: a raised fault is taken on top of what the command did before it (48_commands
R196). -/
def State.settle (u : UnitName) (r : Flow State) : State :=
  match r with
  | .go s => s
  | .raised f s => s.raise u f

/-- A command of unit `u` that is legal only while the unit is `Active` (48_commands R181): refused with `E_PHASE`
otherwise. -/
def State.whenActive (u : UnitName) (s : State) (body : State → Flow State) : State :=
  if s.phase u = .active then State.settle u (body s) else s.refuse .ePhase

/-! ## Reset -/

/-- Reset, by the hardware input or by `RESET`: every piece of FAWX's state takes its reset value; what has left on the
ports and what the host still has to send belong to the host and are not touched (70_reset R230, R231). -/
def State.resetUnits (s : State) : State :=
  { State.reset with ports := s.ports, reads := s.reads, input := s.input }

/-! ## The host's queue -/

/-- A command placed at the head of the host's queue, where `step` takes the next one (log 1). -/
def State.issue (s : State) (c : Command) : State := { s with input := .command c :: s.input }

end Sys2Proof.Machine
end

