-- ==== Sys2Proof/Machine/Detector.lean ====
section
/-! DEFINITION. The Format Detector, `DETECT` (43_detector R121 to R124). -/

namespace Sys2Proof.Machine

/-- An operation on `DEC.RAW`. -/
def Dec.onRaw (d : Dec) (k : Buffer → Flow Buffer) : Flow Dec := (k d.raw).map (fun b => { d with raw := b })

/-- An operation on `DEC.LO`. -/
def Dec.onLo (d : Dec) (k : Buffer → Flow Buffer) : Flow Dec := (k d.lo).map (fun b => { d with lo := b })

/-- An operation on `DEC.HI`. -/
def Dec.onHi (d : Dec) (k : Buffer → Flow Buffer) : Flow Dec := (k d.hi).map (fun b => { d with hi := b })

/-- Step 2 (R122): the Half sub-track derived from the whole raw window, then the raw buffer discarded. -/
def detectHalf (cfg : Config) (d : Dec) : Flow Dec :=
  (({ d with mode := .half }).onLo (fun b => b.clear.appendPacked cfg .low d.raw.window)).andThen
    (fun d1 => .go { d1 with raw := d1.raw.clear })

/-- The start-marker occurs somewhere in a byte sequence. -/
def showsStart (cfg : Config) (w : Bytes) : Bool := (find w cfg.startBytes 0).isSome

/-- The sub-tracks kept, with the mode `Mix`, if both show the start-marker, and discarded otherwise (R123, R124). -/
def keepIfMix (cfg : Config) (d : Dec) : Dec :=
  if showsStart cfg d.lo.window && showsStart cfg d.hi.window then { d with mode := .mix, raw := d.raw.clear }
  else { d with lo := d.lo.clear, hi := d.hi.clear }

/-- Steps 3 and 4 (R123, R124): both sub-tracks derived from the whole raw window, then kept or discarded. -/
def detectMix (cfg : Config) (d : Dec) : Flow Dec :=
  ((d.onLo (fun b => b.clear.appendPacked cfg .low d.raw.window)).andThen
    (fun d1 => d1.onHi (fun b => b.clear.appendPacked cfg .high d1.raw.window))).andThen
    (fun d2 => .go (keepIfMix cfg d2))

/-- The decision of `DETECT`, in strict priority order, on the raw window (R121). -/
def classify (cfg : Config) (d : Dec) : Flow Dec :=
  if showsStart cfg d.raw.window then .go { d with mode := .full }
  else if (find d.raw.window cfg.probeBytes 0).isSome then detectHalf cfg d
  else detectMix cfg d

/-- `DETECT(s)` (R121). -/
def detect (cfg : Config) (d : Dec) (s : Bytes) : Flow Dec :=
  (d.onRaw (fun b => b.append cfg s)).andThen (classify cfg)

end Sys2Proof.Machine
end

