-- ==== Sys2Proof/Machine/Silence.lean ====
section
/-! DEFINITION. Silence synthesis (46_silence), over a track: a buffer with the output port it feeds. -/

namespace Sys2Proof.Machine

/-- A track buffer `B` and the bytes that have left on the port `P` it feeds (44_extractor section 2). -/
structure Track where
  buf : Buffer
  port : Bytes
deriving DecidableEq, Repr

/-- `emit(P, s)` (00_scope section 6). -/
def Track.emit (t : Track) (s : Bytes) : Track := { t with port := t.port ++ s }

/-- `OUT_SAMPLES <- OUT_SAMPLES + 1024` of the track's buffer. -/
def Track.advance (t : Track) : Flow Track := t.buf.advance.map (fun b => { t with buf := b })

/-- `CONSUME` on the track's buffer. -/
def Track.consume (t : Track) (n : Nat) : Track := { t with buf := t.buf.consume n }

/-- `TEMPLATE(c)`: nothing for 0, its own template for 1, 2 and 6, the 2-channel one for the rest (46_silence R166). -/
def template (cfg : Config) (c : BitVec 3) : Bytes :=
  if c = 0#3 then []
  else if c = 1#3 then cfg.silTemplate1
  else if c = 6#3 then cfg.silTemplate6
  else cfg.silTemplate2

/-- `SILENCE(B, P)`: emit the template of the recorded header's channel count, then advance (46_silence R165). -/
def silence (cfg : Config) (t : Track) : Flow Track := (t.emit (template cfg (channelCountOf t.buf.hdr))).advance

/-- `while OUT_SAMPLES + 512 < goal: SILENCE(B, P)` (44_extractor R139, R142), with as many rounds as `fuel` allows. -/
def driftRounds (cfg : Config) (goal : Int) : Nat → Track → Flow Track
  | 0, t => .go t
  | fuel + 1, t =>
    if (t.buf.outSamples.toNat : Int) + driftTol < goal then
      (silence cfg t).andThen (driftRounds cfg goal fuel)
    else .go t

/-- The whole loop: each round adds 1024, so the distance to the goal bounds the rounds (70_reset R245, log 10). -/
def driftTo (cfg : Config) (goal : Int) (t : Track) : Flow Track :=
  driftRounds cfg goal (goal - t.buf.outSamples.toNat).toNat t

end Sys2Proof.Machine
end

