-- ==== Sys2Proof/Machine/Extractor.lean ====
section
/-! DEFINITION. The Frame Extractor (44_extractor): the checksum, one extraction attempt, the decode loop, the drain. -/

namespace Sys2Proof.Machine

/-! ## The checksum (R130) -/

/-- The 16-bit little-endian words of a block; a last single byte is a word with high byte 0. -/
def ckWords : Bytes → List (BitVec 16)
  | b0 :: b1 :: rest => (b1 ++ b0) :: ckWords rest
  | [b] => [b.setWidth 16]
  | [] => []

/-- The sum of the words modulo `2^16`. -/
def ckSum (ws : List (BitVec 16)) : BitVec 16 := ws.foldl (· + ·) 0#16

/-- The exclusive or of the words. -/
def ckXor (ws : List (BitVec 16)) : BitVec 16 := ws.foldl (· ^^^ ·) 0#16

/-- `CK(b)`: the exclusive or in the high half, the sum in the low half. -/
def ck (b : Bytes) : BitVec 32 := ckXor (ckWords b) ++ ckSum (ckWords b)

/-! ## One extraction attempt -/

/-- What an attempt answers: `Produced` or `NoFrame`, with the track as it left it, or a raised unit fault. -/
inductive Attempt where
  | produced (t : Track)
  | noFrame (t : Track)
  | raised (f : UnitFault) (t : Track)
deriving DecidableEq, Repr

/-- A start-marker position and the buffer with that marker's header recorded. -/
structure Marked where
  ps : Nat
  buf : Buffer
deriving DecidableEq, Repr

/-- The 7 header bytes after a start-marker at `ps`. -/
def headerAt (w : Bytes) (ps : Nat) : Bytes := slice w (ps + 8) (ps + 15)

/-- Step 4, the resynchronisation scan (R134), with as many rounds as `fuel` allows: while a start-marker lies whole in
`[ps + 8, pf)`, move to it and record its header. -/
def resyncRounds (cfg : Config) (w : Bytes) (pf : Nat) : Nat → Marked → Marked
  | 0, m => m
  | fuel + 1, m =>
    match find (w.take pf) cfg.startBytes (m.ps + 8) with
    | none => m
    | some q => resyncRounds cfg w pf fuel ⟨q, m.buf.recordHeader (headerAt w q)⟩

/-- Step 4 whole: each round moves forward by at least 8 and stays below `pf`, so `pf` rounds are enough (log 10). -/
def resync (cfg : Config) (w : Bytes) (pf : Nat) (m : Marked) : Marked := resyncRounds cfg w pf pf m

/-- `bs`, signed (R135). -/
def blockSize (ps pf : Nat) : Int := (pf : Int) - ps - 8 - 4

/-- `blk`, the whole ES frame, when `bs` is not negative (R135). -/
def blockOf (w : Bytes) (ps pf : Nat) : Bytes := slice w (ps + 8) (ps + 8 + (blockSize ps pf).toNat)

/-- `stored`, the checksum field before the end-marker (R135). -/
def storedCk (w : Bytes) (pf : Nat) : Nat := leNat (slice w (pf - 4) pf)

/-- Step 6, the frame test (R136); `hdr` is the header recorded last. -/
def corrupt (w : Bytes) (hdr : BitVec 56) (ps pf : Nat) : Bool :=
  if blockSize ps pf < 0 then true
  else
    decide ((ck (blockOf w ps pf)).toNat ≠ storedCk w pf) ||
      decide (blockSize ps pf ≠ ((frameLengthOf hdr).toNat : Int))

/-- `fs`, the frame's timestamp in whole samples, signed (R137). -/
def frameStart (b : Buffer) (ps : Nat) : Int := b.inStart + (ps / b.bps.toNat : Nat)

/-- The stale test of step 8 (R138). -/
def stale (b : Buffer) (ps : Nat) : Bool := decide (frameStart b ps + driftTol < b.outSamples.toNat)

/-- Steps 9 and 10: drift correction, then emission (R139, R140). -/
def emitFrame (cfg : Config) (t : Track) (ps pf : Nat) : Attempt :=
  let blk := blockOf t.buf.window ps pf
  match (driftTo cfg (frameStart t.buf ps) t).andThen (fun t1 => (t1.emit blk).advance) with
  | .go t2 => .produced (t2.consume (pf + 12))
  | .raised f t2 => .raised f t2

/-- Steps 5 to 10, once the markers are found and the header recorded (R135 to R140). -/
def judgeFrame (cfg : Config) (t : Track) (ps pf : Nat) : Attempt :=
  if corrupt t.buf.window t.buf.hdr ps pf then .produced (t.consume (pf + 12))
  else if stale t.buf ps then .produced (t.consume (pf + 12))
  else emitFrame cfg t ps pf

/-- `EXTRACT_ONE(B, P)` (R143; steps 1 to 3 are R131 to R133). -/
def extractOne (cfg : Config) (t : Track) : Attempt :=
  let w := t.buf.window
  match find w cfg.startBytes 0 with
  | none => .noFrame t
  | some ps =>
    if w.length < ps + 15 then .noFrame t
    else
      let b := t.buf.recordHeader (headerAt w ps)
      match find w cfg.endBytes (ps + 15) with
      | none => .noFrame { t with buf := b }
      | some pf =>
        let m := resync cfg w pf ⟨ps, b⟩
        judgeFrame cfg { t with buf := m.buf } m.ps pf

/-! ## The decode loop and the drain -/

/-- `EXTRACT_ONE` until `NoFrame` (R141), with as many attempts as `fuel` allows. -/
def extractRounds (cfg : Config) : Nat → Track → Flow Track
  | 0, t => .go t
  | fuel + 1, t =>
    match extractOne cfg t with
    | .produced t1 => extractRounds cfg fuel t1
    | .noFrame t1 => .go t1
    | .raised f t1 => .raised f t1

/-- The decode loop of one track: every `Produced` consumes at least 27 bytes, so one attempt more than the window has
bytes is enough (R141, R144, log 10). -/
def extractTrack (cfg : Config) (t : Track) : Flow Track := extractRounds cfg (t.buf.window.length + 1) t

/-- The drain of one track (R142). -/
def drainTrack (cfg : Config) (t : Track) : Flow Track := driftTo cfg t.buf.inSamples.toNat t

/-- Unit `DEC` with the bytes that have left on `DOUT_A` and `DOUT_B`. -/
structure DecIO where
  dec : Dec
  doutA : Bytes
  doutB : Bytes
deriving DecidableEq, Repr

/-- The track of `DEC.RAW`, which feeds `DOUT_A` (R148). -/
def DecIO.onRaw (d : DecIO) (k : Track → Flow Track) : Flow DecIO :=
  (k ⟨d.dec.raw, d.doutA⟩).map (fun t => { d with dec := { d.dec with raw := t.buf }, doutA := t.port })

/-- The track of `DEC.LO` in Half mode, which feeds `DOUT_A` (R148). -/
def DecIO.onLoA (d : DecIO) (k : Track → Flow Track) : Flow DecIO :=
  (k ⟨d.dec.lo, d.doutA⟩).map (fun t => { d with dec := { d.dec with lo := t.buf }, doutA := t.port })

/-- The track of `DEC.LO` in Mix mode, which feeds `DOUT_B` (R148). -/
def DecIO.onLoB (d : DecIO) (k : Track → Flow Track) : Flow DecIO :=
  (k ⟨d.dec.lo, d.doutB⟩).map (fun t => { d with dec := { d.dec with lo := t.buf }, doutB := t.port })

/-- The track of `DEC.HI` in Mix mode, which feeds `DOUT_A` (R148). -/
def DecIO.onHi (d : DecIO) (k : Track → Flow Track) : Flow DecIO :=
  (k ⟨d.dec.hi, d.doutA⟩).map (fun t => { d with dec := { d.dec with hi := t.buf }, doutA := t.port })

/-- The active tracks in their order (10_state R23), each with its port (R148), given to `k` one after another. -/
def DecIO.onTracks (d : DecIO) (k : Track → Flow Track) : Flow DecIO :=
  match d.dec.mode with
  | .unknown => .go d
  | .full => d.onRaw k
  | .half => d.onLoA k
  | .mix => (d.onLoB k).andThen (fun d1 => d1.onHi k)

/-- `EXTRACT_ALL` (R141). -/
def extractAll (cfg : Config) (d : DecIO) : Flow DecIO := d.onTracks (extractTrack cfg)

/-- `DRAIN` (R142). -/
def drain (cfg : Config) (d : DecIO) : Flow DecIO := d.onTracks (drainTrack cfg)

end Sys2Proof.Machine
end

