-- ==== Sys2Proof/Machine/Decoder.lean ====
section
/-! DEFINITION. The commands of unit `DEC`: `DEC_INIT`, `DEC_PUSH`, `DEC_FINISH` (48_commands section 3). -/

namespace Sys2Proof.Machine

/-- An operation on `DEC` and its two ports, seen on the whole state. -/
def State.onDec (s : State) (k : DecIO → Flow DecIO) : Flow State :=
  (k ⟨s.dec, s.ports.doutA, s.ports.doutB⟩).map
    (fun d => { s with dec := d.dec, ports := { s.ports with doutA := d.doutA, doutB := d.doutB } })

/-- `DEC` with the buffers of a new stream: empty, with the `BPS` of `NCH`, mode `Unknown` (R184). -/
def Dec.newStream (d : Dec) : Dec :=
  { d with
    raw := { d.raw.clear with bps := BitVec.ofNat 16 (2 * d.nch.toNat) }
    lo := { d.lo.clear with bps := d.nch.setWidth 16 }
    hi := { d.hi.clear with bps := d.nch.setWidth 16 }
    mode := .unknown }

/-- `DEC_INIT` (R184). -/
def execDecInit (s : State) : Host.Outcome State Fault Refusal :=
  if s.dec.nch = 0#8 then .next (s.refuse .eArg)
  else .next (({ s with dec := s.dec.newStream }).openUnit .dec)

/-- The `case` of `DEC_PUSH`: the payload goes to the detector or to the active buffers (R185). -/
def takePayload (cfg : Config) (d : Dec) (p : Bytes) : Flow Dec :=
  match d.mode with
  | .unknown => detect cfg d p
  | .full => d.onRaw (fun b => b.append cfg p)
  | .half => d.onLo (fun b => b.appendPacked cfg .low p)
  | .mix =>
    (d.onLo (fun b => b.appendPacked cfg .low p)).andThen (fun d1 => d1.onHi (fun b => b.appendPacked cfg .high p))

/-- The body of `DEC_PUSH`: take the payload, then extract with the mode as it now is (R185). -/
def decPushBody (cfg : Config) (p : Bytes) (d : DecIO) : Flow DecIO :=
  ((takePayload cfg d.dec p).map (fun x => { d with dec := x })).andThen (extractAll cfg)

/-- `DEC_PUSH bytes` (R185). -/
def execDecPush (p : Bytes) (s : State) : Host.Outcome State Fault Refusal :=
  .next (s.whenActive .dec (fun s1 => s1.onDec (decPushBody Config.build p)))

/-- The body of `DEC_FINISH` before the phase changes: no format is a unit fault, else the drain (R187). -/
def decFinishBody (cfg : Config) (d : DecIO) : Flow DecIO :=
  match d.dec.mode with
  | .unknown => .raised .noFormat d
  | .full => drain cfg d
  | .half => drain cfg d
  | .mix => drain cfg d

/-- `DEC_FINISH` (R187). -/
def execDecFinish (s : State) : Host.Outcome State Fault Refusal :=
  .next (s.whenActive .dec
    (fun s1 => (s1.onDec (decFinishBody Config.build)).andThen (fun s2 => .go (s2.closeUnit .dec))))

end Sys2Proof.Machine
end

