-- ==== Sys2Proof/Machine/Wrapper.lean ====
section
/-! DEFINITION. The Frame Wrapper (45_wrapper). -/

namespace Sys2Proof.Machine

/-- `WRAP(F)` (R152, 30_encoding R70). -/
def wrap (cfg : Config) (f : Bytes) : Bytes := cfg.startBytes ++ f ++ le32 (ck f) ++ cfg.endBytes

/-- `PACK(Half, Y)` (R156): each byte plus 128 in the low byte of a sample, `HALF_FILL` in the high byte. -/
def packHalf (fill : Byte) : Bytes → Bytes
  | [] => []
  | y :: ys => (y + 128#8) :: fill :: packHalf fill ys

/-- `PACK(CFG_MODE, Y)`: Half is expanded, Full and Mix are emitted as they are (R155, R156, R159). -/
def pack (cfg : Config) (mode : BitVec 2) (y : Bytes) : Bytes := if mode = 2#2 then packHalf cfg.halfFill y else y

/-- `BPS_T`: `2 * NCH` in Full mode, `NCH` in Half and Mix (R150). -/
def trackBps (e : Enc) : Nat := if e.cfgMode = 1#2 then 2 * e.cfgNch.toNat else e.cfgNch.toNat

/-- `SLOT`, in bytes of the track (R150, 30_encoding R72). -/
def slotBytes (e : Enc) : Nat := aacBlockSamples * trackBps e

/-- A wrapped frame padded with zero bytes to its slot; one longer than the slot is not padded (R153, R154). -/
def slotOf (cfg : Config) (e : Enc) (f : Bytes) : Bytes :=
  wrap cfg f ++ zeros (slotBytes e - (wrap cfg f).length)

/-- An encoder with the bytes that have left on its port `EOUT[u]`. -/
structure EncIO where
  enc : Enc
  eout : Bytes
deriving DecidableEq, Repr

/-- `emit(EOUT[u], s)`. -/
def EncIO.emit (io : EncIO) (s : Bytes) : EncIO := { io with eout := io.eout ++ s }

/-- An operation on the accumulator. -/
def EncIO.onAcc (io : EncIO) (k : Buffer → Flow Buffer) : Flow EncIO :=
  (k io.enc.acc).map (fun b => { io with enc := { io.enc with acc := b } })

/-- `CONSUME(E.ACC, n)`. -/
def EncIO.consume (io : EncIO) (n : Nat) : EncIO := { io with enc := { io.enc with acc := io.enc.acc.consume n } }

/-- `WRAP_EMIT(E, F)` (R153): emit the packed slot, then advance. -/
def wrapEmit (cfg : Config) (io : EncIO) (f : Bytes) : Flow EncIO :=
  (io.emit (pack cfg io.enc.cfgMode (slotOf cfg io.enc f))).onAcc Buffer.advance

/-- One silence frame of the delay (R157): an empty template only advances the counter. -/
def delayFrame (cfg : Config) (c : BitVec 3) (io : EncIO) : Flow EncIO :=
  if template cfg c = [] then io.onAcc Buffer.advance else wrapEmit cfg io (template cfg c)

/-- `n` silence frames. -/
def delayRounds (cfg : Config) (c : BitVec 3) : Nat → EncIO → Flow EncIO
  | 0, io => .go io
  | n + 1, io => (delayFrame cfg c io).andThen (delayRounds cfg c n)

/-- `d`, the delay in samples at the container's rate (R157). -/
def delaySamples (e : Enc) : Nat := e.cfgDelayMs.toNat * e.cfgRate.toNat / 1000

/-- `DELAY_SILENCE(E, c)` (R157). -/
def delaySilence (cfg : Config) (c : BitVec 3) (io : EncIO) : Flow EncIO :=
  delayRounds cfg c (cfg.delayFrames (delaySamples io.enc)) io

/-- `if E.DELAY_DONE = 0: DELAY_SILENCE(E, c); E.DELAY_DONE <- 1` (R151). -/
def delayOnce (cfg : Config) (c : BitVec 3) (io : EncIO) : Flow EncIO :=
  if io.enc.delayDone then .go io
  else (delaySilence cfg c io).andThen (fun io1 => .go { io1 with enc := { io1.enc with delayDone := true } })

/-- `RECORD_HEADER(E.ACC, E.ACC.W[0 .. 7))` (R151). -/
def EncIO.recordHead (io : EncIO) : EncIO :=
  { io with enc := { io.enc with acc := io.enc.acc.recordHeader (io.enc.acc.window.take adtsLen) } }

/-- `L`, the length the recorded header gives (R151). -/
def EncIO.headLength (io : EncIO) : Nat := (frameLengthOf io.enc.acc.hdr).toNat

/-- The delay silence if it is due, the frame of `len` bytes at the head wrapped and emitted, and its bytes consumed
(R151). -/
def feedFrame (cfg : Config) (io : EncIO) (len : Nat) : Flow EncIO :=
  ((delayOnce cfg (channelCountOf io.enc.acc.hdr) io).andThen
    (fun io1 => wrapEmit cfg io1 (io.enc.acc.window.take len))).andThen
    (fun io2 => .go (io2.consume len))

/-- The loop of `ENC_FEED` (R151), with as many rounds as `fuel` allows. -/
def feedRounds (cfg : Config) : Nat → EncIO → Flow EncIO
  | 0, io => .go io
  | fuel + 1, io =>
    if io.enc.acc.window.length < adtsLen then .go io
    else if io.recordHead.headLength < adtsLen then .raised .esMalformed io.recordHead
    else if io.enc.acc.window.length < io.recordHead.headLength then .go io.recordHead
    else (feedFrame cfg io.recordHead io.recordHead.headLength).andThen (feedRounds cfg fuel)

/-- The loop whole: every round that goes on consumes at least 7 bytes (70_reset R245, log 10). -/
def feedLoop (cfg : Config) (io : EncIO) : Flow EncIO := feedRounds cfg (io.enc.acc.window.length + 1) io

/-- `ENC_FEED(E, s)` (R151). -/
def encFeed (cfg : Config) (io : EncIO) (s : Bytes) : Flow EncIO :=
  (io.onAcc (fun b => b.append cfg s)).andThen (feedLoop cfg)

/-- `ENC_FLUSH(E)` (R160). -/
def encFlush (cfg : Config) (io : EncIO) : Flow EncIO :=
  if io.enc.acc.window.length = 0 then .go io
  else (wrapEmit cfg io io.enc.acc.window).andThen (fun io1 => .go (io1.consume io.enc.acc.window.length))

end Sys2Proof.Machine
end

