-- ==== Sys2Proof/Machine/Encoder.lean ====
section
/-! DEFINITION. The commands of the units `ENC[u]`: `ENC_INIT`, `ENC_PUSH`, `ENC_FINISH` (48_commands section 4). -/

namespace Sys2Proof.Machine

/-- An operation on `ENC[u]` and its port, seen on the whole state. -/
def State.onEnc (s : State) (u : EncIndex) (k : EncIO → Flow EncIO) : Flow State :=
  (k ⟨s.enc u, s.ports.eout u⟩).map (fun io => { s.setEnc u io.enc with ports := s.ports.setEout u io.eout })

/-- `ENC[u]` with the accumulator and the flag of a new stream (R188). -/
def Enc.newStream (e : Enc) : Enc := { e with acc := { e.acc.clear with bps := 1#16 }, delayDone := false }

/-- `ENC_INIT u` (R188). -/
def execEncInit (u : EncIndex) (s : State) : Host.Outcome State Fault Refusal :=
  if (s.enc u).cfgMode = 0#2 ∨ (s.enc u).cfgNch = 0#8 then .next (s.refuse .eArg)
  else .next ((s.setEnc u (s.enc u).newStream).openUnit (.enc u))

/-- `ENC_PUSH u, bytes` (R189). -/
def execEncPush (u : EncIndex) (p : Bytes) (s : State) : Host.Outcome State Fault Refusal :=
  .next (s.whenActive (.enc u) (fun s1 => s1.onEnc u (fun io => encFeed Config.build io p)))

/-- `ENC_FINISH u` (R190). -/
def execEncFinish (u : EncIndex) (s : State) : Host.Outcome State Fault Refusal :=
  .next (s.whenActive (.enc u)
    (fun s1 => (s1.onEnc u (encFlush Config.build)).andThen (fun s2 => .go (s2.closeUnit (.enc u)))))

end Sys2Proof.Machine
end

