-- ==== Sys2Proof/Machine/Operands.lean ====
section
/-! DEFINITION. The register operand of `RDREG` and `WRREG`: the register map of 10_state R31 (numbers, widths, access,
content). The other operands (encoder index, queue, payload, value) are decoded whole in Decode.lean. -/

namespace Sys2Proof.Machine

/-- The five Bitstream Buffers (10_state section 5). -/
inductive BufName where
  | raw
  | lo
  | hi
  | acc (u : EncIndex)
deriving DecidableEq, Repr

/-- The six buffer registers (R31, second table). -/
inductive BufReg where
  | length
  | bps
  | inSamples
  | outSamples
  | hdr
  | inStart
deriving DecidableEq, Repr

/-- The registers of the map (R31). -/
inductive Reg where
  | id
  | cmdErr
  | phases
  | decPhase
  | decMode
  | decNch
  | decErr
  | buf (b : BufName) (k : BufReg)
  | encPhase (u : EncIndex)
  | encCfgMode (u : EncIndex)
  | encCfgNch (u : EncIndex)
  | encCfgRate (u : EncIndex)
  | encCfgDelayMs (u : EncIndex)
  | encErr (u : EncIndex)
  | encDelayDone (u : EncIndex)
  | mixPhase
  | mixErr
  | mixQaLen
  | mixQbLen
  | mixTotal
  | mixTotalSat32
deriving DecidableEq, Repr

/-- `WRREG` access of a register (R31): `RO`, `WC` (any write clears), `RW*` (writable while its unit is not `Active`,
with the register's width). -/
inductive Access where
  | ro
  | wc
  | rw (unit : UnitName) (width : Nat)
deriving DecidableEq, Repr

/-- Buffer register number `k`; 6 and 7 are reserved (R31). -/
def bufRegOf (k : Nat) : Option BufReg :=
  match k with
  | 0 => some .length
  | 1 => some .bps
  | 2 => some .inSamples
  | 3 => some .outSamples
  | 4 => some .hdr
  | 5 => some .inStart
  | _ => none

/-- Register `k` of an encoder's bank: 0 to 6, and the accumulator's registers from 8 on (R31). -/
def encRegOf (u : EncIndex) (k : Nat) : Option Reg :=
  match k with
  | 0 => some (.encPhase u)
  | 1 => some (.encCfgMode u)
  | 2 => some (.encCfgNch u)
  | 3 => some (.encCfgRate u)
  | 4 => some (.encCfgDelayMs u)
  | 5 => some (.encErr u)
  | 6 => some (.encDelayDone u)
  | 7 => none
  | n => (bufRegOf (n - 8)).map (.buf (.acc u))

/-- The register a `SEL` names; `none` for a reserved number (R31). -/
def regOf (sel : BitVec 8) : Option Reg :=
  let n := sel.toNat
  if n = 0x00 then some .id
  else if n = 0x01 then some .cmdErr
  else if n = 0x02 then some .phases
  else if n = 0x10 then some .decPhase
  else if n = 0x11 then some .decMode
  else if n = 0x12 then some .decNch
  else if n = 0x13 then some .decErr
  else if 0x20 ≤ n ∧ n < 0x28 then (bufRegOf (n - 0x20)).map (.buf .raw)
  else if 0x28 ≤ n ∧ n < 0x30 then (bufRegOf (n - 0x28)).map (.buf .lo)
  else if 0x30 ≤ n ∧ n < 0x38 then (bufRegOf (n - 0x30)).map (.buf .hi)
  else if 0x40 ≤ n ∧ n < 0x50 then encRegOf .e0 (n - 0x40)
  else if 0x60 ≤ n ∧ n < 0x70 then encRegOf .e1 (n - 0x60)
  else if n = 0x80 then some .mixPhase
  else if n = 0x81 then some .mixErr
  else if n = 0x82 then some .mixQaLen
  else if n = 0x83 then some .mixQbLen
  else if n = 0x84 then some .mixTotal
  else if n = 0x85 then some .mixTotalSat32
  else none

/-- `ID`, the ASCII bytes "FAWX" (R11). -/
def idValue : BitVec 32 := 0x46415758#32

/-- The buffer of that name. -/
def State.buffer (s : State) : BufName → Buffer
  | .raw => s.dec.raw
  | .lo => s.dec.lo
  | .hi => s.dec.hi
  | .acc u => (s.enc u).acc

/-- The content of a buffer register, zero-extended; `IN_START` as two's complement (R31, second table). -/
def readBufReg (cfg : Config) (b : Buffer) : BufReg → Word64
  | .length => natView cfg b.window.length
  | .bps => b.bps.setWidth 64
  | .inSamples => b.inSamples
  | .outSamples => b.outSamples
  | .hdr => b.hdr.setWidth 64
  | .inStart => intView cfg b.inStart

/-- The content of a register, zero-extended to 64 bits (R31). -/
def readReg (cfg : Config) (s : State) : Reg → Word64
  | .id => idValue.setWidth 64
  | .cmdErr => s.cmdErr.setWidth 64
  | .phases => (phasesView s).setWidth 64
  | .decPhase => (phaseCode s.dec.phase).setWidth 64
  | .decMode => (modeCode s.dec.mode).setWidth 64
  | .decNch => s.dec.nch.setWidth 64
  | .decErr => s.dec.err.setWidth 64
  | .buf b k => readBufReg cfg (s.buffer b) k
  | .encPhase u => (phaseCode (s.enc u).phase).setWidth 64
  | .encCfgMode u => (s.enc u).cfgMode.setWidth 64
  | .encCfgNch u => (s.enc u).cfgNch.setWidth 64
  | .encCfgRate u => (s.enc u).cfgRate.setWidth 64
  | .encCfgDelayMs u => (s.enc u).cfgDelayMs.setWidth 64
  | .encErr u => (s.enc u).err.setWidth 64
  | .encDelayDone u => (BitVec.ofBool (s.enc u).delayDone).setWidth 64
  | .mixPhase => (phaseCode s.mix.phase).setWidth 64
  | .mixErr => s.mix.err.setWidth 64
  | .mixQaLen => natView cfg s.mix.qa.length
  | .mixQbLen => natView cfg s.mix.qb.length
  | .mixTotal => s.mix.total
  | .mixTotalSat32 => (totalSat32 s.mix.total).setWidth 64

/-- The access of a register (R31). -/
def regAccess : Reg → Access
  | .id => .ro
  | .cmdErr => .wc
  | .phases => .ro
  | .decPhase => .ro
  | .decMode => .ro
  | .decNch => .rw .dec 8
  | .decErr => .ro
  | .buf _ _ => .ro
  | .encPhase _ => .ro
  | .encCfgMode u => .rw (.enc u) 2
  | .encCfgNch u => .rw (.enc u) 8
  | .encCfgRate u => .rw (.enc u) 32
  | .encCfgDelayMs u => .rw (.enc u) 32
  | .encErr _ => .ro
  | .encDelayDone _ => .ro
  | .mixPhase => .ro
  | .mixErr => .ro
  | .mixQaLen => .ro
  | .mixQbLen => .ro
  | .mixTotal => .ro
  | .mixTotalSat32 => .ro

/-- A `RW*` register takes the value, which fits it (48_commands R186); no other register stores a written value. -/
def storeReg (v : BitVec 32) (s : State) : Reg → State
  | .decNch => { s with dec := { s.dec with nch := v.setWidth 8 } }
  | .encCfgMode u => s.setEnc u { s.enc u with cfgMode := v.setWidth 2 }
  | .encCfgNch u => s.setEnc u { s.enc u with cfgNch := v.setWidth 8 }
  | .encCfgRate u => s.setEnc u { s.enc u with cfgRate := v }
  | .encCfgDelayMs u => s.setEnc u { s.enc u with cfgDelayMs := v }
  | .id => s
  | .cmdErr => s
  | .phases => s
  | .decPhase => s
  | .decMode => s
  | .decErr => s
  | .buf _ _ => s
  | .encPhase _ => s
  | .encErr _ => s
  | .encDelayDone _ => s
  | .mixPhase => s
  | .mixErr => s
  | .mixQaLen => s
  | .mixQbLen => s
  | .mixTotal => s
  | .mixTotalSat32 => s

end Sys2Proof.Machine
end

