-- ==== Sys2Proof/Machine/General.lean ====
section
/-! DEFINITION. The general commands `NOP`, `RESET`, `RDREG`, `WRREG` (48_commands section 2). -/

namespace Sys2Proof.Machine

/-- `NOP`: no state, no output (R180). -/
def execNop (s : State) : Host.Outcome State Fault Refusal := .next s

/-- `RESET`: as hardware reset (R183). -/
def execReset (s : State) : Host.Outcome State Fault Refusal := .next s.resetUnits

/-- `RDREG sel`: the register's value as 64 bits; a reserved number refuses with `E_SEL` and the value 0 (R182). -/
def execRdreg (sel : BitVec 8) (s : State) : Host.Outcome State Fault Refusal :=
  match regOf sel with
  | some r => .next (s.returnRead (readReg Config.build s r))
  | none => .next (s.refuseRead .eSel)

/-- The state after a `WRREG` to a register that is not reserved: phase before argument (R186, 90_conflicts C8). -/
def writeReg (r : Reg) (v : BitVec 32) (s : State) : State :=
  match regAccess r with
  | .wc => { s with cmdErr := 0#8 }
  | .ro => s.refuse .eArg
  | .rw u width =>
    if s.phase u = .active then s.refuse .ePhase
    else if 2 ^ width ≤ v.toNat then s.refuse .eArg
    else storeReg v s r

/-- `WRREG sel, value` (R186). -/
def execWrreg (sel : BitVec 8) (v : BitVec 32) (s : State) : Host.Outcome State Fault Refusal :=
  match regOf sel with
  | some r => .next (writeReg r v s)
  | none => .next (s.refuse .eSel)

end Sys2Proof.Machine
end

