-- ==== Sys2Proof/Machine/Mixer.lean ====
section
/-! DEFINITION. The Dual-Track Mixer (47_mixer) and its commands `MIX_INIT`, `MIX_PUSH`, `MIX_STEP`, `MIX_FINISH`
(48_commands section 5). -/

namespace Sys2Proof.Machine

/-- Unit `MIX` with the bytes that have left on `MOUT`. -/
structure MixIO where
  mix : Mix
  mout : Bytes
deriving DecidableEq, Repr

/-- An operation on `MIX` and its port, seen on the whole state. -/
def State.onMix (s : State) (k : MixIO → Flow MixIO) : Flow State :=
  (k ⟨s.mix, s.ports.mout⟩).map (fun m => { s with mix := m.mix, ports := { s.ports with mout := m.mout } })

/-- `QPUSH(q, s)` (R170): the capacity test, then the append. -/
def qpush (cfg : Config) (q : QueueName) (p : Bytes) (m : MixIO) : Flow MixIO :=
  match q with
  | .qa =>
    if overCap cfg (m.mix.qa.length + p.length) then .raised .bufOvf m
    else .go { m with mix := { m.mix with qa := m.mix.qa ++ p } }
  | .qb =>
    if overCap cfg (m.mix.qb.length + p.length) then .raised .bufOvf m
    else .go { m with mix := { m.mix with qb := m.mix.qb ++ p } }

/-- `MIXBLOCK(a, b)` of two sequences of one length: per index the byte of `b` then the byte of `a`, each less 128 modulo
256 (R171). -/
def mixBlock : Bytes → Bytes → Bytes
  | a :: as, b :: bs => remap b :: remap a :: mixBlock as bs
  | [], _ => []
  | _ :: _, [] => []

/-- `MIX.TOTAL <- MIX.TOTAL + n`, raising `F_CNT_OVF` where it would not fit (R172, R173). -/
def MixIO.addTotal (m : MixIO) (n : Nat) : Flow MixIO :=
  match addCounter m.mix.total n with
  | some t => .go { m with mix := { m.mix with total := t } }
  | none => .raised .cntOvf m

/-- `MIX_RUN` (R172). -/
def mixRun (m : MixIO) : Flow MixIO :=
  let n := min m.mix.qa.length m.mix.qb.length
  let out := mixBlock (m.mix.qa.take n) (m.mix.qb.take n)
  MixIO.addTotal
    { mix := { m.mix with qa := m.mix.qa.drop n, qb := m.mix.qb.drop n }, mout := m.mout ++ out } (2 * n)

/-- `s ++ zeros(n - |s|)` (R173). -/
def padTo (n : Nat) (s : Bytes) : Bytes := s ++ zeros (n - s.length)

/-- `MIX_END` (R173). -/
def mixEnd (m : MixIO) : Flow MixIO :=
  let n := max m.mix.qa.length m.mix.qb.length
  let out := mixBlock (padTo n m.mix.qa) (padTo n m.mix.qb)
  MixIO.addTotal { mix := { m.mix with qa := [], qb := [] }, mout := m.mout ++ out } (2 * n)

/-- `MIX_INIT` (R191). -/
def execMixInit (s : State) : Host.Outcome State Fault Refusal :=
  .next (({ s with mix := { s.mix with qa := [], qb := [], total := 0#64 } }).openUnit .mix)

/-- `MIX_PUSH q, bytes` (R192). -/
def execMixPush (q : QueueName) (p : Bytes) (s : State) : Host.Outcome State Fault Refusal :=
  .next (s.whenActive .mix (fun s1 => s1.onMix (qpush Config.build q p)))

/-- `MIX_STEP` (R193). -/
def execMixStep (s : State) : Host.Outcome State Fault Refusal :=
  .next (s.whenActive .mix (fun s1 => s1.onMix mixRun))

/-- `MIX_FINISH` (R194). -/
def execMixFinish (s : State) : Host.Outcome State Fault Refusal :=
  .next (s.whenActive .mix (fun s1 => (s1.onMix mixEnd).andThen (fun s2 => .go (s2.closeUnit .mix))))

end Sys2Proof.Machine
end

