-- ==== Sys2Proof/Machine/Dispatch.lean ====
section
/-! DEFINITION. The meaning of every host command (30_encoding R64), one arm a constructor. -/

namespace Sys2Proof.Machine

def exec (i : Instr) (s : State) : Host.Outcome State Fault Refusal :=
  match i with
  | .nop => Sys2Proof.Machine.execNop s
  | .reset => Sys2Proof.Machine.execReset s
  | .rdreg sel => Sys2Proof.Machine.execRdreg sel s
  | .wrreg sel v => Sys2Proof.Machine.execWrreg sel v s
  | .decInit => Sys2Proof.Machine.execDecInit s
  | .decPush p => Sys2Proof.Machine.execDecPush p s
  | .decFinish => Sys2Proof.Machine.execDecFinish s
  | .encInit u => Sys2Proof.Machine.execEncInit u s
  | .encPush u p => Sys2Proof.Machine.execEncPush u p s
  | .encFinish u => Sys2Proof.Machine.execEncFinish u s
  | .mixInit => Sys2Proof.Machine.execMixInit s
  | .mixPush q p => Sys2Proof.Machine.execMixPush q p s
  | .mixStep => Sys2Proof.Machine.execMixStep s
  | .mixFinish => Sys2Proof.Machine.execMixFinish s

end Sys2Proof.Machine
end

