-- ==== Sys2Proof/Machine/Step.lean ====
section
/-! DEFINITION. One step: FAWX takes the host's next entry and executes it to completion (00_scope R5). FAWX fetches
nothing of its own (10_state R13, 20_memory R53); the host's queue stands for what the host sends (log 1). -/

namespace Sys2Proof.Machine

/-- One command of the host: run if it decodes, refused with its code if it does not (30_encoding R65). -/
def runCommand (c : Command) (s : State) : Host.Outcome State Fault Refusal :=
  match decode c with
  | .instr i => exec i s
  | .refused e => .next (s.refuseWord c.word e)
  | .notACommand => .fault .notACommand

/-- One step. With nothing sent, nothing changes: between commands nothing advances (10_state R13, log 2). -/
def step (s : State) : Host.Outcome State Fault Refusal :=
  match s.input with
  | [] => .next s
  | .hardReset :: rest => .next ({ s with input := rest }).resetUnits
  | .command c :: rest => runCommand c { s with input := rest }

/-- The state with the instruction whose bits are the low `nbits` bits of `w` sent by the host as its next command
(log 1). -/
def State.withFetchWord (s : State) (nbits w : Nat) : State := s.issue (commandOfBits nbits w)

end Sys2Proof.Machine
end

