-- ==== Sys2Proof/Machine/Memory.lean ====
section
/-! DEFINITION. The buffer memories (20_memory R40 (2)): seven byte sequences, each indexed from its oldest byte and each
of at most `BUF_CAP` bytes (10_state R16, R27). FAWX has no address space of cells (R40, R49); a window is a list of bytes
and an index a natural number, as R41 says. -/

namespace Sys2Proof.Machine

/-- The seven buffer memories. -/
inductive MemName where
  | window (b : BufName)
  | queue (q : QueueName)
deriving DecidableEq, Repr

/-- The bytes a buffer memory holds, oldest first. -/
def State.bytesOf (s : State) : MemName → Bytes
  | .window b => (s.buffer b).window
  | .queue .qa => s.mix.qa
  | .queue .qb => s.mix.qb

/-- One byte of a buffer memory, counted from the oldest; `none` where there is no such byte (20_memory R40, R41). -/
def State.byteAt (s : State) (m : MemName) (i : Nat) : Option Byte := (s.bytesOf m)[i]?

/-- A byte sequence within `BUF_CAP`. -/
def fitsCap (cfg : Config) (b : Bytes) : Bool := !overCap cfg b.length

/-- The form every buffer memory has: at most `BUF_CAP` bytes (10_state R16, R27). -/
def Memory.wf (s : State) : Bool :=
  fitsCap Config.build s.dec.raw.window && fitsCap Config.build s.dec.lo.window &&
    fitsCap Config.build s.dec.hi.window && fitsCap Config.build s.enc0.acc.window &&
    fitsCap Config.build s.enc1.acc.window && fitsCap Config.build s.mix.qa && fitsCap Config.build s.mix.qb

end Sys2Proof.Machine
end

