-- ==== Sys2Proof/Machine/Parameters.lean ====
section
/-! DEFINITION. The well-formed configurations of 00_scope R4 and the property of `delay_frames` (45_wrapper R158), as
predicates: a theorem that needs one takes it as a hypothesis (70_reset R235; log 6). R4 (a), the marker lengths, is in
the types of `Config`; R4 (c) is the absence of a condition. -/

namespace Sys2Proof.Machine

/-- R4 (b): no proper border. -/
def noBorder (m : Bytes) : Prop := ∀ k, 0 < k → k < m.length → m.take k ≠ m.drop (m.length - k)

/-- R4 (d): the template's first 7 bytes parse to its own length and to channel count `c`. -/
def templateOk (t : Bytes) (c : BitVec 3) : Prop :=
  adtsLen ≤ t.length ∧ (frameLengthOf (headerOfBytes (t.take adtsLen))).toNat = t.length ∧
    channelCountOf (headerOfBytes (t.take adtsLen)) = c

/-- R4 (e): the probe is the Half packing of some 8 consecutive bytes that every Half-mode track contains before its
first start-marker ends. `halfTracks` says which byte tracks are the Half-mode streams of the build's users; the spec
does not list them (log 6). -/
def probeOk (cfg : Config) (halfTracks : Bytes → Prop) : Prop :=
  ∃ p : Bytes, p.length = startLen ∧ cfg.probeBytes = packHalf cfg.halfFill p ∧
    ∀ t, halfTracks t → ∃ i j, find t cfg.startBytes 0 = some j ∧ i ≤ j ∧ slice t i (i + startLen) = p

/-- A well-formed configuration (R4). -/
structure ConfigWellFormed (cfg : Config) (halfTracks : Bytes → Prop) : Prop where
  border : noBorder cfg.startBytes
  template1 : templateOk cfg.silTemplate1 1#3
  template2 : templateOk cfg.silTemplate2 2#3
  template6 : templateOk cfg.silTemplate6 6#3
  probe : probeOk cfg halfTracks

/-- The property the rules assume of `delay_frames` (45_wrapper R158). -/
def delayFramesOk (cfg : Config) : Prop := ∀ d : Nat, |(1024 * cfg.delayFrames d : Int) - d| < 1024

end Sys2Proof.Machine
end

