-- ==== Sys2Proof/Safety.lean ====
section
/-! DEFINITION. The terms the claims use: the invariant of the machine, what every state that a run reaches has, and the
relation "nothing but this changed". -/

namespace Sys2Proof.Machine

/-- A buffer as `INIT`, `RESET` and the detector's discards leave it, but for `BPS` (42_buffer R109). -/
def Buffer.Blank (b : Buffer) : Prop := b.window = [] ∧ b.inSamples = 0#64 ∧ b.outSamples = 0#64 ∧ b.hdr = 0#56

/-- What holds of every Bitstream Buffer: `BPS >= 1` (42_buffer R110), the window within `BUF_CAP` (10_state R16),
`OUT_SAMPLES` a whole number of frames (10_state R19). -/
structure Buffer.Sound (b : Buffer) : Prop where
  bps_pos : 0 < b.bps.toNat
  within_cap : fitsCap Config.build b.window = true
  whole_frames : 1024 ∣ b.outSamples.toNat

/-- The buffers of `DEC` that are not active in the current mode are empty with all counters 0 (10_state R23); while the
mode is `Unknown` nothing has been emitted and no header recorded (43_detector R124). -/
def Dec.InactiveBlank (d : Dec) : Prop :=
  match d.mode with
  | .unknown => d.lo.Blank ∧ d.hi.Blank ∧ d.raw.outSamples = 0#64 ∧ d.raw.hdr = 0#56
  | .full => d.lo.Blank ∧ d.hi.Blank
  | .half => d.raw.Blank ∧ d.hi.Blank
  | .mix => d.raw.Blank

/-- The invariant of `DEC`. -/
structure Dec.Inv (d : Dec) : Prop where
  raw_sound : d.raw.Sound
  lo_sound : d.lo.Sound
  hi_sound : d.hi.Sound
  halted_err : d.phase = .halted → d.err ∈ [faultCode .noFormat, faultCode .bufOvf, faultCode .cntOvf]
  running_err : d.phase ≠ .halted → d.err = 0#8
  active_bps : d.phase = .active →
    d.nch ≠ 0#8 ∧ d.raw.bps.toNat = 2 * d.nch.toNat ∧ d.lo.bps.toNat = d.nch.toNat ∧ d.hi.bps.toNat = d.nch.toNat
  inactive_blank : d.phase ≠ .halted → d.InactiveBlank
  finished_mode : d.phase = .finished → d.mode ≠ .unknown
  idle_reset : d.phase = .idle → d.mode = .unknown ∧ d.raw = Buffer.reset ∧ d.lo = Buffer.reset ∧ d.hi = Buffer.reset
  no_format : d.err = faultCode .noFormat → d.mode = .unknown ∧ d.InactiveBlank

/-- No complete frame waits in an accumulator (45_wrapper R151). -/
def Enc.NoFrameWaits (e : Enc) : Prop :=
  e.acc.window.length < adtsLen ∨
    adtsLen ≤ (frameLengthOf (headerOfBytes (e.acc.window.take adtsLen))).toNat ∧
      e.acc.window.length < (frameLengthOf (headerOfBytes (e.acc.window.take adtsLen))).toNat

/-- The invariant of `ENC[u]`. -/
structure Enc.Inv (e : Enc) : Prop where
  acc_sound : e.acc.Sound
  acc_bps : e.acc.bps = 1#16
  halted_err : e.phase = .halted → e.err ∈ [faultCode .bufOvf, faultCode .cntOvf, faultCode .esMalformed]
  running_err : e.phase ≠ .halted → e.err = 0#8
  active_cfg : e.phase = .active → e.cfgMode ≠ 0#2 ∧ e.cfgNch ≠ 0#8
  active_waits : e.phase = .active → e.NoFrameWaits
  idle_reset : e.phase = .idle → e.acc = Buffer.reset ∧ e.delayDone = false

/-- The invariant of `MIX`. -/
structure Mix.Inv (m : Mix) : Prop where
  qa_cap : fitsCap Config.build m.qa = true
  qb_cap : fitsCap Config.build m.qb = true
  halted_err : m.phase = .halted → m.err ∈ [faultCode .bufOvf, faultCode .cntOvf]
  running_err : m.phase ≠ .halted → m.err = 0#8
  total_even : 2 ∣ m.total.toNat
  finished_empty : m.phase = .finished → m.qa = [] ∧ m.qb = []
  idle_reset : m.phase = .idle → m = Mix.reset

/-- The invariant of the machine, kept by every step from every state that has it. -/
structure State.Inv (s : State) : Prop where
  cmdErr_legal : s.cmdErr.toNat ≤ 5
  dec : s.dec.Inv
  enc0 : s.enc0.Inv
  enc1 : s.enc1.Inv
  mix : s.mix.Inv

/-- The unit a command is addressed to; `none` for the general commands (48_commands R181). -/
def unitOf : Instr → Option UnitName
  | .nop => none
  | .reset => none
  | .rdreg _ => none
  | .wrreg _ _ => none
  | .decInit => some .dec
  | .decPush _ => some .dec
  | .decFinish => some .dec
  | .encInit u => some (.enc u)
  | .encPush u _ => some (.enc u)
  | .encFinish u => some (.enc u)
  | .mixInit => some .mix
  | .mixPush _ _ => some .mix
  | .mixStep => some .mix
  | .mixFinish => some .mix

/-- Nothing of `DEC` and its ports changed. -/
def SameDec (s t : State) : Prop :=
  t.dec = s.dec ∧ t.ports.doutA = s.ports.doutA ∧ t.ports.doutB = s.ports.doutB

/-- Nothing of `ENC[u]` and its port changed. -/
def SameEnc (u : EncIndex) (s t : State) : Prop := t.enc u = s.enc u ∧ t.ports.eout u = s.ports.eout u

/-- Nothing of `MIX` and its port changed. -/
def SameMix (s t : State) : Prop := t.mix = s.mix ∧ t.ports.mout = s.ports.mout

/-- Nothing of a unit and its ports changed. -/
def SameUnit : UnitName → State → State → Prop
  | .dec => SameDec
  | .enc u => SameEnc u
  | .mix => SameMix

/-- Nothing outside a unit and its ports changed: the frame of a command of that unit that is not refused. -/
def OnlyUnit (u : UnitName) (s t : State) : Prop :=
  t.cmdErr = s.cmdErr ∧ t.reads = s.reads ∧ t.input = s.input ∧ ∀ v, v ≠ u → SameUnit v s t

/-! ## Formats of the command word (30_encoding R62) -/

/-- The six formats. -/
inductive Format where
  | n
  | u
  | p
  | up
  | r
  | w
deriving DecidableEq, Repr

/-- The format of each command (30_encoding R64, third column). -/
def formatOf : Opcode → Format
  | .nop => .n
  | .reset => .n
  | .rdreg => .r
  | .wrreg => .w
  | .decInit => .n
  | .decPush => .p
  | .decFinish => .n
  | .encInit => .u
  | .encPush => .up
  | .encFinish => .u
  | .mixInit => .n
  | .mixPush => .up
  | .mixStep => .n
  | .mixFinish => .n

/-- `SEL` must be 0: formats `N` and `P` (60_exceptions R211). -/
def selMustBeZero (f : Format) : Prop := f = .n ∨ f = .p

/-- `ARG` must be 0: formats `N`, `U` and `R` (60_exceptions R211). -/
def argMustBeZero (f : Format) : Prop := f = .n ∨ f = .u ∨ f = .r

/-- `SEL` must be 0 or 1: formats `U` and `UP` (60_exceptions R211). -/
def selIsIndex (f : Format) : Prop := f = .u ∨ f = .up

/-- The reserved part of a word is not 0: `RSVD`, or a field its format requires to be 0 (30_encoding R62). -/
def reservedBitsSet (f : Format) (w : Word64) : Prop :=
  rsvdField w ≠ 0 ∨ (selMustBeZero f ∧ selField w ≠ 0) ∨ (argMustBeZero f ∧ argField w ≠ 0)

/-! ## Registers and commands by kind -/

/-- The 57 register numbers of 10_state R31 that are not reserved. -/
def registerNumbers : List Nat :=
  [0x00, 0x01, 0x02, 0x10, 0x11, 0x12, 0x13,
    0x20, 0x21, 0x22, 0x23, 0x24, 0x25, 0x28, 0x29, 0x2A, 0x2B, 0x2C, 0x2D, 0x30, 0x31, 0x32, 0x33, 0x34, 0x35,
    0x40, 0x41, 0x42, 0x43, 0x44, 0x45, 0x46, 0x48, 0x49, 0x4A, 0x4B, 0x4C, 0x4D,
    0x60, 0x61, 0x62, 0x63, 0x64, 0x65, 0x66, 0x68, 0x69, 0x6A, 0x6B, 0x6C, 0x6D,
    0x80, 0x81, 0x82, 0x83, 0x84, 0x85]

/-- An `RDREG` of that register number answers that value and changes nothing else (48_commands R182). -/
def ReadsAs (s : State) (sel : Nat) (v : Word64) : Prop :=
  exec (.rdreg (BitVec.ofNat 8 sel)) s = .next { s with reads := s.reads ++ [v] }

/-- The first register number of a buffer's registers (10_state R31). -/
def bufBase : BufName → Nat
  | .raw => 0x20
  | .lo => 0x28
  | .hi => 0x30
  | .acc .e0 => 0x48
  | .acc .e1 => 0x68

/-- The ten `RW*` and `WC` register numbers of 10_state R31. -/
def writableNumbers : List Nat := [0x01, 0x12, 0x41, 0x42, 0x43, 0x44, 0x61, 0x62, 0x63, 0x64]

/-- The `INIT` command of a unit (48_commands R184, R188, R191). -/
def initOf : UnitName → Instr
  | .dec => .decInit
  | .enc u => .encInit u
  | .mix => .mixInit

/-- The `FINISH` command of a unit (48_commands R187, R190, R194). -/
def finishOf : UnitName → Instr
  | .dec => .decFinish
  | .enc u => .encFinish u
  | .mix => .mixFinish

/-- The unit faults a command can raise (60_exceptions R213, column "raised by"; 48_commands). -/
def mayRaise : Instr → List UnitFault
  | .decPush _ => [.bufOvf, .cntOvf]
  | .decFinish => [.noFormat, .cntOvf]
  | .encPush _ _ => [.bufOvf, .cntOvf, .esMalformed]
  | .encFinish _ => [.cntOvf]
  | .mixPush _ _ => [.bufOvf]
  | .mixStep => [.cntOvf]
  | .mixFinish => [.cntOvf]
  | .nop => []
  | .reset => []
  | .rdreg _ => []
  | .wrreg _ _ => []
  | .decInit => []
  | .encInit _ => []
  | .mixInit => []

/-- The configuration registers of a unit kept their values (10_state R15, R24). -/
def SameConfig : UnitName → State → State → Prop
  | .dec, s, t => t.dec.nch = s.dec.nch
  | .enc u, s, t =>
    (t.enc u).cfgMode = (s.enc u).cfgMode ∧ (t.enc u).cfgNch = (s.enc u).cfgNch ∧
      (t.enc u).cfgRate = (s.enc u).cfgRate ∧ (t.enc u).cfgDelayMs = (s.enc u).cfgDelayMs
  | .mix, _, _ => True

/-- Nothing of a unit and its ports changed but its configuration registers (10_state R15, R24). -/
def SameButConfig : UnitName → State → State → Prop
  | .dec, s, t => SameDec { s with dec := { s.dec with nch := t.dec.nch } } t
  | .enc u, s, t =>
    t.ports.eout u = s.ports.eout u ∧
      t.enc u = { s.enc u with
        cfgMode := (t.enc u).cfgMode
        cfgNch := (t.enc u).cfgNch
        cfgRate := (t.enc u).cfgRate
        cfgDelayMs := (t.enc u).cfgDelayMs }
  | .mix, s, t => SameMix s t

/-! ## Streams -/

/-- What `APPEND` leaves when neither of its tests fails (42_buffer R100). -/
def Buffer.fed (b : Buffer) (x : Bytes) : Buffer :=
  { b with
    window := b.window ++ x
    inSamples := BitVec.ofNat 64 (b.inSamples.toNat + x.length / b.bps.toNat) }

/-- The bytes of `n` silence frames for channel count `c` (46_silence R165). -/
def templates (cfg : Config) (c : BitVec 3) (n : Nat) : Bytes := (List.replicate n (template cfg c)).flatten

/-- A buffer whose `OUT_SAMPLES` has been advanced by `n` frames (10_state R19). -/
def Buffer.emitted (b : Buffer) (n : Nat) : Buffer :=
  { b with outSamples := BitVec.ofNat 64 (b.outSamples.toNat + 1024 * n) }

/-- `max(0, ceil((goal - 512 - out) / 1024))`: the number of silence frames of a drift loop (44_extractor R139). -/
def silenceCount (out : Nat) (goal : Int) : Nat := ((goal - 512 - out + 1023) / 1024).toNat

/-- A byte sequence occurs in another at an index (42_buffer R108). -/
def OccursAt (p h : Bytes) (i : Nat) : Prop := i + p.length ≤ h.length ∧ (h.drop i).take p.length = p

/-- One elementary-stream frame: at least a header, and as long as its own header says (45_wrapper R151). -/
def isFrame (f : Bytes) : Prop := 7 ≤ f.length ∧ (frameLengthOf (headerOfBytes (f.take 7))).toNat = f.length

/-- Instructions run one after another; `none` if one of them does not answer a next state. -/
def runList : List Instr → State → Option State
  | [], s => some s
  | i :: is, s =>
    match exec i s with
    | .next t => runList is t
    | .fault _ => none
    | .refused _ => none

/-- A command that feeds or steps the mixer (47_mixer R174). -/
def isMixFeed : Instr → Bool
  | .mixPush _ _ => true
  | .mixStep => true
  | .nop => false
  | .reset => false
  | .rdreg _ => false
  | .wrreg _ _ => false
  | .decInit => false
  | .decPush _ => false
  | .decFinish => false
  | .encInit _ => false
  | .encPush _ _ => false
  | .encFinish _ => false
  | .mixInit => false
  | .mixFinish => false

/-- All the bytes a list of commands pushes to one mixer queue (47_mixer R174). -/
def pushedTo (q : QueueName) : List Instr → Bytes
  | [] => []
  | .mixPush q' p :: is => if q' = q then p ++ pushedTo q is else pushedTo q is
  | .nop :: is => pushedTo q is
  | .reset :: is => pushedTo q is
  | .rdreg _ :: is => pushedTo q is
  | .wrreg _ _ :: is => pushedTo q is
  | .decInit :: is => pushedTo q is
  | .decPush _ :: is => pushedTo q is
  | .decFinish :: is => pushedTo q is
  | .encInit _ :: is => pushedTo q is
  | .encPush _ _ :: is => pushedTo q is
  | .encFinish _ :: is => pushedTo q is
  | .mixInit :: is => pushedTo q is
  | .mixStep :: is => pushedTo q is
  | .mixFinish :: is => pushedTo q is

end Sys2Proof.Machine
end

