-- ==== Sys2Proof/Certificates/Slice0/Obligations.lean ====
section
/-! DEFINITION. The statements for the provers. Each docstring names the rules of spec/ it formalises. `ports`, `reads` and
`input` are the model's own fields (logs 1 and 4): they stand for the bytes emitted on the ports, the values `RDREG`
returned and the commands the host has sent. A condition on the build (`BUF_CAP`, a marker's place) stands inside a
statement about `exec` as a case, never as a hypothesis, because nothing can be proved of `Config.build` (log 5); the
statements about internal operations hold for every configuration `cfg`. -/

open Sys2Proof Sys2Proof.Machine

/-! ## The command word -/

/-- 30_encoding R60 to R64: every instruction whose payload fits `ARG` is what its own word and payload decode to. -/
def Obligations.DecodeInvertsEncode : Prop :=
  ∀ i : Instr, i.wellFormed = true → decode (encode i) = .instr i

/-- 30_encoding R60 to R66: a (word, payload) pair that decodes is the encoding of what it decodes to, so no command has
two encodings and no bit of a word is ignored. -/
def Obligations.EncodeInvertsDecode : Prop :=
  ∀ (c : Command) (i : Instr), decode c = .instr i → i.wellFormed = true ∧ encode i = c

/-- 30_encoding R64: a word with a payload of the length it asks for is command `o` exactly when it matches `o`'s row. -/
def Obligations.DecodeFollowsOpcodeTable : Prop :=
  ∀ (c : Command) (o : Opcode), c.payload.length = payloadLength c.word →
    ((∃ i, decode c = .instr i ∧ i.opcode = o) ↔ ∃ r ∈ opcodeTable, r.op = o ∧ c.word &&& r.mask = r.pattern)

/-- 30_encoding R62, R65, R66: `OP` first, then `RSVD` and the fields that must be 0, then the range of `SEL`; the phase
and the argument are no business of the decoder. -/
def Obligations.DecodeChecksInOrder : Prop :=
  ∀ c : Command, c.payload.length = payloadLength c.word →
    (opcodeOf (opField c.word) = none → decode c = .refused .eOpcode) ∧
    ∀ o, opcodeOf (opField c.word) = some o →
      (reservedBitsSet (formatOf o) c.word → decode c = .refused .eRsvd) ∧
      (¬ reservedBitsSet (formatOf o) c.word → selIsIndex (formatOf o) → 1 < (selField c.word).toNat →
        decode c = .refused .eSel) ∧
      (¬ reservedBitsSet (formatOf o) c.word → (selIsIndex (formatOf o) → (selField c.word).toNat ≤ 1) →
        ∃ i, decode c = .instr i ∧ i.opcode = o)

/-- 48_commands R182, R184, R186, R188, 30_encoding R64: words the spec writes out, or that its tables give bit by bit.
-/
def Obligations.WordsOfTheSpecDecode : Prop :=
  decode ⟨0x0000000000000000#64, []⟩ = .instr .nop ∧
  decode ⟨0x0312000000000002#64, []⟩ = .instr (.wrreg 0x12#8 2#32) ∧
  decode ⟨0x0211000000000000#64, []⟩ = .instr (.rdreg 0x11#8) ∧
  decode ⟨0x2001000000000000#64, []⟩ = .instr (.encInit .e1) ∧
  decode ⟨0x1100000000000002#64, [0xAA#8, 0xBB#8]⟩ = .instr (.decPush [0xAA#8, 0xBB#8]) ∧
  decode ⟨0x3101000000000001#64, [0x7F#8]⟩ = .instr (.mixPush .qb [0x7F#8]) ∧
  decode ⟨0x0400000000000000#64, []⟩ = .refused .eOpcode

/-! ## Steps -/

/-- 00_scope R5, 30_encoding R65: when the host's next entry decodes, the step is `exec` of the instruction at the state
with that entry taken. (The queue is the model's own, log 1.) -/
def Obligations.StepRunsTheDecodedCommand : Prop :=
  ∀ (s : State) (c : Command) (rest : List HostInput) (i : Instr), s.input = .command c :: rest →
    decode c = .instr i → step s = exec i { s with input := rest }

/-- 60_exceptions R211, 30_encoding R66: a word the decoder refuses changes `CMDERR` and nothing else, its payload goes
with it. Two points are the model's own reading (DEDUCED): a `WRREG` to `CMDERR` refused for its reserved bits sets
`CMDERR` like any other refused word, although the register is the one it names (log 9), and an `RDREG` refused by the
decoder reads 0 (log 18). -/
def Obligations.StepRefusesRejectedWord : Prop :=
  ∀ (s : State) (c : Command) (rest : List HostInput) (e : ErrCode), s.input = .command c :: rest →
    decode c = .refused e →
    step s = .next { s with
      input := rest
      cmdErr := errCode e
      reads := if opField c.word = 0x02#8 then s.reads ++ [0#64] else s.reads }

/-- 70_reset R246, 30_encoding R63: the machine never stops on a command; the one stop of the model is a payload of
another length than its word asks for (log 3), and with nothing sent nothing changes (10_state R13; log 2). -/
def Obligations.StepStopsOnNoCommand : Prop :=
  (∀ s : State, (∃ f, step s = .fault f) ↔
    ∃ c rest, s.input = .command c :: rest ∧ c.payload.length ≠ payloadLength c.word) ∧
  (∀ s : State, ∀ r, step s ≠ .refused r) ∧
  (∀ s : State, s.input = [] → step s = .next s)

/-- 70_reset R230, R231: a hardware reset between commands leaves what a `RESET` command in its place leaves. -/
def Obligations.HardwareResetEqualsResetCommand : Prop :=
  ∀ (s : State) (rest : List HostInput), s.input = .hardReset :: rest →
    step s = step { s with input := .command ⟨0x0100000000000000#64, []⟩ :: rest } ∧
    step s = .next { State.reset with ports := s.ports, reads := s.reads, input := rest }

/-- 10_state R33: every register and memory at the value the rule gives. -/
def Obligations.ResetValues : Prop :=
  State.reset.cmdErr = 0#8 ∧ (∀ u, State.reset.phase u = .idle) ∧ (∀ u, State.reset.unitErr u = 0#8) ∧
  State.reset.dec.mode = .unknown ∧ State.reset.dec.nch = 0#8 ∧
  (∀ u, (State.reset.enc u).cfgMode = 0#2 ∧ (State.reset.enc u).cfgNch = 0#8 ∧ (State.reset.enc u).cfgRate = 0#32 ∧
    (State.reset.enc u).cfgDelayMs = 0#32 ∧ (State.reset.enc u).delayDone = false) ∧
  (∀ b, (State.reset.buffer b).window = [] ∧ (State.reset.buffer b).bps = 1#16 ∧
    (State.reset.buffer b).inSamples = 0#64 ∧ (State.reset.buffer b).outSamples = 0#64 ∧
    (State.reset.buffer b).hdr = 0#56) ∧
  State.reset.mix.qa = [] ∧ State.reset.mix.qb = [] ∧ State.reset.mix.total = 0#64

/-- The invariant of the machine holds at reset. -/
def Obligations.InvariantAtReset : Prop := State.Inv State.reset

/-- The invariant is kept by every step from every state that has it: legal codes, windows and queues within `BUF_CAP`,
`BPS` at least 1, `OUT_SAMPLES` a whole number of frames, `ERR` 0 outside `Halted`, inactive buffers empty, no complete
frame waiting in an encoder (10_state R11, R13, R16, R17, R19, R23, R25, R27; 43_detector R124; 45_wrapper R151;
60_exceptions R213). -/
def Obligations.StepKeepsInvariant : Prop :=
  ∀ s t : State, s.Inv → step s = .next t → t.Inv

/-! ## General commands -/

/-- 48_commands R180. -/
def Obligations.NopDoesNothing : Prop :=
  (∀ s : State, exec .nop s = .next s) ∧
  (∀ w : Word64, opField w = 0x00#8 → (selField w ≠ 0 ∨ rsvdField w ≠ 0 ∨ argField w ≠ 0) →
    decode ⟨w, []⟩ = .refused .eRsvd)

/-- 48_commands R183: `RESET` completes in every state, with every unit at its reset values, nothing drained, nothing
emitted. -/
def Obligations.ResetCommandResets : Prop :=
  ∀ s : State, exec .reset s = .next
    { cmdErr := 0#8, dec := Dec.reset, enc0 := Enc.reset, enc1 := Enc.reset, mix := Mix.reset,
      ports := s.ports, reads := s.reads, input := s.input }

/-- 10_state R31, R11, R21, R30, 48_commands R182: what `RDREG` answers for each register of the map, and that it changes
nothing. A 64-bit view is stated where its value fits 64 bits (elsewhere it is a free value, log 7). -/
def Obligations.RdregReadsTheMap : Prop :=
  ∀ s : State,
    ReadsAs s 0x00 0x46415758#64 ∧ ReadsAs s 0x01 (s.cmdErr.setWidth 64) ∧
    ReadsAs s 0x02 (BitVec.ofNat 64 ((phaseCode s.dec.phase).toNat + 4 * (phaseCode s.enc0.phase).toNat +
      16 * (phaseCode s.enc1.phase).toNat + 64 * (phaseCode s.mix.phase).toNat)) ∧
    ReadsAs s 0x10 ((phaseCode s.dec.phase).setWidth 64) ∧ ReadsAs s 0x11 ((modeCode s.dec.mode).setWidth 64) ∧
    ReadsAs s 0x12 (s.dec.nch.setWidth 64) ∧ ReadsAs s 0x13 (s.dec.err.setWidth 64) ∧
    (∀ b : BufName,
      ((s.buffer b).window.length < 2 ^ 64 →
        ReadsAs s (bufBase b) (BitVec.ofNat 64 (s.buffer b).window.length)) ∧
      ReadsAs s (bufBase b + 1) ((s.buffer b).bps.setWidth 64) ∧
      ReadsAs s (bufBase b + 2) (s.buffer b).inSamples ∧ ReadsAs s (bufBase b + 3) (s.buffer b).outSamples ∧
      ReadsAs s (bufBase b + 4) ((s.buffer b).hdr.setWidth 64) ∧
      (∀ v : Int, v = (s.buffer b).inSamples.toNat - ((s.buffer b).window.length / (s.buffer b).bps.toNat : Nat) →
        -(2 ^ 63) ≤ v → v < 2 ^ 63 → ReadsAs s (bufBase b + 5) (BitVec.ofInt 64 v))) ∧
    (∀ u : EncIndex, ∀ base : Nat, base = (match u with | .e0 => 0x40 | .e1 => 0x60) →
      ReadsAs s base ((phaseCode (s.enc u).phase).setWidth 64) ∧
      ReadsAs s (base + 1) ((s.enc u).cfgMode.setWidth 64) ∧ ReadsAs s (base + 2) ((s.enc u).cfgNch.setWidth 64) ∧
      ReadsAs s (base + 3) ((s.enc u).cfgRate.setWidth 64) ∧ ReadsAs s (base + 4) ((s.enc u).cfgDelayMs.setWidth 64) ∧
      ReadsAs s (base + 5) ((s.enc u).err.setWidth 64) ∧
      ReadsAs s (base + 6) (if (s.enc u).delayDone then 1#64 else 0#64)) ∧
    ReadsAs s 0x80 ((phaseCode s.mix.phase).setWidth 64) ∧ ReadsAs s 0x81 (s.mix.err.setWidth 64) ∧
    (s.mix.qa.length < 2 ^ 64 → ReadsAs s 0x82 (BitVec.ofNat 64 s.mix.qa.length)) ∧
    (s.mix.qb.length < 2 ^ 64 → ReadsAs s 0x83 (BitVec.ofNat 64 s.mix.qb.length)) ∧
    ReadsAs s 0x84 s.mix.total ∧ ReadsAs s 0x85 (BitVec.ofNat 64 (min s.mix.total.toNat (2 ^ 32 - 1)))

/-- 10_state R31, R32, 48_commands R182, R186: `RDREG` of a register of the map changes nothing, `CMDERR` included; a
reserved number refuses both accesses with `E_SEL`, and the read value is then 0. -/
def Obligations.RegisterNumbersAreChecked : Prop :=
  ∀ (sel : BitVec 8) (s : State),
    (sel.toNat ∈ registerNumbers → ∃ v, exec (.rdreg sel) s = .next { s with reads := s.reads ++ [v] }) ∧
    (sel.toNat ∉ registerNumbers →
      exec (.rdreg sel) s = .next { s with cmdErr := 3#8, reads := s.reads ++ [0#64] } ∧
      ∀ v, exec (.wrreg sel v) s = .next { s with cmdErr := 3#8 })

/-- 48_commands R186, 10_state R11, R15, R24: each writable register takes a value that fits it, while its unit is not
`Active`; any write to `CMDERR` clears it, in every phase (that a value above 255 clears it too is the model's reading,
DEDUCED, log 8). Nothing else changes. -/
def Obligations.WrregStores : Prop :=
  ∀ (s : State) (v : BitVec 32),
    exec (.wrreg 0x01#8 v) s = .next { s with cmdErr := 0#8 } ∧
    (s.dec.phase ≠ .active → v.toNat < 2 ^ 8 →
      exec (.wrreg 0x12#8 v) s = .next { s with dec := { s.dec with nch := v.setWidth 8 } }) ∧
    (∀ u : EncIndex, (s.enc u).phase ≠ .active →
      (v.toNat < 2 ^ 2 →
        exec (.wrreg (encBank u 1#8) v) s = .next (s.setEnc u { s.enc u with cfgMode := v.setWidth 2 })) ∧
      (v.toNat < 2 ^ 8 →
        exec (.wrreg (encBank u 2#8) v) s = .next (s.setEnc u { s.enc u with cfgNch := v.setWidth 8 })) ∧
      exec (.wrreg (encBank u 3#8) v) s = .next (s.setEnc u { s.enc u with cfgRate := v }) ∧
      exec (.wrreg (encBank u 4#8) v) s = .next (s.setEnc u { s.enc u with cfgDelayMs := v }))

/-- 48_commands R186, 60_exceptions R214, 90_conflicts C8: the phase before the value for a `RW*` register, and a
read-only register refuses in every phase; a refused write changes `CMDERR` alone. -/
def Obligations.WrregRefusesInOrder : Prop :=
  ∀ (s : State) (v : BitVec 32),
    (s.dec.phase = .active → exec (.wrreg 0x12#8 v) s = .next { s with cmdErr := 4#8 }) ∧
    (s.dec.phase ≠ .active → 2 ^ 8 ≤ v.toNat → exec (.wrreg 0x12#8 v) s = .next { s with cmdErr := 5#8 }) ∧
    (∀ u : EncIndex, (s.enc u).phase = .active → ∀ k ∈ [1#8, 2#8, 3#8, 4#8],
      exec (.wrreg (encBank u k) v) s = .next { s with cmdErr := 4#8 }) ∧
    (∀ u : EncIndex, (s.enc u).phase ≠ .active →
      (2 ^ 2 ≤ v.toNat → exec (.wrreg (encBank u 1#8) v) s = .next { s with cmdErr := 5#8 }) ∧
      (2 ^ 8 ≤ v.toNat → exec (.wrreg (encBank u 2#8) v) s = .next { s with cmdErr := 5#8 })) ∧
    (∀ sel : BitVec 8, sel.toNat ∈ registerNumbers → sel.toNat ∉ writableNumbers →
      exec (.wrreg sel v) s = .next { s with cmdErr := 5#8 })

/-! ## Phases, refusals, unit faults -/

/-- 48_commands R181: a `PUSH`, `STEP` or `FINISH` of a unit that is not `Active` refuses with `E_PHASE` and changes
nothing else. -/
def Obligations.OnlyActiveUnitsRun : Prop :=
  ∀ (i : Instr) (u : UnitName) (s : State), unitOf i = some u → i ≠ initOf u → s.phase u ≠ .active →
    exec i s = .next { s with cmdErr := 4#8 }

/-- 10_state R13: `PHASE` is written by `INIT` (to `Active`), `FINISH` (to `Finished`), a unit fault (to `Halted`) and
`RESET` (to `Idle`), and by nothing else. -/
def Obligations.PhaseIsWrittenByFewCommands : Prop :=
  ∀ (i : Instr) (s t : State) (u : UnitName), exec i s = .next t → t.phase u ≠ s.phase u →
    (i = .reset ∧ t.phase u = .idle) ∨ (i = initOf u ∧ t.phase u = .active) ∨
    (i = finishOf u ∧ s.phase u = .active ∧ t.phase u = .finished) ∨
    (unitOf i = some u ∧ s.phase u = .active ∧ t.phase u = .halted)

/-- 60_exceptions R217, R218 (which the spec marks as derived), 48_commands R181: short of its own `INIT` and of
`RESET`, no command changes anything of a `Halted` unit but its configuration registers. -/
def Obligations.HaltedUnitIsFrozen : Prop :=
  ∀ (i : Instr) (s t : State) (u : UnitName), s.phase u = .halted → exec i s = .next t → i ≠ .reset → i ≠ initOf u →
    SameButConfig u s t

/-- 60_exceptions R212, R213: a unit that halts was `Active`, the command was its own, `ERR` holds the code of a fault
that command can raise, and the other units, `CMDERR` and the configuration registers are as they were. -/
def Obligations.FaultEntryHaltsOneUnit : Prop :=
  ∀ (i : Instr) (s t : State) (u : UnitName), exec i s = .next t → s.phase u ≠ .halted → t.phase u = .halted →
    unitOf i = some u ∧ s.phase u = .active ∧ OnlyUnit u s t ∧ SameConfig u s t ∧
      ∃ f ∈ mayRaise i, t.unitErr u = faultCode f

/-- 60_exceptions R211: `CMDERR` changes only by a clear or by a refusal, and a refusal changes nothing else (the read
value 0 of a refused `RDREG` apart); a command that is carried out leaves it. -/
def Obligations.RefusalChangesCmdErrAlone : Prop :=
  ∀ (i : Instr) (s t : State), exec i s = .next t → t.cmdErr ≠ s.cmdErr →
    i = .reset ∨ (∃ v, i = .wrreg 0x01#8 v ∧ t = { s with cmdErr := 0#8 }) ∨
    ∃ e ∈ [ErrCode.eSel, ErrCode.ePhase, ErrCode.eArg],
      t = { s with cmdErr := errCode e } ∨
        ∃ sel, i = .rdreg sel ∧ t = { s with cmdErr := errCode e, reads := s.reads ++ [0#64] }

/-- 42_buffer R101, 47_mixer R170, 48_commands R196: a push whose first append would pass `BUF_CAP` raises `F_BUF_OVF`
with nothing changed and nothing emitted, for every capacity a build can have. -/
def Obligations.PushPastCapacityChangesNothing : Prop :=
  ∀ (cfg : Config) (p : Bytes),
    (∀ d : DecIO, d.dec.mode = .unknown ∨ d.dec.mode = .full →
      overCap cfg (d.dec.raw.window.length + p.length) = true → decPushBody cfg p d = .raised .bufOvf d) ∧
    (∀ d : DecIO, d.dec.mode = .half ∨ d.dec.mode = .mix →
      overCap cfg (d.dec.lo.window.length + p.length / 2) = true → decPushBody cfg p d = .raised .bufOvf d) ∧
    (∀ io : EncIO, overCap cfg (io.enc.acc.window.length + p.length) = true → encFeed cfg io p = .raised .bufOvf io) ∧
    (∀ m : MixIO, overCap cfg (m.mix.qa.length + p.length) = true → qpush cfg .qa p m = .raised .bufOvf m) ∧
    (∀ m : MixIO, overCap cfg (m.mix.qb.length + p.length) = true → qpush cfg .qb p m = .raised .bufOvf m)

/-! ## Units, outputs, counters -/

/-- 10_state R10, 20_memory R52 (which the spec marks as derived): a command of one unit changes nothing of another
unit and nothing on its ports; either it changes only its own unit, or it is refused and changes `CMDERR` alone. -/
def Obligations.CommandStaysInItsUnit : Prop :=
  ∀ (i : Instr) (u : UnitName) (s t : State), unitOf i = some u → exec i s = .next t →
    OnlyUnit u s t ∨ t = { s with cmdErr := 4#8 } ∨ t = { s with cmdErr := 5#8 }

/-- 10_state R10, 20_memory R52 (which the spec marks as derived): what a command of a unit does to that unit depends on
that unit alone. -/
def Obligations.UnitSeesOnlyItself : Prop :=
  ∀ (i : Instr) (u : UnitName) (s s' t t' : State), unitOf i = some u → SameUnit u s s' → exec i s = .next t →
    exec i s' = .next t' → SameUnit u t t'

/-- 10_state R10, 20_memory R52 (which the spec marks as derived): commands to two different units may be sent in either
order. -/
def Obligations.CommandsToTwoUnitsCommute : Prop :=
  ∀ (i j : Instr) (u v : UnitName) (s s1 s2 t1 t2 : State), unitOf i = some u → unitOf j = some v → u ≠ v →
    exec i s = .next s1 → exec j s1 = .next s2 → exec j s = .next t1 → exec i t1 = .next t2 →
    ∀ w, SameUnit w s2 t2

/-- 20_memory R42, 70_reset R231, R246: bytes on a port and values returned stay; a step only adds after them, a reset
included. -/
def Obligations.OutputsOnlyGrow : Prop :=
  ∀ s t : State, step s = .next t →
    s.ports.doutA <+: t.ports.doutA ∧ s.ports.doutB <+: t.ports.doutB ∧ s.ports.eout0 <+: t.ports.eout0 ∧
      s.ports.eout1 <+: t.ports.eout1 ∧ s.ports.mout <+: t.ports.mout ∧ s.reads <+: t.reads

/-- 10_state R18, R19, R30, and R38 (a), (b), which the spec marks as derived: short of `INIT`, `RESET` and the
detector's discards no counter decreases, and `OUT_SAMPLES` rises by whole frames of 1024. -/
def Obligations.CountersOnlyRise : Prop :=
  ∀ (i : Instr) (s t : State), exec i s = .next t → i ≠ .reset →
    (∀ u, i ≠ .encInit u → (s.enc u).acc.inSamples.toNat ≤ (t.enc u).acc.inSamples.toNat ∧
      ∃ k, (t.enc u).acc.outSamples.toNat = (s.enc u).acc.outSamples.toNat + 1024 * k) ∧
    (i ≠ .decInit → s.dec.mode ≠ .unknown →
      ∀ b ∈ [BufName.raw, BufName.lo, BufName.hi],
        (s.buffer b).inSamples.toNat ≤ (t.buffer b).inSamples.toNat ∧
          ∃ k, (t.buffer b).outSamples.toNat = (s.buffer b).outSamples.toNat + 1024 * k) ∧
    (i ≠ .mixInit → s.mix.total.toNat ≤ t.mix.total.toNat)

/-- 10_state R14, 43_detector R126: the mode leaves `Unknown` only by a `DEC_PUSH`, and returns to it only by
`DEC_INIT` or `RESET`. -/
def Obligations.ModeIsDecidedOnce : Prop :=
  ∀ (i : Instr) (s t : State), exec i s = .next t → t.dec.mode ≠ s.dec.mode →
    (s.dec.mode = .unknown ∧ ∃ p, i = .decPush p) ∨ (t.dec.mode = .unknown ∧ (i = .decInit ∨ i = .reset))

/-! ## Decoding -/

/-- 48_commands R184, 42_buffer R109. -/
def Obligations.DecInitOpensAStream : Prop :=
  ∀ s : State,
    (s.dec.nch = 0#8 → exec .decInit s = .next { s with cmdErr := 5#8 }) ∧
    (s.dec.nch ≠ 0#8 → exec .decInit s = .next { s with dec :=
      { phase := .active, mode := .unknown, nch := s.dec.nch, err := 0#8
        raw := ⟨[], BitVec.ofNat 16 (2 * s.dec.nch.toNat), 0#64, 0#64, 0#56⟩
        lo := ⟨[], BitVec.ofNat 16 s.dec.nch.toNat, 0#64, 0#64, 0#56⟩
        hi := ⟨[], BitVec.ofNat 16 s.dec.nch.toNat, 0#64, 0#64, 0#56⟩ } })

/-- 43_detector R121 to R125, 48_commands R185: a push in mode `Unknown` appends to the raw buffer and decides in strict
priority order on the whole raw window; where it decides, it goes on to extract as a push of nothing in the decided state
would; where it does not, it leaves the sub-tracks empty and emits nothing. Past `BUF_CAP` the unit halts. -/
def Obligations.DecPushDetectsTheFormat : Prop :=
  ∀ (s : State) (p w : Bytes) (d : Dec), s.dec.phase = .active → s.dec.mode = .unknown →
    w = s.dec.raw.window ++ p → d = { s.dec with raw := s.dec.raw.fed p } →
    s.dec.raw.inSamples.toNat + p.length / s.dec.raw.bps.toNat < 2 ^ 64 →
    w.length / 2 / s.dec.lo.bps.toNat < 2 ^ 64 → w.length / 2 / s.dec.hi.bps.toNat < 2 ^ 64 →
    exec (.decPush p) s =
      if overCap Config.build w.length then .next { s with dec := { s.dec with phase := .halted, err := 0x11#8 } }
      else if (find w Config.build.startBytes 0).isSome then exec (.decPush []) { s with dec := { d with mode := .full } }
      else if (find w Config.build.probeBytes 0).isSome then
        exec (.decPush []) { s with dec := { d with
          mode := .half
          lo := ⟨laneBytes .low w, d.lo.bps, BitVec.ofNat 64 (w.length / 2 / d.lo.bps.toNat), 0#64, 0#56⟩
          raw := ⟨[], d.raw.bps, 0#64, 0#64, 0#56⟩ } }
      else if (find (laneBytes .low w) Config.build.startBytes 0).isSome ∧
          (find (laneBytes .high w) Config.build.startBytes 0).isSome then
        exec (.decPush []) { s with dec := { d with
          mode := .mix
          lo := ⟨laneBytes .low w, d.lo.bps, BitVec.ofNat 64 (w.length / 2 / d.lo.bps.toNat), 0#64, 0#56⟩
          hi := ⟨laneBytes .high w, d.hi.bps, BitVec.ofNat 64 (w.length / 2 / d.hi.bps.toNat), 0#64, 0#56⟩
          raw := ⟨[], d.raw.bps, 0#64, 0#64, 0#56⟩ } }
      else .next { s with dec := { d with
        lo := ⟨[], d.lo.bps, 0#64, 0#64, 0#56⟩
        hi := ⟨[], d.hi.bps, 0#64, 0#64, 0#56⟩ } }

/-- 48_commands R185, 44_extractor R141, R148: with the mode decided, a push appends the payload or its lanes to the
active buffers and runs the decode loop on each active track with its port; nothing else changes. Past `BUF_CAP` the
unit halts, with what was appended before. -/
def Obligations.DecPushExtracts : Prop :=
  ∀ (s : State) (p : Bytes), s.dec.phase = .active →
    (s.dec.mode = .full → s.dec.raw.inSamples.toNat + p.length / s.dec.raw.bps.toNat + 1536 < 2 ^ 64 →
      if overCap Config.build (s.dec.raw.window.length + p.length) then
        exec (.decPush p) s = .next { s with dec := { s.dec with phase := .halted, err := 0x11#8 } }
      else ∃ a : Track, extractTrack Config.build ⟨s.dec.raw.fed p, s.ports.doutA⟩ = .go a ∧
        exec (.decPush p) s = .next { s with
          dec := { s.dec with raw := a.buf }
          ports := { s.ports with doutA := a.port } }) ∧
    (s.dec.mode = .half → s.dec.lo.inSamples.toNat + p.length / 2 / s.dec.lo.bps.toNat + 1536 < 2 ^ 64 →
      if overCap Config.build (s.dec.lo.window.length + p.length / 2) then
        exec (.decPush p) s = .next { s with dec := { s.dec with phase := .halted, err := 0x11#8 } }
      else ∃ a : Track, extractTrack Config.build ⟨s.dec.lo.fed (laneBytes .low p), s.ports.doutA⟩ = .go a ∧
        exec (.decPush p) s = .next { s with
          dec := { s.dec with lo := a.buf }
          ports := { s.ports with doutA := a.port } }) ∧
    (s.dec.mode = .mix → s.dec.lo.inSamples.toNat + p.length / 2 / s.dec.lo.bps.toNat + 1536 < 2 ^ 64 →
      s.dec.hi.inSamples.toNat + p.length / 2 / s.dec.hi.bps.toNat + 1536 < 2 ^ 64 →
      if overCap Config.build (s.dec.lo.window.length + p.length / 2) then
        exec (.decPush p) s = .next { s with dec := { s.dec with phase := .halted, err := 0x11#8 } }
      else if overCap Config.build (s.dec.hi.window.length + p.length / 2) then
        exec (.decPush p) s = .next { s with dec :=
          { s.dec with lo := s.dec.lo.fed (laneBytes .low p), phase := .halted, err := 0x11#8 } }
      else ∃ a b : Track, extractTrack Config.build ⟨s.dec.hi.fed (laneBytes .high p), s.ports.doutA⟩ = .go a ∧
        extractTrack Config.build ⟨s.dec.lo.fed (laneBytes .low p), s.ports.doutB⟩ = .go b ∧
        exec (.decPush p) s = .next { s with
          dec := { s.dec with lo := b.buf, hi := a.buf }
          ports := { s.ports with doutA := a.port, doutB := b.port } })

/-- 44_extractor R141: the decode loop makes one attempt and goes on with the loop as long as the attempt answers
`Produced`; so the model's bound on the rounds (log 10) never cuts it short. -/
def Obligations.DecodeLoopRunsToNoFrame : Prop :=
  ∀ (cfg : Config) (t : Track),
    extractTrack cfg t =
      match extractOne cfg t with
      | .produced t1 => extractTrack cfg t1
      | .noFrame t1 => .go t1
      | .raised f t1 => .raised f t1

/-- 44_extractor R131 to R133, and R144, which the spec marks as derived: an attempt that answered `NoFrame` answers it
again, and changes nothing the second time. -/
def Obligations.NoFrameIsAFixedPoint : Prop :=
  ∀ (cfg : Config) (t t' : Track), extractOne cfg t = .noFrame t' → extractOne cfg t' = .noFrame t'

/-- 44_extractor R134, 00_scope R4 (b): with a start-marker without a border, the resynchronisation scan ends at the
latest start-marker that lies whole before `pf`, with that marker's header recorded. -/
def Obligations.ResyncEndsAtTheLatestMarker : Prop :=
  ∀ (cfg : Config) (w : Bytes) (b : Buffer) (ps pf : Nat), noBorder cfg.startBytes → pf + 12 ≤ w.length →
    OccursAt cfg.startBytes (w.take pf) ps → b.hdr = headerOfBytes (headerAt w ps) →
    ∃ q, resync cfg w pf ⟨ps, b⟩ = ⟨q, { b with hdr := headerOfBytes (slice w (q + 8) (q + 15)) }⟩ ∧
      ps ≤ q ∧ OccursAt cfg.startBytes (w.take pf) q ∧ ∀ q', OccursAt cfg.startBytes (w.take pf) q' → q' ≤ q

/-- 44_extractor R131 to R140, R143, 30_encoding R70: `m` is where the resynchronisation scan ends, with the header
recorded there (the first start-marker itself when no later one lies before the end-marker). The frame there, when its
length and checksum are right and its timestamp is not stale, is emitted after the least silence that brings the track
within 512 samples of it, and the window is consumed through the end-marker. -/
def Obligations.GoodFrameIsEmitted : Prop :=
  ∀ (cfg : Config) (t : Track) (w blk : Bytes) (m : Marked) (ps pf n : Nat) (fs : Int),
    w = t.buf.window → find w cfg.startBytes 0 = some ps → find w cfg.endBytes (ps + 15) = some pf →
    m = resync cfg w pf ⟨ps, t.buf.recordHeader (headerAt w ps)⟩ → blk = slice w (m.ps + 8) (pf - 4) →
    pf = m.ps + 12 + (frameLengthOf m.buf.hdr).toNat → leNat (slice w (pf - 4) pf) = (ck blk).toNat →
    fs = (t.buf.inSamples.toNat : Int) - (w.length / t.buf.bps.toNat : Nat) + (m.ps / t.buf.bps.toNat : Nat) →
    (t.buf.outSamples.toNat : Int) ≤ fs + 512 → n = silenceCount t.buf.outSamples.toNat fs →
    t.buf.outSamples.toNat + 1024 * (n + 1) < 2 ^ 64 →
    extractOne cfg t = .produced
      ⟨{ t.buf with
          window := w.drop (pf + 12)
          outSamples := BitVec.ofNat 64 (t.buf.outSamples.toNat + 1024 * (n + 1))
          hdr := m.buf.hdr },
        t.port ++ templates cfg (channelCountOf m.buf.hdr) n ++ blk⟩

/-- 44_extractor R136, R138, 60_exceptions R215: a frame that is corrupt or stale is consumed through its end-marker;
nothing is emitted, no counter changes, and only the recorded header is left of it. -/
def Obligations.CorruptOrStaleFrameIsDropped : Prop :=
  ∀ (cfg : Config) (t : Track) (w : Bytes) (m : Marked) (ps pf : Nat),
    w = t.buf.window → find w cfg.startBytes 0 = some ps → find w cfg.endBytes (ps + 15) = some pf →
    m = resync cfg w pf ⟨ps, t.buf.recordHeader (headerAt w ps)⟩ →
    (pf < m.ps + 12 ∨ leNat (slice w (pf - 4) pf) ≠ (ck (slice w (m.ps + 8) (pf - 4))).toNat ∨
      pf ≠ m.ps + 12 + (frameLengthOf m.buf.hdr).toNat ∨
      (t.buf.inSamples.toNat : Int) - (w.length / t.buf.bps.toNat : Nat) + (m.ps / t.buf.bps.toNat : Nat) + 512 <
        t.buf.outSamples.toNat) →
    extractOne cfg t = .produced ⟨{ t.buf with window := w.drop (pf + 12), hdr := m.buf.hdr }, t.port⟩

/-- 44_extractor R130, and R145, which the spec marks as derived: one flipped bit changes both halves of the checksum. -/
def Obligations.OneBitFlipChangesBothChecksums : Prop :=
  ∀ (b : Bytes) (i : Nat) (k : Nat) (x : Byte), b[i]? = some x → k < 8 →
    ckSum (ckWords (b.set i (x ^^^ (1#8 <<< k)))) ≠ ckSum (ckWords b) ∧
      ckXor (ckWords (b.set i (x ^^^ (1#8 <<< k)))) ≠ ckXor (ckWords b)

/-- 44_extractor R130: words are not weighted by position. -/
def Obligations.ChecksumIgnoresWordOrder : Prop :=
  ∀ b b' : Bytes, (ckWords b).Perm (ckWords b') → ck b = ck b'

/-- 44_extractor R139, 46_silence R165, R167: the drift loop makes exactly `max(0, ceil((goal - 512 - OUT) / 1024))`
silence frames of the recorded channel count, the least number that comes within 512 samples of the goal; a track that
was not ahead of the goal by more than 512 samples is not brought ahead by more. 46_silence R166: a silence frame is
nothing for channel count 0, the template of the count for 1, 2 and 6, and the 2-channel one for 3, 4, 5 and 7. -/
def Obligations.DriftLoopMakesTheLeastSilence : Prop :=
  (∀ (cfg : Config) (goal : Int) (t : Track) (n : Nat), n = silenceCount t.buf.outSamples.toNat goal →
    t.buf.outSamples.toNat + 1024 * n < 2 ^ 64 →
    driftTo cfg goal t = .go ⟨t.buf.emitted n, t.port ++ templates cfg (channelCountOf t.buf.hdr) n⟩) ∧
  (∀ (out : Nat) (goal : Int), goal ≤ out + 1024 * silenceCount out goal + 512 ∧
    (∀ j : Nat, j < silenceCount out goal → (out + 1024 * j + 512 : Int) < goal) ∧
    ((out : Int) ≤ goal + 512 → (out + 1024 * silenceCount out goal : Int) ≤ goal + 512)) ∧
  (∀ (cfg : Config) (c : BitVec 3) (n : Nat), templates cfg c n = (List.replicate n (template cfg c)).flatten) ∧
  (∀ cfg : Config, template cfg 0#3 = [] ∧ template cfg 1#3 = cfg.silTemplate1 ∧ template cfg 2#3 = cfg.silTemplate2 ∧
    template cfg 6#3 = cfg.silTemplate6 ∧ ∀ c ∈ [3#3, 4#3, 5#3, 7#3], template cfg c = cfg.silTemplate2)

/-- 48_commands R187, 43_detector R127, 60_exceptions R213: closing a stream of no known format halts `DEC`, with nothing
emitted and every buffer as it was. -/
def Obligations.DecFinishWithoutFormatFaults : Prop :=
  ∀ s : State, s.dec.phase = .active → s.dec.mode = .unknown →
    exec .decFinish s = .next { s with dec := { s.dec with phase := .halted, err := 0x10#8 } }

/-- 48_commands R187, 44_extractor R142, R148: closing a stream drains each active track to within 512 samples of its
input with silence of its recorded channel count, makes no extraction attempt, and finishes. -/
def Obligations.DecFinishDrains : Prop :=
  ∀ (s : State) (nr nl nh : Nat), s.dec.phase = .active →
    nr = silenceCount s.dec.raw.outSamples.toNat s.dec.raw.inSamples.toNat →
    nl = silenceCount s.dec.lo.outSamples.toNat s.dec.lo.inSamples.toNat →
    nh = silenceCount s.dec.hi.outSamples.toNat s.dec.hi.inSamples.toNat →
    (s.dec.mode = .full → s.dec.raw.inSamples.toNat + 512 < 2 ^ 64 →
      exec .decFinish s = .next { s with
        dec := { s.dec with phase := .finished, raw := s.dec.raw.emitted nr }
        ports := { s.ports with
          doutA := s.ports.doutA ++ templates Config.build (channelCountOf s.dec.raw.hdr) nr } }) ∧
    (s.dec.mode = .half → s.dec.lo.inSamples.toNat + 512 < 2 ^ 64 →
      exec .decFinish s = .next { s with
        dec := { s.dec with phase := .finished, lo := s.dec.lo.emitted nl }
        ports := { s.ports with
          doutA := s.ports.doutA ++ templates Config.build (channelCountOf s.dec.lo.hdr) nl } }) ∧
    (s.dec.mode = .mix → s.dec.lo.inSamples.toNat + 512 < 2 ^ 64 → s.dec.hi.inSamples.toNat + 512 < 2 ^ 64 →
      exec .decFinish s = .next { s with
        dec := { s.dec with phase := .finished, lo := s.dec.lo.emitted nl, hi := s.dec.hi.emitted nh }
        ports := { s.ports with
          doutA := s.ports.doutA ++ templates Config.build (channelCountOf s.dec.hi.hdr) nh
          doutB := s.ports.doutB ++ templates Config.build (channelCountOf s.dec.lo.hdr) nl } })

/-! ## Headers, search, packing -/

/-- 41_adts R93, and R92, which the spec marks as derived from R91: the fields by byte arithmetic are the fields by
stream bits, and indices 13 to 15 give rate 0. -/
def Obligations.HeaderFieldsByByteArithmetic : Prop :=
  (∀ (cfg : Config) (h0 h1 h2 h3 h4 h5 h6 : Byte),
    parse cfg (headerOfBytes [h0, h1, h2, h3, h4, h5, h6]) = parseByteArithmetic cfg h0 h1 h2 h3 h4 h5 h6) ∧
  (∀ (cfg : Config) (i : BitVec 4) (h : i.toNat < 13), sampleRateOf cfg i = cfg.srTable[i.toNat]'h) ∧
  (∀ (cfg : Config) (i : BitVec 4), 13 ≤ i.toNat → sampleRateOf cfg i = 0)

/-- 42_buffer R108. -/
def Obligations.FindAnswersTheLeastOccurrence : Prop :=
  ∀ (h p : Bytes) (start : Nat), p ≠ [] →
    (∀ i, find h p start = some i ↔ start ≤ i ∧ OccursAt p h i ∧ ∀ j, start ≤ j → j < i → ¬ OccursAt p h j) ∧
    (find h p start = none ↔ ∀ j, start ≤ j → ¬ OccursAt p h j)

/-- 30_encoding R73, 42_buffer R102: the lane extractor undoes the Half packing and both lanes of the mixer. -/
def Obligations.LanesUndoPackings : Prop :=
  (∀ (fill : Byte) (y : Bytes), laneBytes .low (packHalf fill y) = y) ∧
  (∀ a b : Bytes, a.length = b.length → laneBytes .high (mixBlock a b) = a ∧ laneBytes .low (mixBlock a b) = b)

/-- 47_mixer R171. -/
def Obligations.MixBlockBytes : Prop :=
  ∀ a b : Bytes, a.length = b.length →
    (mixBlock a b).length = 2 * a.length ∧
    ∀ (i : Nat) (x y : Byte), a[i]? = some x → b[i]? = some y →
      (mixBlock a b)[2 * i]? = some (y - 128#8) ∧ (mixBlock a b)[2 * i + 1]? = some (x - 128#8)

/-- 30_encoding R70, R72, 45_wrapper R150, R152, R154 to R156, R159, 20_memory R43 (e): where each part of a wrapped
frame lies and how long it is; how long its slot is, with `BPS_T` `2 * NCH` in Full mode (`CFG_MODE` 1) and `NCH` in
Half and Mix mode (2 and 3); and what packing does: in Half mode byte `k` plus 128, then `HALF_FILL`, in Full and Mix
mode nothing. -/
def Obligations.WrappedFrameLayout : Prop :=
  ∀ (cfg : Config) (f : Bytes),
    (wrap cfg f).length = f.length + 24 ∧ slice (wrap cfg f) 0 8 = cfg.startBytes ∧
    slice (wrap cfg f) 8 (8 + f.length) = f ∧
    leNat (slice (wrap cfg f) (8 + f.length) (12 + f.length)) = (ck f).toNat ∧
    slice (wrap cfg f) (12 + f.length) (24 + f.length) = cfg.endBytes ∧
    (∀ e : Enc, slotOf cfg e f = wrap cfg f ++ zeros (1024 * trackBps e - (f.length + 24)) ∧
      (e.cfgMode = 1#2 → trackBps e = 2 * e.cfgNch.toNat) ∧
      (e.cfgMode = 2#2 ∨ e.cfgMode = 3#2 → trackBps e = e.cfgNch.toNat)) ∧
    ∀ y : Bytes, pack cfg 1#2 y = y ∧ pack cfg 3#2 y = y ∧ (pack cfg 2#2 y).length = 2 * y.length ∧
      ∀ (k : Nat) (x : Byte), y[k]? = some x →
        (pack cfg 2#2 y)[2 * k]? = some (x + 128#8) ∧ (pack cfg 2#2 y)[2 * k + 1]? = some cfg.halfFill

/-! ## Encoding -/

/-- 48_commands R188. -/
def Obligations.EncInitOpensAStream : Prop :=
  ∀ (s : State) (u : EncIndex),
    ((s.enc u).cfgMode = 0#2 ∨ (s.enc u).cfgNch = 0#8 → exec (.encInit u) s = .next { s with cmdErr := 5#8 }) ∧
    ((s.enc u).cfgMode ≠ 0#2 → (s.enc u).cfgNch ≠ 0#8 → exec (.encInit u) s = .next (s.setEnc u { s.enc u with
      phase := .active, err := 0#8, delayDone := false, acc := ⟨[], 1#16, 0#64, 0#64, 0#56⟩ }))

/-- 45_wrapper R151, 60_exceptions R213: a push that completes no frame only extends the accumulator, recording the
header at its head once 7 bytes are there; a header there that gives less than 7 bytes faults, with the same left
behind. -/
def Obligations.EncPushWithoutAFrame : Prop :=
  ∀ (s : State) (u : EncIndex) (p w : Bytes) (h : BitVec 56), (s.enc u).phase = .active →
    w = (s.enc u).acc.window ++ p → h = headerOfBytes (w.take 7) →
    (s.enc u).acc.inSamples.toNat + p.length / (s.enc u).acc.bps.toNat < 2 ^ 64 →
    if overCap Config.build w.length then
      exec (.encPush u p) s = .next (s.setEnc u { s.enc u with phase := .halted, err := 0x11#8 })
    else
      (w.length < 7 → exec (.encPush u p) s = .next (s.setEnc u { s.enc u with acc := (s.enc u).acc.fed p })) ∧
      (7 ≤ w.length → 7 ≤ (frameLengthOf h).toNat → w.length < (frameLengthOf h).toNat →
        exec (.encPush u p) s = .next (s.setEnc u { s.enc u with acc := { (s.enc u).acc.fed p with hdr := h } })) ∧
      (7 ≤ w.length → (frameLengthOf h).toNat < 7 →
        exec (.encPush u p) s = .next (s.setEnc u { s.enc u with
          acc := { (s.enc u).acc.fed p with hdr := h }, phase := .halted, err := 0x13#8 }))

/-- 45_wrapper R151 to R156, R159: after the first frame of a stream, a push of whole frames emits one packed slot a
frame, in order, and leaves the accumulator empty; past `BUF_CAP` the unit halts. -/
def Obligations.EncPushWrapsEveryFrame : Prop :=
  ∀ (s : State) (u : EncIndex) (fs : List Bytes), (s.enc u).phase = .active → (s.enc u).acc.window = [] →
    (s.enc u).delayDone = true → (∀ f ∈ fs, isFrame f) →
    (s.enc u).acc.inSamples.toNat + fs.flatten.length / (s.enc u).acc.bps.toNat < 2 ^ 64 →
    (s.enc u).acc.outSamples.toNat + 1024 * fs.length < 2 ^ 64 →
    exec (.encPush u fs.flatten) s =
      if overCap Config.build fs.flatten.length then
        .next (s.setEnc u { s.enc u with phase := .halted, err := 0x11#8 })
      else .next { s.setEnc u { s.enc u with acc :=
          { window := []
            bps := (s.enc u).acc.bps
            inSamples := BitVec.ofNat 64 ((s.enc u).acc.inSamples.toNat + fs.flatten.length / (s.enc u).acc.bps.toNat)
            outSamples := BitVec.ofNat 64 ((s.enc u).acc.outSamples.toNat + 1024 * fs.length)
            hdr := (fs.getLast?.map (fun f => headerOfBytes (f.take 7))).getD (s.enc u).acc.hdr } } with
        ports := s.ports.setEout u (s.ports.eout u ++
          (fs.map (fun f => pack Config.build (s.enc u).cfgMode (slotOf Config.build (s.enc u) f))).flatten) }

/-- 45_wrapper R151, R157, R158: the first frame of a stream is preceded by `delay_frames(d)` wrapped silence frames of
its channel count, none of them emitted when its template is empty, and the delay is then done. -/
def Obligations.EncPushPrependsTheDelay : Prop :=
  ∀ (cfg : Config) (io : EncIO) (f : Bytes) (c : BitVec 3) (n : Nat), io.enc.acc.window = [] → io.enc.delayDone = false →
    isFrame f → c = channelCountOf (headerOfBytes (f.take 7)) →
    n = cfg.delayFrames (io.enc.cfgDelayMs.toNat * io.enc.cfgRate.toNat / 1000) → overCap cfg f.length = false →
    io.enc.acc.inSamples.toNat + f.length / io.enc.acc.bps.toNat < 2 ^ 64 →
    io.enc.acc.outSamples.toNat + 1024 * (n + 1) < 2 ^ 64 →
    encFeed cfg io f = .go
      { enc := { io.enc with
          delayDone := true
          acc :=
            { window := []
              bps := io.enc.acc.bps
              inSamples := BitVec.ofNat 64 (io.enc.acc.inSamples.toNat + f.length / io.enc.acc.bps.toNat)
              outSamples := BitVec.ofNat 64 (io.enc.acc.outSamples.toNat + 1024 * (n + 1))
              hdr := headerOfBytes (f.take 7) } }
        eout := io.eout ++
          (List.replicate n (if template cfg c = [] then []
            else pack cfg io.enc.cfgMode (slotOf cfg io.enc (template cfg c)))).flatten ++
          pack cfg io.enc.cfgMode (slotOf cfg io.enc f) }

/-- 45_wrapper R151: cutting a stream into payloads changes nothing: two pushes that both go on do what one push of both
payloads does, where that fits `BUF_CAP`. -/
def Obligations.EncodingIgnoresPayloadCuts : Prop :=
  ∀ (cfg : Config) (io io1 io2 : EncIO) (p q : Bytes), io.enc.acc.bps = 1#16 →
    overCap cfg (io.enc.acc.window.length + p.length + q.length) = false →
    encFeed cfg io p = .go io1 → encFeed cfg io1 q = .go io2 → encFeed cfg io (p ++ q) = .go io2

/-- 48_commands R190, 45_wrapper R160, 60_exceptions R213: `ENC_FINISH` wraps what is left of an incomplete frame into
one slot, or emits nothing when nothing is left. That the slot is emitted before the counter that does not fit halts the
unit is the model's reading (DEDUCED, log 11). -/
def Obligations.EncFinishFlushesTheResidue : Prop :=
  ∀ (s : State) (u : EncIndex), (s.enc u).phase = .active →
    ((s.enc u).acc.window = [] → exec (.encFinish u) s = .next (s.setEnc u { s.enc u with phase := .finished })) ∧
    ((s.enc u).acc.window ≠ [] → (s.enc u).acc.outSamples.toNat + 1024 < 2 ^ 64 →
      exec (.encFinish u) s = .next { s.setEnc u { s.enc u with
          phase := .finished
          acc := { (s.enc u).acc.emitted 1 with window := [] } } with
        ports := s.ports.setEout u (s.ports.eout u ++
          pack Config.build (s.enc u).cfgMode (slotOf Config.build (s.enc u) (s.enc u).acc.window)) }) ∧
    ((s.enc u).acc.window ≠ [] → 2 ^ 64 ≤ (s.enc u).acc.outSamples.toNat + 1024 →
      exec (.encFinish u) s = .next { s.setEnc u { s.enc u with phase := .halted, err := 0x12#8 } with
        ports := s.ports.setEout u (s.ports.eout u ++
          pack Config.build (s.enc u).cfgMode (slotOf Config.build (s.enc u) (s.enc u).acc.window)) })

/-- 45_wrapper R161, which the spec marks as derived: encoding an elementary stream in Full mode and decoding the
result gives the stream back, frame for frame. The rule's "no frame contains a marker" is stated here of the wrapped
frame (no second start-marker before the end-marker, no end-marker before its own), with a start-marker that does not
begin with a zero byte, so that no occurrence straddles a frame's edge or the padding: the rule's own words do not
exclude those. -/
def Obligations.FullModeRoundTrip : Prop :=
  ∀ (cfg : Config) (e : EncIO) (d : DecIO) (fs : List Bytes), cfg.bufCap = none → delayFramesOk cfg →
    cfg.startMarker[0] ≠ 0#8 → fs ≠ [] →
    (∀ f ∈ fs, isFrame f ∧ f.length + 24 ≤ 2048 * e.enc.cfgNch.toNat ∧
      find (wrap cfg f) cfg.endBytes 15 = some (f.length + 12) ∧
      find ((wrap cfg f).take (f.length + 12)) cfg.startBytes 8 = none) →
    e.enc.cfgMode = 1#2 → e.enc.cfgDelayMs = 0#32 → e.enc.acc = ⟨[], 1#16, 0#64, 0#64, 0#56⟩ → e.enc.delayDone = false →
    d.dec.mode = .unknown → d.dec.raw = ⟨[], BitVec.ofNat 16 (2 * e.enc.cfgNch.toNat), 0#64, 0#64, 0#56⟩ →
    e.enc.cfgNch ≠ 0#8 → fs.flatten.length < 2 ^ 64 → 1024 * fs.length + 1536 < 2 ^ 64 →
    ∃ e' d', encFeed cfg e fs.flatten = .go e' ∧ decPushBody cfg (e'.eout.drop e.eout.length) d = .go d' ∧
      d'.doutA = d.doutA ++ fs.flatten ∧ d'.doutB = d.doutB ∧ d'.dec.mode = .full

/-! ## Mixing -/

/-- 48_commands R191. -/
def Obligations.MixInitOpensAMix : Prop :=
  ∀ s : State, exec .mixInit s = .next { s with mix := ⟨.active, 0#8, [], [], 0#64⟩ }

/-- 48_commands R192, 47_mixer R170: a push extends its queue at the end and emits nothing; past `BUF_CAP` the unit
halts. -/
def Obligations.MixPushQueues : Prop :=
  ∀ (s : State) (p : Bytes), s.mix.phase = .active →
    (exec (.mixPush .qa p) s =
      if overCap Config.build (s.mix.qa.length + p.length) then
        .next { s with mix := { s.mix with phase := .halted, err := 0x11#8 } }
      else .next { s with mix := { s.mix with qa := s.mix.qa ++ p } }) ∧
    (exec (.mixPush .qb p) s =
      if overCap Config.build (s.mix.qb.length + p.length) then
        .next { s with mix := { s.mix with phase := .halted, err := 0x11#8 } }
      else .next { s with mix := { s.mix with qb := s.mix.qb ++ p } })

/-- 48_commands R193, 47_mixer R172, 60_exceptions R213: a step mixes as many samples as both queues hold; the total
passing `2^64 - 1` halts the unit, with the block emitted and the queues shortened before (this order is the model's
reading, DEDUCED, log 11); out of phase or with a reserved field set it is refused. -/
def Obligations.MixStepMixesWhatBothHold : Prop :=
  decode ⟨0x3200000000000000#64, []⟩ = .instr .mixStep ∧
  (∀ w : Word64, opField w = 0x32#8 → (selField w ≠ 0 ∨ rsvdField w ≠ 0 ∨ argField w ≠ 0) →
    decode ⟨w, []⟩ = .refused .eRsvd) ∧
  (∀ s : State, s.mix.phase ≠ .active → exec .mixStep s = .next { s with cmdErr := 4#8 }) ∧
  ∀ (s : State) (n : Nat), s.mix.phase = .active → n = min s.mix.qa.length s.mix.qb.length →
    (s.mix.total.toNat + 2 * n < 2 ^ 64 → exec .mixStep s = .next { s with
      mix := { s.mix with
        qa := s.mix.qa.drop n, qb := s.mix.qb.drop n, total := BitVec.ofNat 64 (s.mix.total.toNat + 2 * n) }
      ports := { s.ports with mout := s.ports.mout ++ mixBlock (s.mix.qa.take n) (s.mix.qb.take n) } }) ∧
    (2 ^ 64 ≤ s.mix.total.toNat + 2 * n → exec .mixStep s = .next { s with
      mix := { s.mix with qa := s.mix.qa.drop n, qb := s.mix.qb.drop n, phase := .halted, err := 0x12#8 }
      ports := { s.ports with mout := s.ports.mout ++ mixBlock (s.mix.qa.take n) (s.mix.qb.take n) } })

/-- 48_commands R194, 47_mixer R173, 60_exceptions R213, 10_state R30: the end pads the shorter queue with zeros at its
tail, mixes all that is left, and finishes; `TOTAL` and `TOTAL_SAT32` then read the final byte count; a total passing
`2^64 - 1` halts the unit, with the block emitted and the queues emptied before (this order is the model's reading,
DEDUCED, log 11); out of phase or with a reserved field set it is refused. -/
def Obligations.MixFinishPadsTheTail : Prop :=
  decode ⟨0x3300000000000000#64, []⟩ = .instr .mixFinish ∧
  (∀ w : Word64, opField w = 0x33#8 → (selField w ≠ 0 ∨ rsvdField w ≠ 0 ∨ argField w ≠ 0) →
    decode ⟨w, []⟩ = .refused .eRsvd) ∧
  (∀ s t : State, exec .mixFinish s = .next t →
    ReadsAs t 0x84 t.mix.total ∧ ReadsAs t 0x85 (BitVec.ofNat 64 (min t.mix.total.toNat (2 ^ 32 - 1)))) ∧
  (∀ s : State, s.mix.phase ≠ .active → exec .mixFinish s = .next { s with cmdErr := 4#8 }) ∧
  ∀ (s : State) (m : Nat), s.mix.phase = .active → m = max s.mix.qa.length s.mix.qb.length →
    (s.mix.total.toNat + 2 * m < 2 ^ 64 → exec .mixFinish s = .next { s with
      mix := { s.mix with
        qa := [], qb := [], total := BitVec.ofNat 64 (s.mix.total.toNat + 2 * m), phase := .finished }
      ports := { s.ports with
        mout := s.ports.mout ++
          mixBlock (s.mix.qa ++ zeros (m - s.mix.qa.length)) (s.mix.qb ++ zeros (m - s.mix.qb.length)) } }) ∧
    (2 ^ 64 ≤ s.mix.total.toNat + 2 * m → exec .mixFinish s = .next { s with
      mix := { s.mix with qa := [], qb := [], phase := .halted, err := 0x12#8 }
      ports := { s.ports with
        mout := s.ports.mout ++
          mixBlock (s.mix.qa ++ zeros (m - s.mix.qa.length)) (s.mix.qb ++ zeros (m - s.mix.qb.length)) } })

/-- 47_mixer R174, which the spec marks as derived from R170 to R173: over one mix that finishes, what left on `MOUT`
and the total depend on the bytes pushed to each queue, not on the order or the sizes of the pushes and steps. -/
def Obligations.MixTotalsIgnoreFeedingOrder : Prop :=
  ∀ (s t : State) (l : List Instr) (a b : Bytes) (m : Nat), s.mix = ⟨.active, 0#8, [], [], 0#64⟩ →
    (∀ i ∈ l, isMixFeed i = true) → runList (l ++ [.mixFinish]) s = some t → t.mix.phase = .finished →
    a = pushedTo .qa l → b = pushedTo .qb l → m = max a.length b.length →
    t.mix.total.toNat = 2 * m ∧ s.ports.mout <+: t.ports.mout ∧ t.ports.mout.length = s.ports.mout.length + 2 * m ∧
      ∀ i < m, t.ports.mout[s.ports.mout.length + 2 * i]? = some (b.getD i 0#8 ^^^ 0x80#8) ∧
        t.ports.mout[s.ports.mout.length + 2 * i + 1]? = some (a.getD i 0#8 ^^^ 0x80#8)
end

