-- ==== Sys2Proof/Laws/Adts.lean ====
section
/-! SUPPORT. The header of 7 bytes as one bit string (10_state R20, 20_memory R44). -/

namespace Sys2Proof.Machine

/-- Appending a byte's bits multiplies by 256 and adds. -/
theorem append_byte_toNat {n : Nat} (x : BitVec n) (b : Byte) : (x ++ b).toNat = x.toNat * 256 + b.toNat := by
  rw [BitVec.toNat_append, ← Nat.shiftLeft_add_eq_or_of_lt b.isLt, Nat.shiftLeft_eq]

/-- Byte 0 is most significant: the header is its bytes' bits side by side (41_adts R91). -/
theorem headerOfBytes_append (h0 h1 h2 h3 h4 h5 h6 : Byte) :
    headerOfBytes [h0, h1, h2, h3, h4, h5, h6] = h0 ++ h1 ++ h2 ++ h3 ++ h4 ++ h5 ++ h6 := by
  apply BitVec.eq_of_toNat_eq
  have e : (BitVec.toNat (w := 8 + 8 + 8 + 8 + 8 + 8 + 8) (h0 ++ h1 ++ h2 ++ h3 ++ h4 ++ h5 ++ h6)) =
      (((((h0.toNat * 256 + h1.toNat) * 256 + h2.toNat) * 256 + h3.toNat) * 256 + h4.toNat) * 256 + h5.toNat) * 256 +
        h6.toNat := by
    simp only [append_byte_toNat]
  have := h0.isLt; have := h1.isLt; have := h2.isLt; have := h3.isLt; have := h4.isLt; have := h5.isLt; have := h6.isLt
  refine Eq.trans ?_ e.symm
  simp only [headerOfBytes, List.foldl_cons, List.foldl_nil, BitVec.toNat_ofNat]
  omega

end Sys2Proof.Machine
end

