-- ==== Sys2Proof/Laws/Bytes.lean ====
section
/-! SUPPORT. Byte sequences, the search primitive, little-endian values, the outcome of a unit operation: for each, what it
can answer. -/

namespace Sys2Proof.Machine

/-! ## Slices and zeros -/

@[simp] theorem slice_length (s : Bytes) (a b : Nat) : (slice s a b).length = min (b - a) (s.length - a) := by
  simp [slice]

@[simp] theorem slice_empty (a b : Nat) : slice [] a b = [] := by simp [slice]

@[simp] theorem zeros_length (n : Nat) : (zeros n).length = n := by simp [zeros]

@[simp] theorem le32_length (v : BitVec 32) : (le32 v).length = 4 := rfl

theorem leNat_le32 (v : BitVec 32) : leNat (le32 v) = v.toNat := by
  have h := v.isLt
  simp only [le32, leNat, BitVec.extractLsb'_toNat, Nat.shiftRight_eq_div_pow]
  omega

/-! ## The search -/

/-- What `scanFrom` answers when it finds: the index of the first suffix that begins with the pattern. -/
theorem scanFrom_some {p h : Bytes} {i k : Nat} (hk : scanFrom p h i = some k) :
    i ≤ k ∧ k - i < h.length ∧ p <+: h.drop (k - i) ∧ ∀ j, j < k - i → ¬ p <+: h.drop j := by
  induction h generalizing i with
  | nil => simp [scanFrom] at hk
  | cons x xs ih =>
    rw [scanFrom] at hk
    split at hk
    · rename_i hp
      simp only [Option.some.injEq] at hk
      subst hk
      rw [List.isPrefixOf_iff_prefix] at hp
      simp [hp]
    · rename_i hp
      rw [List.isPrefixOf_iff_prefix] at hp
      obtain ⟨h1, h2, h3, h4⟩ := ih hk
      have e : k - i = (k - (i + 1)) + 1 := by omega
      refine ⟨by omega, by simp only [List.length_cons]; omega, ?_, ?_⟩
      · rw [e]; simpa using h3
      · intro j hj
        cases j with
        | zero => simpa using hp
        | succ j => simpa using h4 j (by omega)

/-- What `scanFrom` answers when it does not find. -/
theorem scanFrom_none {p h : Bytes} {i : Nat} (hk : scanFrom p h i = none) :
    ∀ j, j < h.length → ¬ p <+: h.drop j := by
  induction h generalizing i with
  | nil => intro j hj; simp at hj
  | cons x xs ih =>
    rw [scanFrom] at hk
    split at hk
    · simp at hk
    · rename_i hp
      rw [List.isPrefixOf_iff_prefix] at hp
      intro j hj
      cases j with
      | zero => simpa using hp
      | succ j => simpa using ih hk j (by simpa using hj)

/-- `find` finds an occurrence at or after `start`, and none lies between (42_buffer R108). -/
theorem find_some {h p : Bytes} {start k : Nat} (hk : find h p start = some k) :
    start ≤ k ∧ p <+: h.drop k ∧ k < h.length ∧ ∀ j, start ≤ j → j < k → ¬ p <+: h.drop j := by
  obtain ⟨h1, h2, h3, h4⟩ := scanFrom_some hk
  simp only [List.drop_drop, List.length_drop] at h2 h3 h4
  refine ⟨h1, ?_, by omega, fun j hj hjk => ?_⟩
  · rwa [show start + (k - start) = k by omega] at h3
  · have := h4 (j - start) (by omega)
    rwa [show start + (j - start) = j by omega] at this

/-- `find` answers `NONE` only where there is no occurrence from `start` on (42_buffer R108). -/
theorem find_none {h p : Bytes} {start : Nat} (hk : find h p start = none) :
    ∀ j, start ≤ j → j < h.length → ¬ p <+: h.drop j := by
  intro j h1 h2
  have := scanFrom_none hk (j - start) (by simp; omega)
  simp only [List.drop_drop] at this
  rwa [show start + (j - start) = j by omega] at this

/-- An occurrence lies whole in the haystack. -/
theorem find_fits {h p : Bytes} {start k : Nat} (hk : find h p start = some k) : k + p.length ≤ h.length := by
  obtain ⟨_, h2, h3, _⟩ := find_some hk
  have := h2.length_le
  simp only [List.length_drop] at this
  omega

@[simp] theorem startBytes_length (cfg : Config) : cfg.startBytes.length = 8 := by
  simp [Config.startBytes]; rfl

@[simp] theorem probeBytes_length (cfg : Config) : cfg.probeBytes.length = 16 := by
  simp [Config.probeBytes]; rfl

@[simp] theorem endBytes_length (cfg : Config) : cfg.endBytes.length = 12 := by
  simp [Config.endBytes]; rfl

/-! ## Lanes and packings -/

@[simp] theorem laneBytes_length (lane : Lane) (s : Bytes) : (laneBytes lane s).length = s.length / 2 := by
  fun_induction laneBytes lane s with
  | case1 lo hi rest ih => simp [ih]; omega
  | case2 => simp
  | case3 => simp

@[simp] theorem packHalf_length (fill : Byte) (y : Bytes) : (packHalf fill y).length = 2 * y.length := by
  induction y with
  | nil => rfl
  | cons b bs ih => simp [packHalf, ih]; omega

/-- The wrapped frame is 24 bytes longer than the frame (45_wrapper R152). -/
@[simp] theorem wrap_length (cfg : Config) (f : Bytes) : (wrap cfg f).length = f.length + 24 := by simp [wrap]; omega

@[simp] theorem remap_remap (b : Byte) : remap (remap b) = b := by unfold remap; bv_omega

/-! ## Outcomes of unit operations -/

@[simp] theorem andThen_go {σ : Type} (s : σ) (k : σ → Flow σ) : (Flow.go s).andThen k = k s := rfl

@[simp] theorem andThen_raised {σ : Type} (f : UnitFault) (s : σ) (k : σ → Flow σ) :
    (Flow.raised f s).andThen k = .raised f s := rfl

@[simp] theorem map_go {σ τ : Type} (g : σ → τ) (s : σ) : (Flow.go s).map g = .go (g s) := rfl

@[simp] theorem map_raised {σ τ : Type} (g : σ → τ) (f : UnitFault) (s : σ) :
    (Flow.raised f s).map g = .raised f (g s) := rfl

/-- A sequence goes on only if both parts do. -/
theorem andThen_eq_go {σ : Type} {r : Flow σ} {k : σ → Flow σ} {t : σ} :
    r.andThen k = .go t ↔ ∃ s, r = .go s ∧ k s = .go t := by
  cases r <;> simp

/-- A sequence raises where its first part does, or where its second part does after the first has gone on. -/
theorem andThen_eq_raised {σ : Type} {r : Flow σ} {k : σ → Flow σ} {f : UnitFault} {t : σ} :
    r.andThen k = .raised f t ↔ r = .raised f t ∨ ∃ s, r = .go s ∧ k s = .raised f t := by
  cases r <;> simp

theorem map_eq_go {σ τ : Type} {g : σ → τ} {r : Flow σ} {t : τ} : r.map g = .go t ↔ ∃ s, r = .go s ∧ g s = t := by
  cases r <;> simp

theorem map_eq_raised {σ τ : Type} {g : σ → τ} {r : Flow σ} {f : UnitFault} {t : τ} :
    r.map g = .raised f t ↔ ∃ s, r = .raised f s ∧ g s = t := by
  cases r <;> simp

/-- The state of an outcome, whichever it is. -/
def Flow.state {σ : Type} : Flow σ → σ
  | .go s => s
  | .raised _ s => s

@[simp] theorem state_go {σ : Type} (s : σ) : (Flow.go s).state = s := rfl

@[simp] theorem state_raised {σ : Type} (f : UnitFault) (s : σ) : (Flow.raised f s).state = s := rfl

@[simp] theorem state_map {σ τ : Type} (g : σ → τ) (r : Flow σ) : (r.map g).state = g r.state := by cases r <;> rfl

/-- What both parts of a sequence keep, the sequence keeps. -/
theorem andThen_keeps {σ : Type} {P : σ → Prop} {r : Flow σ} {k : σ → Flow σ} (h1 : P r.state)
    (h2 : ∀ s, P s → P (k s).state) : P (r.andThen k).state := by
  cases r with
  | go s => exact h2 s h1
  | raised f s => exact h1

end Sys2Proof.Machine
end

