-- ==== Sys2Proof/Laws/State.lean ====
section
/-! SUPPORT. One lemma per field per update of the state and its parts, true by computation and tagged simp, so that no
later proof unfolds an update. -/

namespace Sys2Proof.Machine

/-! ## Encoders and ports by index -/

@[simp] theorem enc_e0 (s : State) : s.enc .e0 = s.enc0 := rfl
@[simp] theorem enc_e1 (s : State) : s.enc .e1 = s.enc1 := rfl
@[simp] theorem setEnc_e0_cmdErr (s : State) (e : Enc) : (s.setEnc .e0 e).cmdErr = s.cmdErr := rfl
@[simp] theorem setEnc_e1_cmdErr (s : State) (e : Enc) : (s.setEnc .e1 e).cmdErr = s.cmdErr := rfl
@[simp] theorem setEnc_e0_dec (s : State) (e : Enc) : (s.setEnc .e0 e).dec = s.dec := rfl
@[simp] theorem setEnc_e1_dec (s : State) (e : Enc) : (s.setEnc .e1 e).dec = s.dec := rfl
@[simp] theorem setEnc_e0_enc0 (s : State) (e : Enc) : (s.setEnc .e0 e).enc0 = e := rfl
@[simp] theorem setEnc_e1_enc0 (s : State) (e : Enc) : (s.setEnc .e1 e).enc0 = s.enc0 := rfl
@[simp] theorem setEnc_e0_enc1 (s : State) (e : Enc) : (s.setEnc .e0 e).enc1 = s.enc1 := rfl
@[simp] theorem setEnc_e1_enc1 (s : State) (e : Enc) : (s.setEnc .e1 e).enc1 = e := rfl
@[simp] theorem setEnc_e0_mix (s : State) (e : Enc) : (s.setEnc .e0 e).mix = s.mix := rfl
@[simp] theorem setEnc_e1_mix (s : State) (e : Enc) : (s.setEnc .e1 e).mix = s.mix := rfl
@[simp] theorem setEnc_e0_ports (s : State) (e : Enc) : (s.setEnc .e0 e).ports = s.ports := rfl
@[simp] theorem setEnc_e1_ports (s : State) (e : Enc) : (s.setEnc .e1 e).ports = s.ports := rfl
@[simp] theorem setEnc_e0_reads (s : State) (e : Enc) : (s.setEnc .e0 e).reads = s.reads := rfl
@[simp] theorem setEnc_e1_reads (s : State) (e : Enc) : (s.setEnc .e1 e).reads = s.reads := rfl
@[simp] theorem setEnc_e0_input (s : State) (e : Enc) : (s.setEnc .e0 e).input = s.input := rfl
@[simp] theorem setEnc_e1_input (s : State) (e : Enc) : (s.setEnc .e1 e).input = s.input := rfl
@[simp] theorem setEnc_enc_self (s : State) (u : EncIndex) (e : Enc) : (s.setEnc u e).enc u = e := by cases u <;> rfl
theorem setEnc_enc_other (s : State) (u v : EncIndex) (e : Enc) (h : v ≠ u) : (s.setEnc u e).enc v = s.enc v := by
  cases u <;> cases v <;> first | rfl | exact absurd rfl h
@[simp] theorem setEnc_cmdErr (s : State) (u : EncIndex) (e : Enc) : (s.setEnc u e).cmdErr = s.cmdErr := by cases u <;> rfl
@[simp] theorem setEnc_dec (s : State) (u : EncIndex) (e : Enc) : (s.setEnc u e).dec = s.dec := by cases u <;> rfl
@[simp] theorem setEnc_mix (s : State) (u : EncIndex) (e : Enc) : (s.setEnc u e).mix = s.mix := by cases u <;> rfl
@[simp] theorem setEnc_ports (s : State) (u : EncIndex) (e : Enc) : (s.setEnc u e).ports = s.ports := by cases u <;> rfl
@[simp] theorem setEnc_reads (s : State) (u : EncIndex) (e : Enc) : (s.setEnc u e).reads = s.reads := by cases u <;> rfl
@[simp] theorem setEnc_input (s : State) (u : EncIndex) (e : Enc) : (s.setEnc u e).input = s.input := by cases u <;> rfl
@[simp] theorem eout_e0 (p : Ports) : p.eout .e0 = p.eout0 := rfl
@[simp] theorem eout_e1 (p : Ports) : p.eout .e1 = p.eout1 := rfl
@[simp] theorem setEout_eout_self (p : Ports) (u : EncIndex) (b : Bytes) : (p.setEout u b).eout u = b := by cases u <;> rfl
theorem setEout_eout_other (p : Ports) (u v : EncIndex) (b : Bytes) (h : v ≠ u) : (p.setEout u b).eout v = p.eout v := by
  cases u <;> cases v <;> first | rfl | exact absurd rfl h
@[simp] theorem setEout_doutA (p : Ports) (u : EncIndex) (b : Bytes) : (p.setEout u b).doutA = p.doutA := by cases u <;> rfl
@[simp] theorem setEout_doutB (p : Ports) (u : EncIndex) (b : Bytes) : (p.setEout u b).doutB = p.doutB := by cases u <;> rfl
@[simp] theorem setEout_mout (p : Ports) (u : EncIndex) (b : Bytes) : (p.setEout u b).mout = p.mout := by cases u <;> rfl

/-! ## Exceptions, phases, reads -/

@[simp] theorem refuse_cmdErr (s : State) (e : ErrCode) : (s.refuse e).cmdErr = errCode e := rfl
@[simp] theorem refuse_dec (s : State) (e : ErrCode) : (s.refuse e).dec = s.dec := rfl
@[simp] theorem refuse_enc0 (s : State) (e : ErrCode) : (s.refuse e).enc0 = s.enc0 := rfl
@[simp] theorem refuse_enc1 (s : State) (e : ErrCode) : (s.refuse e).enc1 = s.enc1 := rfl
@[simp] theorem refuse_mix (s : State) (e : ErrCode) : (s.refuse e).mix = s.mix := rfl
@[simp] theorem refuse_ports (s : State) (e : ErrCode) : (s.refuse e).ports = s.ports := rfl
@[simp] theorem refuse_reads (s : State) (e : ErrCode) : (s.refuse e).reads = s.reads := rfl
@[simp] theorem refuse_input (s : State) (e : ErrCode) : (s.refuse e).input = s.input := rfl
@[simp] theorem returnRead_cmdErr (s : State) (v : Word64) : (s.returnRead v).cmdErr = s.cmdErr := rfl
@[simp] theorem returnRead_dec (s : State) (v : Word64) : (s.returnRead v).dec = s.dec := rfl
@[simp] theorem returnRead_enc0 (s : State) (v : Word64) : (s.returnRead v).enc0 = s.enc0 := rfl
@[simp] theorem returnRead_enc1 (s : State) (v : Word64) : (s.returnRead v).enc1 = s.enc1 := rfl
@[simp] theorem returnRead_mix (s : State) (v : Word64) : (s.returnRead v).mix = s.mix := rfl
@[simp] theorem returnRead_ports (s : State) (v : Word64) : (s.returnRead v).ports = s.ports := rfl
@[simp] theorem returnRead_reads (s : State) (v : Word64) : (s.returnRead v).reads = s.reads ++ [v] := rfl
@[simp] theorem returnRead_input (s : State) (v : Word64) : (s.returnRead v).input = s.input := rfl
@[simp] theorem refuseRead_cmdErr (s : State) (e : ErrCode) : (s.refuseRead e).cmdErr = errCode e := rfl
@[simp] theorem refuseRead_dec (s : State) (e : ErrCode) : (s.refuseRead e).dec = s.dec := rfl
@[simp] theorem refuseRead_enc0 (s : State) (e : ErrCode) : (s.refuseRead e).enc0 = s.enc0 := rfl
@[simp] theorem refuseRead_enc1 (s : State) (e : ErrCode) : (s.refuseRead e).enc1 = s.enc1 := rfl
@[simp] theorem refuseRead_mix (s : State) (e : ErrCode) : (s.refuseRead e).mix = s.mix := rfl
@[simp] theorem refuseRead_ports (s : State) (e : ErrCode) : (s.refuseRead e).ports = s.ports := rfl
@[simp] theorem refuseRead_reads (s : State) (e : ErrCode) : (s.refuseRead e).reads = s.reads ++ [0#64] := rfl
@[simp] theorem refuseRead_input (s : State) (e : ErrCode) : (s.refuseRead e).input = s.input := rfl
@[simp] theorem setPhaseErr_dec_cmdErr (s : State) (p : Phase) (e : BitVec 8) : (s.setPhaseErr .dec p e).cmdErr = s.cmdErr := rfl
@[simp] theorem setPhaseErr_mix_cmdErr (s : State) (p : Phase) (e : BitVec 8) : (s.setPhaseErr .mix p e).cmdErr = s.cmdErr := rfl
@[simp] theorem setPhaseErr_dec_dec (s : State) (p : Phase) (e : BitVec 8) : (s.setPhaseErr .dec p e).dec = { s.dec with phase := p, err := e } := rfl
@[simp] theorem setPhaseErr_mix_dec (s : State) (p : Phase) (e : BitVec 8) : (s.setPhaseErr .mix p e).dec = s.dec := rfl
@[simp] theorem setPhaseErr_dec_enc0 (s : State) (p : Phase) (e : BitVec 8) : (s.setPhaseErr .dec p e).enc0 = s.enc0 := rfl
@[simp] theorem setPhaseErr_mix_enc0 (s : State) (p : Phase) (e : BitVec 8) : (s.setPhaseErr .mix p e).enc0 = s.enc0 := rfl
@[simp] theorem setPhaseErr_dec_enc1 (s : State) (p : Phase) (e : BitVec 8) : (s.setPhaseErr .dec p e).enc1 = s.enc1 := rfl
@[simp] theorem setPhaseErr_mix_enc1 (s : State) (p : Phase) (e : BitVec 8) : (s.setPhaseErr .mix p e).enc1 = s.enc1 := rfl
@[simp] theorem setPhaseErr_dec_mix (s : State) (p : Phase) (e : BitVec 8) : (s.setPhaseErr .dec p e).mix = s.mix := rfl
@[simp] theorem setPhaseErr_mix_mix (s : State) (p : Phase) (e : BitVec 8) : (s.setPhaseErr .mix p e).mix = { s.mix with phase := p, err := e } := rfl
@[simp] theorem setPhaseErr_dec_ports (s : State) (p : Phase) (e : BitVec 8) : (s.setPhaseErr .dec p e).ports = s.ports := rfl
@[simp] theorem setPhaseErr_mix_ports (s : State) (p : Phase) (e : BitVec 8) : (s.setPhaseErr .mix p e).ports = s.ports := rfl
@[simp] theorem setPhaseErr_dec_reads (s : State) (p : Phase) (e : BitVec 8) : (s.setPhaseErr .dec p e).reads = s.reads := rfl
@[simp] theorem setPhaseErr_mix_reads (s : State) (p : Phase) (e : BitVec 8) : (s.setPhaseErr .mix p e).reads = s.reads := rfl
@[simp] theorem setPhaseErr_dec_input (s : State) (p : Phase) (e : BitVec 8) : (s.setPhaseErr .dec p e).input = s.input := rfl
@[simp] theorem setPhaseErr_mix_input (s : State) (p : Phase) (e : BitVec 8) : (s.setPhaseErr .mix p e).input = s.input := rfl
@[simp] theorem setPhaseErr_enc (s : State) (u : EncIndex) (p : Phase) (e : BitVec 8) : s.setPhaseErr (.enc u) p e = s.setEnc u { s.enc u with phase := p, err := e } := rfl
@[simp] theorem setPhaseErr_cmdErr (s : State) (u : UnitName) (p : Phase) (e : BitVec 8) : (s.setPhaseErr u p e).cmdErr = s.cmdErr := by rcases u with _ | (_ | _) | _ <;> rfl
@[simp] theorem setPhaseErr_ports (s : State) (u : UnitName) (p : Phase) (e : BitVec 8) : (s.setPhaseErr u p e).ports = s.ports := by rcases u with _ | (_ | _) | _ <;> rfl
@[simp] theorem setPhaseErr_reads (s : State) (u : UnitName) (p : Phase) (e : BitVec 8) : (s.setPhaseErr u p e).reads = s.reads := by rcases u with _ | (_ | _) | _ <;> rfl
@[simp] theorem setPhaseErr_input (s : State) (u : UnitName) (p : Phase) (e : BitVec 8) : (s.setPhaseErr u p e).input = s.input := by rcases u with _ | (_ | _) | _ <;> rfl
@[simp] theorem setPhaseErr_phase (s : State) (u : UnitName) (p : Phase) (e : BitVec 8) : (s.setPhaseErr u p e).phase u = p := by rcases u with _ | (_ | _) | _ <;> rfl
@[simp] theorem setPhaseErr_unitErr (s : State) (u : UnitName) (p : Phase) (e : BitVec 8) : (s.setPhaseErr u p e).unitErr u = e := by rcases u with _ | (_ | _) | _ <;> rfl
@[simp] theorem raise_eq (s : State) (u : UnitName) (f : UnitFault) : s.raise u f = s.setPhaseErr u .halted (faultCode f) := rfl
@[simp] theorem openUnit_eq (s : State) (u : UnitName) : s.openUnit u = s.setPhaseErr u .active 0#8 := rfl
@[simp] theorem closeUnit_eq (s : State) (u : UnitName) : s.closeUnit u = s.setPhaseErr u .finished (s.unitErr u) := rfl
@[simp] theorem phase_dec (s : State) : s.phase .dec = s.dec.phase := rfl
@[simp] theorem phase_enc (s : State) (u : EncIndex) : s.phase (.enc u) = (s.enc u).phase := rfl
@[simp] theorem phase_mix (s : State) : s.phase .mix = s.mix.phase := rfl
@[simp] theorem unitErr_dec (s : State) : s.unitErr .dec = s.dec.err := rfl
@[simp] theorem unitErr_enc (s : State) (u : EncIndex) : s.unitErr (.enc u) = (s.enc u).err := rfl
@[simp] theorem unitErr_mix (s : State) : s.unitErr .mix = s.mix.err := rfl
@[simp] theorem resetUnits_cmdErr (s : State) : s.resetUnits.cmdErr = 0#8 := rfl
@[simp] theorem resetUnits_dec (s : State) : s.resetUnits.dec = Dec.reset := rfl
@[simp] theorem resetUnits_enc0 (s : State) : s.resetUnits.enc0 = Enc.reset := rfl
@[simp] theorem resetUnits_enc1 (s : State) : s.resetUnits.enc1 = Enc.reset := rfl
@[simp] theorem resetUnits_mix (s : State) : s.resetUnits.mix = Mix.reset := rfl
@[simp] theorem resetUnits_ports (s : State) : s.resetUnits.ports = s.ports := rfl
@[simp] theorem resetUnits_reads (s : State) : s.resetUnits.reads = s.reads := rfl
@[simp] theorem resetUnits_input (s : State) : s.resetUnits.input = s.input := rfl
@[simp] theorem issue_cmdErr (s : State) (c : Command) : (s.issue c).cmdErr = s.cmdErr := rfl
@[simp] theorem issue_dec (s : State) (c : Command) : (s.issue c).dec = s.dec := rfl
@[simp] theorem issue_enc0 (s : State) (c : Command) : (s.issue c).enc0 = s.enc0 := rfl
@[simp] theorem issue_enc1 (s : State) (c : Command) : (s.issue c).enc1 = s.enc1 := rfl
@[simp] theorem issue_mix (s : State) (c : Command) : (s.issue c).mix = s.mix := rfl
@[simp] theorem issue_ports (s : State) (c : Command) : (s.issue c).ports = s.ports := rfl
@[simp] theorem issue_reads (s : State) (c : Command) : (s.issue c).reads = s.reads := rfl
@[simp] theorem issue_input (s : State) (c : Command) : (s.issue c).input = HostInput.command c :: s.input := rfl

/-! ## Buffers -/

@[simp] theorem consume_window (b : Buffer) (n : Nat) : (b.consume n).window = b.window.drop n := rfl
@[simp] theorem consume_bps (b : Buffer) (n : Nat) : (b.consume n).bps = b.bps := rfl
@[simp] theorem consume_inSamples (b : Buffer) (n : Nat) : (b.consume n).inSamples = b.inSamples := rfl
@[simp] theorem consume_outSamples (b : Buffer) (n : Nat) : (b.consume n).outSamples = b.outSamples := rfl
@[simp] theorem consume_hdr (b : Buffer) (n : Nat) : (b.consume n).hdr = b.hdr := rfl
@[simp] theorem recordHeader_window (b : Buffer) (h : Bytes) : (b.recordHeader h).window = b.window := rfl
@[simp] theorem recordHeader_bps (b : Buffer) (h : Bytes) : (b.recordHeader h).bps = b.bps := rfl
@[simp] theorem recordHeader_inSamples (b : Buffer) (h : Bytes) : (b.recordHeader h).inSamples = b.inSamples := rfl
@[simp] theorem recordHeader_outSamples (b : Buffer) (h : Bytes) : (b.recordHeader h).outSamples = b.outSamples := rfl
@[simp] theorem recordHeader_hdr (b : Buffer) (h : Bytes) : (b.recordHeader h).hdr = headerOfBytes h := rfl
@[simp] theorem clear_window (b : Buffer) : b.clear.window = [] := rfl
@[simp] theorem clear_bps (b : Buffer) : b.clear.bps = b.bps := rfl
@[simp] theorem clear_inSamples (b : Buffer) : b.clear.inSamples = 0#64 := rfl
@[simp] theorem clear_outSamples (b : Buffer) : b.clear.outSamples = 0#64 := rfl
@[simp] theorem clear_hdr (b : Buffer) : b.clear.hdr = 0#56 := rfl

/-! ## Tracks, encoders and mixers with their ports -/

@[simp] theorem emit_buf (t : Track) (s : Bytes) : (t.emit s).buf = t.buf := rfl
@[simp] theorem emit_port (t : Track) (s : Bytes) : (t.emit s).port = t.port ++ s := rfl
@[simp] theorem track_consume_buf (t : Track) (n : Nat) : (t.consume n).buf = t.buf.consume n := rfl
@[simp] theorem track_consume_port (t : Track) (n : Nat) : (t.consume n).port = t.port := rfl
@[simp] theorem encIO_emit_enc (io : EncIO) (s : Bytes) : (io.emit s).enc = io.enc := rfl
@[simp] theorem encIO_emit_eout (io : EncIO) (s : Bytes) : (io.emit s).eout = io.eout ++ s := rfl
@[simp] theorem encIO_consume_eout (io : EncIO) (n : Nat) : (io.consume n).eout = io.eout := rfl
@[simp] theorem encIO_consume_enc (io : EncIO) (n : Nat) : (io.consume n).enc = { io.enc with acc := io.enc.acc.consume n } := rfl
@[simp] theorem dec_newStream_phase (d : Dec) : d.newStream.phase = d.phase := rfl
@[simp] theorem dec_newStream_nch (d : Dec) : d.newStream.nch = d.nch := rfl
@[simp] theorem dec_newStream_err (d : Dec) : d.newStream.err = d.err := rfl
@[simp] theorem dec_newStream_mode (d : Dec) : d.newStream.mode = Mode.unknown := rfl
@[simp] theorem enc_newStream_phase (e : Enc) : e.newStream.phase = e.phase := rfl
@[simp] theorem enc_newStream_cfgMode (e : Enc) : e.newStream.cfgMode = e.cfgMode := rfl
@[simp] theorem enc_newStream_cfgNch (e : Enc) : e.newStream.cfgNch = e.cfgNch := rfl
@[simp] theorem enc_newStream_cfgRate (e : Enc) : e.newStream.cfgRate = e.cfgRate := rfl
@[simp] theorem enc_newStream_cfgDelayMs (e : Enc) : e.newStream.cfgDelayMs = e.cfgDelayMs := rfl
@[simp] theorem enc_newStream_err (e : Enc) : e.newStream.err = e.err := rfl
@[simp] theorem enc_newStream_delayDone (e : Enc) : e.newStream.delayDone = false := rfl
@[simp] theorem enc_newStream_acc (e : Enc) : e.newStream.acc = { e.acc.clear with bps := 1#16 } := rfl

end Sys2Proof.Machine
end

