-- ==== Sys2Proof/Laws/Buffer.lean ====
section
/-! SUPPORT. The counters and the Bitstream Buffer operations: for each, once, everything it can answer. -/

namespace Sys2Proof.Machine

/-- A counter advances exactly when the sum fits 64 bits, and then holds the sum (42_buffer R110). -/
theorem addCounter_some {c : BitVec 64} {n : Nat} {m : BitVec 64} :
    addCounter c n = some m ↔ m.toNat = c.toNat + n := by
  unfold addCounter
  have hm := m.isLt
  constructor
  · intro h
    split at h
    · rename_i hlt
      simp only [Option.some.injEq] at h
      subst h
      simpa [BitVec.toNat_ofNat] using Nat.mod_eq_of_lt hlt
    · simp at h
  · intro h
    rw [if_pos (by omega), ← h, BitVec.ofNat_toNat]
    simp

theorem addCounter_none {c : BitVec 64} {n : Nat} : addCounter c n = none ↔ 2 ^ 64 ≤ c.toNat + n := by
  unfold addCounter
  split <;> simp <;> omega

theorem addCounter_fits {c : BitVec 64} {n : Nat} (h : c.toNat + n < 2 ^ 64) :
    addCounter c n = some (BitVec.ofNat 64 (c.toNat + n)) := by
  unfold addCounter
  rw [if_pos h]

/-- All that `APPEND` can answer (42_buffer R100, R101). -/
theorem append_cases (cfg : Config) (b : Buffer) (s : Bytes) :
    (overCap cfg (b.window.length + s.length) = true ∧ b.append cfg s = .raised .bufOvf b) ∨
    (overCap cfg (b.window.length + s.length) = false ∧
      ∃ n : BitVec 64, n.toNat = b.inSamples.toNat + s.length / b.bps.toNat ∧
        b.append cfg s = .go { b with window := b.window ++ s, inSamples := n }) ∨
    (overCap cfg (b.window.length + s.length) = false ∧ 2 ^ 64 ≤ b.inSamples.toNat + s.length / b.bps.toNat ∧
      b.append cfg s = .raised .cntOvf { b with window := b.window ++ s }) := by
  unfold Buffer.append
  cases ho : overCap cfg (b.window.length + s.length) with
  | true => simp
  | false =>
    cases hc : addCounter b.inSamples (s.length / b.bps.toNat) with
    | none => exact .inr (.inr ⟨rfl, addCounter_none.1 hc, by simp⟩)
    | some n => exact .inr (.inl ⟨rfl, n, addCounter_some.1 hc, by simp⟩)

/-- `APPEND` where neither test fails. -/
theorem append_fits {cfg : Config} {b : Buffer} {s : Bytes}
    (h1 : overCap cfg (b.window.length + s.length) = false)
    (h2 : b.inSamples.toNat + s.length / b.bps.toNat < 2 ^ 64) :
    b.append cfg s = .go { b with
      window := b.window ++ s
      inSamples := BitVec.ofNat 64 (b.inSamples.toNat + s.length / b.bps.toNat) } := by
  simp [Buffer.append, h1, addCounter_fits h2]

/-- What `APPEND` leaves, whether or not it raises: only the window, extended at its end or not at all, and
`IN_SAMPLES`, never decreased (10_state R38 (b), (d)). -/
theorem append_state (cfg : Config) (b : Buffer) (s : Bytes) :
    (b.append cfg s).state.bps = b.bps ∧ (b.append cfg s).state.outSamples = b.outSamples ∧
      (b.append cfg s).state.hdr = b.hdr ∧ b.inSamples.toNat ≤ (b.append cfg s).state.inSamples.toNat ∧
      b.window <+: (b.append cfg s).state.window ∧
      (overCap cfg b.window.length = false → overCap cfg (b.append cfg s).state.window.length = false) := by
  rcases append_cases cfg b s with ⟨_, h⟩ | ⟨ho, n, hn, h⟩ | ⟨ho, _, h⟩ <;> simp [h]
  · exact ⟨hn ▸ Nat.le_add_right _ _, fun _ => ho⟩
  · exact fun _ => ho

/-- All that the advance of `OUT_SAMPLES` can answer (10_state R19, 42_buffer R110). -/
theorem advance_cases (b : Buffer) :
    (∃ n : BitVec 64, n.toNat = b.outSamples.toNat + 1024 ∧ b.advance = .go { b with outSamples := n }) ∨
    (2 ^ 64 ≤ b.outSamples.toNat + 1024 ∧ b.advance = .raised .cntOvf b) := by
  unfold Buffer.advance
  cases hc : addCounter b.outSamples aacBlockSamples with
  | none => exact .inr ⟨addCounter_none.1 hc, rfl⟩
  | some n => exact .inl ⟨n, addCounter_some.1 hc, rfl⟩

/-- The advance where the counter fits. -/
theorem advance_fits {b : Buffer} (h : b.outSamples.toNat + 1024 < 2 ^ 64) :
    b.advance = .go { b with outSamples := BitVec.ofNat 64 (b.outSamples.toNat + 1024) } := by
  unfold Buffer.advance
  rw [show aacBlockSamples = 1024 from rfl, addCounter_fits h]

/-- `BUF_CAP` is a bound: what fits, fits when shorter (42_buffer R101). -/
theorem overCap_mono {cfg : Config} {m n : Nat} (hmn : m ≤ n) (h : overCap cfg n = false) : overCap cfg m = false := by
  unfold overCap at *
  split at h <;> simp_all
  omega

@[simp] theorem overCap_zero (cfg : Config) : overCap cfg 0 = false := by
  unfold overCap
  split <;> simp

end Sys2Proof.Machine
end

