-- ==== Sys2Proof/Laws/Track.lean ====
section
/-! SUPPORT. The track operations of the extractor: what each can do to a track, said once. -/

namespace Sys2Proof.Machine

/-- All that any extractor operation does to a track: the window loses bytes at its front, `OUT_SAMPLES` rises by whole
frames, the port grows; `BPS` and `IN_SAMPLES` stay (10_state R38, 44_extractor R146 (a)). -/
structure Track.Grows (t t' : Track) : Prop where
  bps : t'.buf.bps = t.buf.bps
  inSamples : t'.buf.inSamples = t.buf.inSamples
  window : ∃ n, t'.buf.window = t.buf.window.drop n
  out : ∃ k, t'.buf.outSamples.toNat = t.buf.outSamples.toNat + 1024 * k
  port : ∃ x, t'.port = t.port ++ x

theorem grows_refl (t : Track) : t.Grows t := ⟨rfl, rfl, ⟨0, rfl⟩, ⟨0, rfl⟩, [], by simp⟩

theorem grows_trans {a b c : Track} (h1 : a.Grows b) (h2 : b.Grows c) : a.Grows c := by
  obtain ⟨hb1, hi1, ⟨n1, hw1⟩, ⟨k1, ho1⟩, x1, hp1⟩ := h1
  obtain ⟨hb2, hi2, ⟨n2, hw2⟩, ⟨k2, ho2⟩, x2, hp2⟩ := h2
  exact ⟨hb2.trans hb1, hi2.trans hi1, ⟨n1 + n2, by rw [hw2, hw1, List.drop_drop]⟩,
    ⟨k1 + k2, by rw [ho2, ho1]; ring⟩, x1 ++ x2, by rw [hp2, hp1, List.append_assoc]⟩

/-- `SILENCE` emits the template of the recorded channel count and then advances by 1024, or raises after the emission
(46_silence R165, R167; 90_conflicts C9). -/
theorem silence_cases (cfg : Config) (t : Track) :
    (∃ n : BitVec 64, n.toNat = t.buf.outSamples.toNat + 1024 ∧
      silence cfg t = .go ⟨{ t.buf with outSamples := n }, t.port ++ template cfg (channelCountOf t.buf.hdr)⟩) ∨
    (2 ^ 64 ≤ t.buf.outSamples.toNat + 1024 ∧
      silence cfg t = .raised .cntOvf ⟨t.buf, t.port ++ template cfg (channelCountOf t.buf.hdr)⟩) := by
  unfold silence Track.advance
  rcases advance_cases t.buf with ⟨n, hn, h⟩ | ⟨hn, h⟩
  · exact .inl ⟨n, hn, by simp [h, Track.emit]⟩
  · exact .inr ⟨hn, by simp [h, Track.emit]⟩

/-- `n` silence frames of the track's recorded channel count. -/
def silenceBytes (cfg : Config) (t : Track) (n : Nat) : Bytes :=
  (List.replicate n (template cfg (channelCountOf t.buf.hdr))).flatten

theorem driftRounds_go {cfg : Config} {goal : Int} {fuel : Nat} {t t' : Track}
    (hf : goal - t.buf.outSamples.toNat ≤ fuel) (h : driftRounds cfg goal fuel t = .go t') :
    ∃ (k : Nat) (n : BitVec 64), t' = ⟨{ t.buf with outSamples := n }, t.port ++ silenceBytes cfg t k⟩ ∧
      n.toNat = t.buf.outSamples.toNat + 1024 * k ∧ goal ≤ n.toNat + 512 ∧
      ∀ j < k, (t.buf.outSamples.toNat + 1024 * j + 512 : Int) < goal := by
  induction fuel generalizing t with
  | zero =>
    simp only [driftRounds, Flow.go.injEq] at h
    subst h
    exact ⟨0, t.buf.outSamples, by simp [silenceBytes], by simp, by omega, by simp⟩
  | succ fuel ih =>
    rw [driftRounds] at h
    split at h
    · rename_i hlt
      have hlt : (t.buf.outSamples.toNat : Int) + 512 < goal := hlt
      rcases silence_cases cfg t with ⟨m, hm, hs⟩ | ⟨_, hs⟩
      · rw [hs, andThen_go] at h
        obtain ⟨k, n, h1, h2, h3, h4⟩ := ih (t := ⟨{ t.buf with outSamples := m }, _⟩) (by simp only; omega) h
        refine ⟨k + 1, n, ?_, by simp only at h2; omega, h3, ?_⟩
        · rw [h1]; simp [silenceBytes, List.replicate_succ]
        · intro j hj
          cases j with
          | zero => simpa using hlt
          | succ j => have := h4 j (by omega); simp only [hm] at this; push_cast at *; omega
      · rw [hs] at h; simp at h
    · rename_i hge
      have hge : ¬ (t.buf.outSamples.toNat : Int) + 512 < goal := hge
      simp only [Flow.go.injEq] at h
      subst h
      exact ⟨0, t.buf.outSamples, by simp [silenceBytes], by simp, by omega, by simp⟩

/-- The drift loop going on: `k` silence frames, the least number after which the track is within 512 samples of the goal
(44_extractor R139, R142). -/
theorem driftTo_go {cfg : Config} {goal : Int} {t t' : Track} (h : driftTo cfg goal t = .go t') :
    ∃ (k : Nat) (n : BitVec 64), t' = ⟨{ t.buf with outSamples := n }, t.port ++ silenceBytes cfg t k⟩ ∧
      n.toNat = t.buf.outSamples.toNat + 1024 * k ∧ goal ≤ n.toNat + 512 ∧
      ∀ j < k, (t.buf.outSamples.toNat + 1024 * j + 512 : Int) < goal :=
  driftRounds_go (by omega) h

theorem driftRounds_raised {cfg : Config} {goal : Int} {fuel : Nat} {f : UnitFault} {t t' : Track}
    (h : driftRounds cfg goal fuel t = .raised f t') :
    f = .cntOvf ∧ 2 ^ 64 ≤ goal + 512 ∧ ∃ (k : Nat) (n : BitVec 64),
      t' = ⟨{ t.buf with outSamples := n }, t.port ++ silenceBytes cfg t (k + 1)⟩ ∧
      n.toNat = t.buf.outSamples.toNat + 1024 * k ∧ (n.toNat + 512 : Int) < goal ∧ 2 ^ 64 ≤ n.toNat + 1024 := by
  induction fuel generalizing t with
  | zero => simp [driftRounds] at h
  | succ fuel ih =>
    rw [driftRounds] at h
    split at h
    · rename_i hlt
      have hlt : (t.buf.outSamples.toNat : Int) + 512 < goal := hlt
      rcases silence_cases cfg t with ⟨m, hm, hs⟩ | ⟨hge, hs⟩
      · rw [hs, andThen_go] at h
        obtain ⟨h0, h1, k, n, h2, h3, h4⟩ := ih h
        refine ⟨h0, h1, k + 1, n, ?_, by simp only at h3; omega, h4⟩
        rw [h2]; simp [silenceBytes, List.replicate_succ]
      · rw [hs, andThen_raised, Flow.raised.injEq] at h
        obtain ⟨rfl, rfl⟩ := h
        exact ⟨rfl, by omega, 0, t.buf.outSamples, by simp [silenceBytes], by simp, hlt, hge⟩
    · simp at h

/-- The drift loop raising: `F_CNT_OVF`, after an emission that was due and whose 1024 samples did not fit; it takes a goal
within 512 of `2^64` (60_exceptions R213). -/
theorem driftTo_raised {cfg : Config} {goal : Int} {f : UnitFault} {t t' : Track}
    (h : driftTo cfg goal t = .raised f t') :
    f = .cntOvf ∧ 2 ^ 64 ≤ goal + 512 ∧ ∃ (k : Nat) (n : BitVec 64),
      t' = ⟨{ t.buf with outSamples := n }, t.port ++ silenceBytes cfg t (k + 1)⟩ ∧
      n.toNat = t.buf.outSamples.toNat + 1024 * k ∧ (n.toNat + 512 : Int) < goal ∧ 2 ^ 64 ≤ n.toNat + 1024 :=
  driftRounds_raised h

/-- The drift loop keeps the window and the header and grows the rest. -/
theorem driftTo_grows (cfg : Config) (goal : Int) (t : Track) :
    t.Grows (driftTo cfg goal t).state ∧ (driftTo cfg goal t).state.buf.window = t.buf.window ∧
      (driftTo cfg goal t).state.buf.hdr = t.buf.hdr := by
  cases h : driftTo cfg goal t with
  | go t' =>
    obtain ⟨k, n, rfl, hn, _⟩ := driftTo_go h
    exact ⟨⟨rfl, rfl, ⟨0, rfl⟩, ⟨k, hn⟩, _, rfl⟩, rfl, rfl⟩
  | raised f t' =>
    obtain ⟨_, _, k, n, rfl, hn, _⟩ := driftTo_raised h
    exact ⟨⟨rfl, rfl, ⟨0, rfl⟩, ⟨k, hn⟩, _, rfl⟩, rfl, rfl⟩

end Sys2Proof.Machine
end

