-- ==== Sys2Proof/Laws/Extractor.lean ====
section
/-! SUPPORT. One extraction attempt and the decode loop: everything they can answer. -/

namespace Sys2Proof.Machine

/-- The resynchronisation scan moves forward only, keeps below `pf`, and changes only `HDR` (44_extractor R134). -/
theorem resyncRounds_spec (cfg : Config) (w : Bytes) (pf fuel : Nat) (m : Marked) (hpf : pf ≤ w.length) :
    m.ps ≤ (resyncRounds cfg w pf fuel m).ps ∧
      ((resyncRounds cfg w pf fuel m).ps = m.ps ∨ (resyncRounds cfg w pf fuel m).ps + 8 ≤ pf) ∧
      (resyncRounds cfg w pf fuel m).buf = { m.buf with hdr := (resyncRounds cfg w pf fuel m).buf.hdr } := by
  induction fuel generalizing m with
  | zero => simp [resyncRounds]
  | succ fuel ih =>
    rw [resyncRounds]
    split
    · simp
    · rename_i q hq
      have h1 := (find_some hq).1
      have h2 := find_fits hq
      simp only [List.length_take, startBytes_length] at h2
      obtain ⟨i1, i2, i3⟩ := ih ⟨q, m.buf.recordHeader (headerAt w q)⟩
      simp only at i1 i2 i3
      refine ⟨by omega, .inr (by omega), ?_⟩
      rw [i3]
      simp [Buffer.recordHeader]

/-- A frame's timestamp is never later than the track's input (44_extractor R137). -/
theorem frameStart_le (b : Buffer) (ps : Nat) (h : ps ≤ b.window.length) : frameStart b ps ≤ b.inSamples.toNat := by
  have := Nat.div_le_div_right (c := b.bps.toNat) h
  simp only [frameStart, Buffer.inStart]
  omega

/-- Everything `emitFrame` can answer (44_extractor R139, R140). -/
theorem emitFrame_cases (cfg : Config) (t : Track) (ps pf : Nat) :
    (∃ t1 t2 : Track, driftTo cfg (frameStart t.buf ps) t = .go t1 ∧
      (∃ n : BitVec 64, n.toNat = t1.buf.outSamples.toNat + 1024 ∧
        t2 = ⟨{ t1.buf with outSamples := n }, t1.port ++ blockOf t.buf.window ps pf⟩) ∧
      emitFrame cfg t ps pf = .produced (t2.consume (pf + 12))) ∨
    (∃ t1 : Track, driftTo cfg (frameStart t.buf ps) t = .go t1 ∧ 2 ^ 64 ≤ t1.buf.outSamples.toNat + 1024 ∧
      emitFrame cfg t ps pf = .raised .cntOvf ⟨t1.buf, t1.port ++ blockOf t.buf.window ps pf⟩) ∨
    (∃ t1 : Track, driftTo cfg (frameStart t.buf ps) t = .raised .cntOvf t1 ∧
      emitFrame cfg t ps pf = .raised .cntOvf t1) := by
  unfold emitFrame
  cases hd : driftTo cfg (frameStart t.buf ps) t with
  | raised f t1 =>
    obtain ⟨rfl, _⟩ := driftTo_raised hd
    exact .inr (.inr ⟨t1, rfl, by simp⟩)
  | go t1 =>
    rcases advance_cases t1.buf with ⟨n, hn, h⟩ | ⟨hn, h⟩
    · exact .inl ⟨t1, _, rfl, ⟨n, hn, rfl⟩, by simp [Track.advance, Track.emit, h]⟩
    · exact .inr (.inl ⟨t1, rfl, hn, by simp [Track.advance, Track.emit, h]⟩)

/-- The track an attempt leaves. -/
def Attempt.track : Attempt → Track
  | .produced t => t
  | .noFrame t => t
  | .raised _ t => t

/-- An emitted frame, or a raise, only grows the track; an emission consumes through `pf + 12`. -/
theorem emitFrame_grows (cfg : Config) (t : Track) (ps pf : Nat) :
    t.Grows (emitFrame cfg t ps pf).track ∧
      (∀ t', emitFrame cfg t ps pf = .produced t' → t'.buf.window = t.buf.window.drop (pf + 12)) ∧
      (∀ t', emitFrame cfg t ps pf ≠ .noFrame t') := by
  obtain ⟨hg, hw, _⟩ := driftTo_grows cfg (frameStart t.buf ps) t
  rcases emitFrame_cases cfg t ps pf with ⟨t1, t2, h1, ⟨n, hn, rfl⟩, h⟩ | ⟨t1, h1, _, h⟩ | ⟨t1, h1, h⟩ <;>
    rw [h1] at hg hw <;> simp only [state_go, state_raised] at hg hw <;> rw [h]
  · refine ⟨grows_trans hg ⟨rfl, rfl, ⟨pf + 12, rfl⟩, ⟨1, by simpa [Attempt.track, Track.consume] using hn⟩, _, rfl⟩, ?_,
      by simp⟩
    intro t' ht
    simp only [Attempt.produced.injEq] at ht
    subst ht
    simp [hw]
  · exact ⟨grows_trans hg ⟨rfl, rfl, ⟨0, rfl⟩, ⟨0, rfl⟩, _, rfl⟩, by simp, by simp⟩
  · exact ⟨hg, by simp, by simp⟩

theorem consume_grows (t : Track) (n : Nat) : t.Grows (t.consume n) := ⟨rfl, rfl, ⟨n, rfl⟩, ⟨0, rfl⟩, [], by simp⟩

/-- The judgement of a found frame only grows the track, consumes through `pf + 12` when it produces, and never answers
`NoFrame` (44_extractor R136, R138, R140). -/
theorem judgeFrame_grows (cfg : Config) (t : Track) (ps pf : Nat) :
    t.Grows (judgeFrame cfg t ps pf).track ∧
      (∀ t', judgeFrame cfg t ps pf = .produced t' → t'.buf.window = t.buf.window.drop (pf + 12)) ∧
      (∀ t', judgeFrame cfg t ps pf ≠ .noFrame t') := by
  unfold judgeFrame
  split
  · exact ⟨consume_grows t _, by rintro t' ⟨⟩; rfl, by simp⟩
  · split
    · exact ⟨consume_grows t _, by rintro t' ⟨⟩; rfl, by simp⟩
    · exact emitFrame_grows cfg t ps pf

/-- A raise of the judgement: `F_CNT_OVF`, and the track's input within 1536 samples of `2^64`. -/
theorem judgeFrame_raised {cfg : Config} {t t' : Track} {ps pf : Nat} {f : UnitFault} (hps : ps ≤ t.buf.window.length)
    (h : judgeFrame cfg t ps pf = .raised f t') : f = .cntOvf ∧ 2 ^ 64 ≤ t.buf.inSamples.toNat + 1536 := by
  unfold judgeFrame at h
  split at h
  · simp at h
  split at h
  · simp at h
  rename_i hs
  simp only [stale, decide_eq_true_eq] at hs
  have hs : ¬ frameStart t.buf ps + 512 < t.buf.outSamples.toNat := hs
  have hle := frameStart_le t.buf ps hps
  rcases emitFrame_cases cfg t ps pf with ⟨t1, t2, _, _, he⟩ | ⟨t1, hd, hge, he⟩ | ⟨t1, hd, he⟩
  · rw [he] at h; simp at h
  · rw [he, Attempt.raised.injEq] at h
    refine ⟨h.1.symm, ?_⟩
    obtain ⟨k, n, rfl, hn, _, hk⟩ := driftTo_go hd
    simp only at hge
    cases k with
    | zero => omega
    | succ k => have := hk k (by omega); push_cast at *; omega
  · rw [he, Attempt.raised.injEq] at h
    have := (driftTo_raised hd).2.1
    exact ⟨h.1.symm, by omega⟩

/-- Everything an attempt can answer (44_extractor R131 to R133, R143): three ways of `NoFrame`, or the judgement of a
frame whose markers lie in the window. -/
theorem extractOne_cases (cfg : Config) (t : Track) :
    (find t.buf.window cfg.startBytes 0 = none ∧ extractOne cfg t = .noFrame t) ∨
    (∃ ps, find t.buf.window cfg.startBytes 0 = some ps ∧
      ((t.buf.window.length < ps + 15 ∧ extractOne cfg t = .noFrame t) ∨
       (ps + 15 ≤ t.buf.window.length ∧ find t.buf.window cfg.endBytes (ps + 15) = none ∧
          extractOne cfg t = .noFrame { t with buf := t.buf.recordHeader (headerAt t.buf.window ps) }) ∨
       (ps + 15 ≤ t.buf.window.length ∧ ∃ pf, find t.buf.window cfg.endBytes (ps + 15) = some pf ∧
          ps + 15 ≤ pf ∧ pf + 12 ≤ t.buf.window.length ∧
          ∃ m : Marked, m = resync cfg t.buf.window pf ⟨ps, t.buf.recordHeader (headerAt t.buf.window ps)⟩ ∧
            m.buf = { t.buf with hdr := m.buf.hdr } ∧ ps ≤ m.ps ∧ m.ps + 8 ≤ pf ∧
            extractOne cfg t = judgeFrame cfg { t with buf := m.buf } m.ps pf))) := by
  unfold extractOne
  dsimp only
  cases hs : find t.buf.window cfg.startBytes 0 with
  | none => exact .inl ⟨rfl, rfl⟩
  | some ps =>
    refine .inr ⟨ps, rfl, ?_⟩
    by_cases hl : t.buf.window.length < ps + 15
    · exact .inl ⟨hl, by simp [hl]⟩
    · have hl' : ps + 15 ≤ t.buf.window.length := by omega
      simp only [if_neg hl]
      cases he : find t.buf.window cfg.endBytes (ps + 15) with
      | none => exact .inr (.inl ⟨hl', rfl, rfl⟩)
      | some pf =>
        have h1 := (find_some he).1
        have h2 := find_fits he
        simp only [endBytes_length] at h2
        obtain ⟨i1, i2, i3⟩ := resyncRounds_spec cfg t.buf.window pf pf
          ⟨ps, t.buf.recordHeader (headerAt t.buf.window ps)⟩ (by omega)
        exact .inr (.inr ⟨hl', pf, rfl, h1, h2, _, rfl, by
          rw [resync, i3]; simp [Buffer.recordHeader], i1, by
          simp only at i1 i2; rw [resync]; omega, rfl⟩)

theorem recorded_grows (t : Track) (b : Buffer) (h : b = { t.buf with hdr := b.hdr }) : t.Grows { t with buf := b } :=
  ⟨by rw [h], by rw [h], ⟨0, by rw [h]; rfl⟩, ⟨0, by rw [h]; simp⟩, [], by simp⟩

/-- An attempt only grows the track. -/
theorem extractOne_grows (cfg : Config) (t : Track) : t.Grows (extractOne cfg t).track := by
  rcases extractOne_cases cfg t with ⟨_, h⟩ | ⟨ps, _, ⟨_, h⟩ | ⟨_, _, h⟩ | ⟨_, pf, _, _, _, m, _, hm, _, _, h⟩⟩ <;> rw [h]
  · exact grows_refl t
  · exact grows_refl t
  · exact recorded_grows t _ rfl
  · exact grows_trans (recorded_grows t m.buf hm) (judgeFrame_grows cfg _ m.ps pf).1

/-- `NoFrame` leaves everything but `HDR` (44_extractor R144). -/
theorem extractOne_noFrame {cfg : Config} {t t' : Track} (h : extractOne cfg t = .noFrame t') :
    t'.port = t.port ∧ t'.buf = { t.buf with hdr := t'.buf.hdr } := by
  rcases extractOne_cases cfg t with ⟨_, h'⟩ | ⟨ps, _, ⟨_, h'⟩ | ⟨_, _, h'⟩ | ⟨_, pf, _, _, _, m, _, _, _, _, h'⟩⟩ <;>
    rw [h'] at h
  · simp only [Attempt.noFrame.injEq] at h; subst h; exact ⟨rfl, rfl⟩
  · simp only [Attempt.noFrame.injEq] at h; subst h; exact ⟨rfl, rfl⟩
  · simp only [Attempt.noFrame.injEq] at h; subst h; exact ⟨rfl, rfl⟩
  · exact absurd h ((judgeFrame_grows cfg _ m.ps pf).2.2 t')

/-- `Produced` takes at least 27 bytes off the front of the window (44_extractor R144). -/
theorem extractOne_produced {cfg : Config} {t t' : Track} (h : extractOne cfg t = .produced t') :
    ∃ n, 27 ≤ n ∧ n ≤ t.buf.window.length ∧ t'.buf.window = t.buf.window.drop n := by
  rcases extractOne_cases cfg t with
    ⟨_, h'⟩ | ⟨ps, _, ⟨_, h'⟩ | ⟨_, _, h'⟩ | ⟨_, pf, _, _, _, m, _, hm, _, _, h'⟩⟩ <;> rw [h'] at h
  · simp at h
  · simp at h
  · simp at h
  · have := (judgeFrame_grows cfg _ m.ps pf).2.1 t' h
    exact ⟨pf + 12, by omega, by omega, by rw [this, hm]⟩

/-- A raise of an attempt: `F_CNT_OVF`, and the track's input within 1536 samples of `2^64` (60_exceptions R213). -/
theorem extractOne_raised {cfg : Config} {t t' : Track} {f : UnitFault} (h : extractOne cfg t = .raised f t') :
    f = .cntOvf ∧ 2 ^ 64 ≤ t.buf.inSamples.toNat + 1536 := by
  rcases extractOne_cases cfg t with
    ⟨_, h'⟩ | ⟨ps, _, ⟨_, h'⟩ | ⟨_, _, h'⟩ | ⟨_, pf, _, _, _, m, _, hm, _, _, h'⟩⟩ <;> rw [h'] at h
  · simp at h
  · simp at h
  · simp at h
  · have := judgeFrame_raised (by rw [hm]; simp only; omega) h
    rw [hm] at this
    exact this

/-- The decode loop of one track only grows it. -/
theorem extractRounds_grows (cfg : Config) (fuel : Nat) (t : Track) : t.Grows (extractRounds cfg fuel t).state := by
  induction fuel generalizing t with
  | zero => exact grows_refl t
  | succ fuel ih =>
    rw [extractRounds]
    have hg := extractOne_grows cfg t
    split <;> rename_i h <;> rw [h] at hg
    · exact grows_trans hg (ih _)
    · exact hg
    · exact hg

theorem extractTrack_grows (cfg : Config) (t : Track) : t.Grows (extractTrack cfg t).state := extractRounds_grows cfg _ t

/-- The decode loop raises only `F_CNT_OVF`, with the track's input within 1536 samples of `2^64`. -/
theorem extractRounds_raised {cfg : Config} {fuel : Nat} {t t' : Track} {f : UnitFault}
    (h : extractRounds cfg fuel t = .raised f t') : f = .cntOvf ∧ 2 ^ 64 ≤ t.buf.inSamples.toNat + 1536 := by
  induction fuel generalizing t with
  | zero => simp [extractRounds] at h
  | succ fuel ih =>
    rw [extractRounds] at h
    split at h <;> rename_i h1
    · have := ih h
      rwa [((by simpa [h1, Attempt.track] using extractOne_grows cfg t : t.Grows _)).inSamples] at this
    · simp at h
    · obtain ⟨rfl, rfl⟩ : _ ∧ _ := by simpa using h
      exact extractOne_raised h1

theorem extractTrack_raised {cfg : Config} {t t' : Track} {f : UnitFault} (h : extractTrack cfg t = .raised f t') :
    f = .cntOvf ∧ 2 ^ 64 ≤ t.buf.inSamples.toNat + 1536 := extractRounds_raised h

/-- The decode loop goes on only to a track on which the attempt last made answered `NoFrame` (44_extractor R141): the
fuel is enough. -/
theorem extractRounds_go {cfg : Config} {fuel : Nat} {t t' : Track} (hf : t.buf.window.length < fuel)
    (h : extractRounds cfg fuel t = .go t') : ∃ t0, extractOne cfg t0 = .noFrame t' := by
  induction fuel generalizing t with
  | zero => omega
  | succ fuel ih =>
    rw [extractRounds] at h
    split at h <;> rename_i t1 h1
    · obtain ⟨n, h2, h3, h4⟩ := extractOne_produced h1
      exact ih (by rw [h4]; simp; omega) h
    · simp only [Flow.go.injEq] at h; subst h; exact ⟨t, h1⟩
    · simp at h

theorem extractTrack_go {cfg : Config} {t t' : Track} (h : extractTrack cfg t = .go t') :
    ∃ t0, extractOne cfg t0 = .noFrame t' := extractRounds_go (by omega) h

end Sys2Proof.Machine
end

