-- ==== Sys2Proof/Laws/Decoder.lean ====
section
/-! SUPPORT. The detector and the operations over the decoder's tracks: for each, once, everything it can answer. -/

namespace Sys2Proof.Machine

/-- What an extractor operation does to a buffer (the buffer's part of `Track.Grows`). -/
structure Buffer.Ages (b b' : Buffer) : Prop where
  bps : b'.bps = b.bps
  inSamples : b'.inSamples = b.inSamples
  window : ∃ n, b'.window = b.window.drop n
  out : ∃ k, b'.outSamples.toNat = b.outSamples.toNat + 1024 * k

theorem ages_refl (b : Buffer) : b.Ages b := ⟨rfl, rfl, ⟨0, rfl⟩, ⟨0, rfl⟩⟩

theorem grows_ages {t t' : Track} (h : t.Grows t') : t.buf.Ages t'.buf := ⟨h.bps, h.inSamples, h.window, h.out⟩

/-- What the extraction or the drain of the active tracks does to `DEC`: nothing but the active buffers and their ports
(10_state R23, 44_extractor R148). -/
structure DecIO.Grows (d d' : DecIO) : Prop where
  fields : ∃ r l h, d'.dec = { d.dec with raw := r, lo := l, hi := h }
  raw : d.dec.raw.Ages d'.dec.raw
  lo : d.dec.lo.Ages d'.dec.lo
  hi : d.dec.hi.Ages d'.dec.hi
  portA : ∃ x, d'.doutA = d.doutA ++ x
  portB : ∃ x, d'.doutB = d.doutB ++ x
  onlyUnknown : d.dec.mode = .unknown → d' = d
  onlyFull : d.dec.mode = .full → d'.dec.lo = d.dec.lo ∧ d'.dec.hi = d.dec.hi ∧ d'.doutB = d.doutB
  onlyHalf : d.dec.mode = .half → d'.dec.raw = d.dec.raw ∧ d'.dec.hi = d.dec.hi ∧ d'.doutB = d.doutB
  onlyMix : d.dec.mode = .mix → d'.dec.raw = d.dec.raw

/-- An operation that only grows tracks, run over the active tracks, only grows `DEC`. -/
theorem onTracks_grows (d : DecIO) (k : Track → Flow Track) (hk : ∀ t : Track, t.Grows (k t).state) :
    d.Grows (d.onTracks k).state := by
  unfold DecIO.onTracks
  cases hm : d.dec.mode with
  | unknown => exact ⟨⟨_, _, _, rfl⟩, ages_refl _, ages_refl _, ages_refl _, ⟨[], by simp⟩, ⟨[], by simp⟩, by simp,
      by simp [hm], by simp [hm], by simp [hm]⟩
  | full =>
    have h := hk ⟨d.dec.raw, d.doutA⟩
    simp only [DecIO.onRaw, state_map]
    exact ⟨⟨_, _, _, rfl⟩, grows_ages h, ages_refl _, ages_refl _, h.port, ⟨[], by simp⟩, by simp [hm], by simp,
      by simp [hm], by simp [hm]⟩
  | half =>
    have h := hk ⟨d.dec.lo, d.doutA⟩
    simp only [DecIO.onLoA, state_map]
    exact ⟨⟨_, _, _, rfl⟩, ages_refl _, grows_ages h, ages_refl _, h.port, ⟨[], by simp⟩, by simp [hm], by simp [hm],
      by simp, by simp [hm]⟩
  | mix =>
    have h1 := hk ⟨d.dec.lo, d.doutB⟩
    have h2 := hk ⟨d.dec.hi, d.doutA⟩
    simp only [DecIO.onLoB]
    cases hr : k ⟨d.dec.lo, d.doutB⟩ with
    | raised f t =>
      rw [hr] at h1
      exact ⟨⟨_, _, _, rfl⟩, ages_refl _, grows_ages h1, ages_refl _, ⟨[], by simp⟩, h1.port, by simp [hm], by simp [hm],
        by simp [hm], by simp⟩
    | go t =>
      rw [hr] at h1
      simp only [map_go, andThen_go, DecIO.onHi, state_map]
      exact ⟨⟨_, _, _, rfl⟩, ages_refl _, grows_ages h1, grows_ages h2, h2.port, h1.port, by simp [hm], by simp [hm],
        by simp [hm], by simp⟩

/-- A raise over the active tracks is a raise of one of them. -/
theorem onTracks_raised {d d' : DecIO} {k : Track → Flow Track} {f : UnitFault} (h : d.onTracks k = .raised f d') :
    ∃ b p t, (b = d.dec.raw ∨ b = d.dec.lo ∨ b = d.dec.hi) ∧ k ⟨b, p⟩ = .raised f t := by
  unfold DecIO.onTracks at h
  cases hm : d.dec.mode <;> rw [hm] at h <;> dsimp only at h
  · simp at h
  · obtain ⟨t, ht, _⟩ := map_eq_raised.1 h
    exact ⟨_, _, t, .inl rfl, ht⟩
  · obtain ⟨t, ht, _⟩ := map_eq_raised.1 h
    exact ⟨_, _, t, .inr (.inl rfl), ht⟩
  · rcases andThen_eq_raised.1 h with h | ⟨d1, h1, h⟩
    · obtain ⟨t, ht, _⟩ := map_eq_raised.1 h
      exact ⟨_, _, t, .inr (.inl rfl), ht⟩
    · obtain ⟨t, ht, _⟩ := map_eq_raised.1 h
      obtain ⟨u, _, rfl⟩ := map_eq_go.1 h1
      exact ⟨_, _, t, .inr (.inr rfl), ht⟩

/-- `EXTRACT_ALL` only grows `DEC` (44_extractor R141). -/
theorem extractAll_grows (cfg : Config) (d : DecIO) : d.Grows (extractAll cfg d).state :=
  onTracks_grows d _ (extractTrack_grows cfg)

theorem extractAll_raised {cfg : Config} {d d' : DecIO} {f : UnitFault} (h : extractAll cfg d = .raised f d') :
    f = .cntOvf := by
  obtain ⟨b, p, t, _, h⟩ := onTracks_raised h
  exact (extractTrack_raised h).1

/-- `DRAIN` only grows `DEC` (44_extractor R142). -/
theorem drain_grows (cfg : Config) (d : DecIO) : d.Grows (drain cfg d).state :=
  onTracks_grows d _ (fun t => (driftTo_grows cfg _ t).1)

theorem drain_raised {cfg : Config} {d d' : DecIO} {f : UnitFault} (h : drain cfg d = .raised f d') : f = .cntOvf := by
  obtain ⟨b, p, t, _, h⟩ := onTracks_raised h
  exact (driftTo_raised h).1

/-! ## The detector -/

/-- A sub-track derived into a cleared buffer (43_detector R122, R123). -/
def derived (b : Buffer) (lane : Lane) (w : Bytes) (n : BitVec 64) : Buffer :=
  { b.clear with window := laneBytes lane w, inSamples := n }

/-- All that a derivation into a cleared buffer can answer. -/
theorem derive_cases (cfg : Config) (b : Buffer) (lane : Lane) (w : Bytes) :
    (overCap cfg (w.length / 2) = true ∧ b.clear.appendPacked cfg lane w = .raised .bufOvf b.clear) ∨
    (overCap cfg (w.length / 2) = false ∧ ∃ n : BitVec 64, n.toNat = w.length / 2 / b.bps.toNat ∧
      b.clear.appendPacked cfg lane w = .go (derived b lane w n)) ∨
    (overCap cfg (w.length / 2) = false ∧ 2 ^ 64 ≤ w.length / 2 / b.bps.toNat ∧
      b.clear.appendPacked cfg lane w = .raised .cntOvf (derived b lane w 0#64)) := by
  have := append_cases cfg b.clear (laneBytes lane w)
  simpa [Buffer.appendPacked, Buffer.clear, derived] using this

/-- The state of `DEC` after a derivation of the one Half sub-track that fits (43_detector R122). -/
def halfOf (d : Dec) : Dec :=
  { d with
    mode := .half
    lo := derived d.lo .low d.raw.window (BitVec.ofNat 64 (d.raw.window.length / 2 / d.lo.bps.toNat))
    raw := d.raw.clear }

/-- `DEC` with both sub-tracks derived and fitting (43_detector R123). -/
def lanesOf (d : Dec) : Dec :=
  { d with
    lo := derived d.lo .low d.raw.window (BitVec.ofNat 64 (d.raw.window.length / 2 / d.lo.bps.toNat))
    hi := derived d.hi .high d.raw.window (BitVec.ofNat 64 (d.raw.window.length / 2 / d.hi.bps.toNat)) }

/-- Both lanes show the start-marker: mode `Mix`, the raw buffer discarded. -/
theorem keepIfMix_both {cfg : Config} {d : Dec} (h : (showsStart cfg d.lo.window && showsStart cfg d.hi.window) = true) :
    keepIfMix cfg d = { d with mode := .mix, raw := d.raw.clear } := if_pos h

/-- Not both: the sub-tracks discarded, the mode as it was. -/
theorem keepIfMix_notBoth {cfg : Config} {d : Dec}
    (h : (showsStart cfg d.lo.window && showsStart cfg d.hi.window) = false) :
    keepIfMix cfg d = { d with lo := d.lo.clear, hi := d.hi.clear } := if_neg (by simp [h])

/-- The detector's decision with the sub-tracks fitting, in priority order (43_detector R121 to R124). -/
theorem classify_fits {cfg : Config} {d : Dec} (hc : overCap cfg (d.raw.window.length / 2) = false)
    (hl : d.raw.window.length / 2 / d.lo.bps.toNat < 2 ^ 64) (hh : d.raw.window.length / 2 / d.hi.bps.toNat < 2 ^ 64) :
    classify cfg d = .go
      (if showsStart cfg d.raw.window then { d with mode := .full }
       else if (find d.raw.window cfg.probeBytes 0).isSome then halfOf d
       else keepIfMix cfg (lanesOf d)) := by
  have hlo : d.lo.clear.appendPacked cfg .low d.raw.window =
      .go (derived d.lo .low d.raw.window (BitVec.ofNat 64 (d.raw.window.length / 2 / d.lo.bps.toNat))) := by
    rw [Buffer.appendPacked, append_fits]
    · simp [Buffer.clear, derived]
    · simpa [Buffer.clear] using hc
    · simp [Buffer.clear]; omega
  have hhi : d.hi.clear.appendPacked cfg .high d.raw.window =
      .go (derived d.hi .high d.raw.window (BitVec.ofNat 64 (d.raw.window.length / 2 / d.hi.bps.toNat))) := by
    rw [Buffer.appendPacked, append_fits]
    · simp [Buffer.clear, derived]
    · simpa [Buffer.clear] using hc
    · simp [Buffer.clear]; omega
  unfold classify detectHalf detectMix Dec.onLo Dec.onHi
  dsimp only
  rw [hlo]
  simp only [map_go, andThen_go, hhi]
  split
  · rfl
  · split <;> rfl

/-- What the detector leaves in every outcome, raised ones included: phase, `NCH`, `ERR` and every `BPS`; buffers that
stay within their bound; nothing emitted by a buffer it touches (43_detector R121). -/
structure Dec.Detected (cfg : Config) (d d' : Dec) : Prop where
  phase : d'.phase = d.phase
  nch : d'.nch = d.nch
  err : d'.err = d.err
  rawBps : d'.raw.bps = d.raw.bps
  loBps : d'.lo.bps = d.lo.bps
  hiBps : d'.hi.bps = d.hi.bps
  rawOut : d'.raw.outSamples = d.raw.outSamples ∨ d'.raw.outSamples = 0#64
  loOut : d'.lo.outSamples = d.lo.outSamples ∨ d'.lo.outSamples = 0#64
  hiOut : d'.hi.outSamples = d.hi.outSamples ∨ d'.hi.outSamples = 0#64
  rawCap : overCap cfg d.raw.window.length = false → overCap cfg d'.raw.window.length = false
  loCap : overCap cfg d.lo.window.length = false → overCap cfg d'.lo.window.length = false
  hiCap : overCap cfg d.hi.window.length = false → overCap cfg d'.hi.window.length = false

/-- Three ways a derivation leaves the buffer: cleared, derived with its count, derived without it. -/
theorem derive_state (cfg : Config) (b : Buffer) (lane : Lane) (w : Bytes) :
    (b.clear.appendPacked cfg lane w).state.bps = b.bps ∧ (b.clear.appendPacked cfg lane w).state.outSamples = 0#64 ∧
      overCap cfg (b.clear.appendPacked cfg lane w).state.window.length = false ∧
      ∀ f x, b.clear.appendPacked cfg lane w = .raised f x → f = .bufOvf ∨ f = .cntOvf := by
  rcases derive_cases cfg b lane w with ⟨_, h⟩ | ⟨ho, n, _, h⟩ | ⟨ho, _, h⟩ <;> rw [h] <;>
    simp_all [Buffer.clear, derived]

theorem detected_refl (cfg : Config) (d : Dec) : d.Detected cfg d :=
  ⟨rfl, rfl, rfl, rfl, rfl, rfl, .inl rfl, .inl rfl, .inl rfl, id, id, id⟩

theorem classify_detected (cfg : Config) (d : Dec) :
    d.Detected cfg (classify cfg d).state ∧ ∀ f x, classify cfg d = .raised f x → f = .bufOvf ∨ f = .cntOvf := by
  obtain ⟨l1, l2, l3, l4⟩ := derive_state cfg d.lo .low d.raw.window
  obtain ⟨h1, h2, h3, h4⟩ := derive_state cfg d.hi .high d.raw.window
  unfold classify detectHalf detectMix Dec.onLo Dec.onHi
  dsimp only
  cases hlo : d.lo.clear.appendPacked cfg .low d.raw.window with
  | raised f x =>
    rw [hlo] at l1 l2 l3 l4
    simp only [state_raised] at l1 l2 l3
    simp only [map_raised, andThen_raised]
    split
    · exact ⟨⟨rfl, rfl, rfl, rfl, rfl, rfl, .inl rfl, .inl rfl, .inl rfl, id, id, id⟩, by simp⟩
    · split <;> exact ⟨⟨rfl, rfl, rfl, rfl, l1, rfl, .inl rfl, .inr l2, .inl rfl, id, fun _ => l3, id⟩,
        by rintro f' x' ⟨⟩; exact l4 f x rfl⟩
  | go lo =>
    rw [hlo] at l1 l2 l3 l4
    simp only [state_go] at l1 l2 l3
    simp only [map_go, andThen_go]
    split
    · exact ⟨⟨rfl, rfl, rfl, rfl, rfl, rfl, .inl rfl, .inl rfl, .inl rfl, id, id, id⟩, by simp⟩
    · split
      · exact ⟨⟨rfl, rfl, rfl, rfl, l1, rfl, .inr rfl, .inr l2, .inl rfl, by simp [Buffer.clear], fun _ => l3, id⟩,
          by simp⟩
      · cases hhi : d.hi.clear.appendPacked cfg .high d.raw.window with
        | raised f x =>
          rw [hhi] at h1 h2 h3 h4
          exact ⟨⟨rfl, rfl, rfl, rfl, l1, h1, .inl rfl, .inr l2, .inr h2, id, fun _ => l3, fun _ => h3⟩,
            by rintro f' x' ⟨⟩; exact h4 f x rfl⟩
        | go hi =>
          rw [hhi] at h1 h2 h3 h4
          simp only [state_go] at h1 h2 h3
          simp only [map_go, andThen_go, state_go]
          unfold keepIfMix
          split
          · exact ⟨⟨rfl, rfl, rfl, rfl, l1, h1, .inr rfl, .inr l2, .inr h2, by simp [Buffer.clear], fun _ => l3,
              fun _ => h3⟩, by simp⟩
          · exact ⟨⟨rfl, rfl, rfl, rfl, by simpa [Buffer.clear] using l1, by simpa [Buffer.clear] using h1, .inl rfl,
              .inr rfl, .inr rfl, id, by simp [Buffer.clear], by simp [Buffer.clear]⟩, by simp⟩

end Sys2Proof.Machine
end

