-- ==== Sys2Proof/Laws/Encoding.lean ====
section
/-! SUPPORT. The fields of a packed command word, and the selectors' codes. -/

namespace Sys2Proof

/-- Bit `i` of a packed word (30_encoding R61). -/
theorem packWord_getLsbD (op sel : BitVec 8) (arg : BitVec 32) (i : Nat) :
    (packWord op sel arg).getLsbD i =
      if i < 32 then arg.getLsbD i else if i < 48 then false else if i < 56 then sel.getLsbD (i - 48)
      else op.getLsbD (i - 56) := by
  change BitVec.getLsbD (w := 8 + 8 + 16 + 32) (op ++ sel ++ (0 : BitVec 16) ++ arg) i = _
  simp only [BitVec.getLsbD_append]
  by_cases h1 : i < 32
  · simp [h1]
  · by_cases h2 : i < 48
    · simp [h1, h2, show i - 32 < 16 by omega]
    · by_cases h3 : i < 56
      · simp [h1, h2, h3, show ¬ i - 32 < 16 by omega, show i - 32 - 16 = i - 48 by omega,
          show i - 48 < 8 by omega]
      · simp [h1, h2, h3, show ¬ i - 32 < 16 by omega, show i - 32 - 16 = i - 48 by omega,
          show ¬ i - 48 < 8 by omega, show i - 48 - 8 = i - 56 by omega]

@[simp] theorem opField_packWord (op sel : BitVec 8) (arg : BitVec 32) : opField (packWord op sel arg) = op := by
  apply BitVec.eq_of_getLsbD_eq
  intro i hi
  rw [opField, BitVec.getLsbD_extractLsb', packWord_getLsbD, if_neg (by omega), if_neg (by omega), if_neg (by omega)]
  simp [hi]

@[simp] theorem selField_packWord (op sel : BitVec 8) (arg : BitVec 32) : selField (packWord op sel arg) = sel := by
  apply BitVec.eq_of_getLsbD_eq
  intro i hi
  rw [selField, BitVec.getLsbD_extractLsb', packWord_getLsbD, if_neg (by omega), if_neg (by omega), if_pos (by omega)]
  simp [hi]

@[simp] theorem rsvdField_packWord (op sel : BitVec 8) (arg : BitVec 32) : rsvdField (packWord op sel arg) = 0 := by
  apply BitVec.eq_of_getLsbD_eq
  intro i hi
  rw [rsvdField, BitVec.getLsbD_extractLsb', packWord_getLsbD, if_neg (by omega), if_pos (by omega)]
  simp

@[simp] theorem argField_packWord (op sel : BitVec 8) (arg : BitVec 32) : argField (packWord op sel arg) = arg := by
  apply BitVec.eq_of_getLsbD_eq
  intro i hi
  rw [argField, BitVec.getLsbD_extractLsb', packWord_getLsbD, if_pos (by omega)]
  simp [hi]

/-- A word with `RSVD = 0` is packed from its own fields (30_encoding R61). -/
theorem packWord_fields {w : Word64} (h : rsvdField w = 0) : packWord (opField w) (selField w) (argField w) = w := by
  apply BitVec.eq_of_getLsbD_eq
  intro i hi
  rw [packWord_getLsbD]
  simp only [argField, selField, opField, BitVec.getLsbD_extractLsb']
  split
  · rename_i h1; simp [h1]
  · split
    · have := congrArg (fun v : BitVec 16 => v.getLsbD (i - 32)) h
      simp only [rsvdField, BitVec.getLsbD_extractLsb', show 32 + (i - 32) = i by omega, show i - 32 < 16 by omega,
        decide_true, Bool.true_and] at this
      rw [this]; simp
    · split
      · simp [show 48 + (i - 48) = i by omega]; omega
      · simp [show 56 + (i - 56) = i by omega]; omega

@[simp] theorem opcodeOf_opCode (o : Opcode) : opcodeOf (opCode o) = some o := by cases o <;> decide

theorem opcodeOf_eq_some {b : BitVec 8} {o : Opcode} : opcodeOf b = some o ↔ b = opCode o := by
  constructor
  · intro h
    have := List.find?_some h
    simp only [beq_iff_eq] at this
    exact this.symm
  · rintro rfl; exact opcodeOf_opCode o

@[simp] theorem encIndexOf_code (u : EncIndex) : encIndexOf (encIndexCode u) = some u := by cases u <;> decide
@[simp] theorem queueOf_code (q : QueueName) : queueOf (queueCode q) = some q := by cases q <;> decide

/-- A selector that names an encoder is its code (30_encoding R62). -/
theorem encIndexOf_eq_some : ∀ {s : BitVec 8} {u : EncIndex}, encIndexOf s = some u → s = encIndexCode u := by
  intro s u h
  unfold encIndexOf at h
  split at h
  · rename_i h0; cases h; exact h0
  · split at h
    · rename_i h1; cases h; exact h1
    · cases h

/-- A selector that names a queue is its code (30_encoding R62). -/
theorem queueOf_eq_some : ∀ {s : BitVec 8} {q : QueueName}, queueOf s = some q → s = queueCode q := by
  intro s q h
  unfold queueOf at h
  split at h
  · rename_i h0; cases h; exact h0
  · split at h
    · rename_i h1; cases h; exact h1
    · cases h

end Sys2Proof
end

