-- ==== Sys2Proof/Laws/Mixer.lean ====
section
/-! SUPPORT. The mixer's operations: for each, once, everything it can answer. -/

namespace Sys2Proof.Machine

/-- A mixed block is two bytes a sample (47_mixer R171). -/
@[simp] theorem mixBlock_length (a b : Bytes) : (mixBlock a b).length = 2 * min a.length b.length := by
  fun_induction mixBlock a b with
  | case1 a as b bs ih => simp [ih]; omega
  | case2 => simp
  | case3 => simp

/-- Blocks of equal parts join: mixing is sample by sample (47_mixer R171, R174). -/
theorem mixBlock_append {a b : Bytes} (c d : Bytes) (h : a.length = b.length) :
    mixBlock (a ++ c) (b ++ d) = mixBlock a b ++ mixBlock c d := by
  fun_induction mixBlock a b with
  | case1 a as b bs ih => simp [mixBlock, ih (by simpa using h)]
  | case2 b => cases b with
    | nil => simp
    | cons => simp at h
  | case3 a as => simp at h

/-- A shorter partner bounds the block: the longer sequence's tail takes no part. -/
theorem mixBlock_take (a b : Bytes) :
    mixBlock (a.take (min a.length b.length)) (b.take (min a.length b.length)) = mixBlock a b := by
  fun_induction mixBlock a b with
  | case1 a as b bs ih =>
    rw [show min (a :: as).length (b :: bs).length = min as.length bs.length + 1 by simp]
    simp [mixBlock, ih]
  | case2 => simp [mixBlock]
  | case3 => simp [mixBlock]

@[simp] theorem padTo_length (n : Nat) (s : Bytes) : (padTo n s).length = max n s.length := by
  simp [padTo]; omega

/-- The queue a push goes to, before the push. -/
def Mix.queue (m : Mix) : QueueName → Bytes
  | .qa => m.qa
  | .qb => m.qb

/-- That queue replaced. -/
def Mix.setQueue (m : Mix) : QueueName → Bytes → Mix
  | .qa, p => { m with qa := p }
  | .qb, p => { m with qb := p }

/-- All that `QPUSH` can answer (47_mixer R170). -/
theorem qpush_cases (cfg : Config) (q : QueueName) (p : Bytes) (m : MixIO) :
    (overCap cfg ((m.mix.queue q).length + p.length) = true ∧ qpush cfg q p m = .raised .bufOvf m) ∨
    (overCap cfg ((m.mix.queue q).length + p.length) = false ∧
      qpush cfg q p m = .go ⟨m.mix.setQueue q (m.mix.queue q ++ p), m.mout⟩) := by
  cases q <;> simp only [Mix.queue, Mix.setQueue, qpush] <;> split <;> simp_all

/-- Adding to `TOTAL`: the sum, or `F_CNT_OVF` (47_mixer R172, 42_buffer R110). -/
theorem addTotal_cases (m : MixIO) (n : Nat) :
    (∃ t : BitVec 64, t.toNat = m.mix.total.toNat + n ∧ m.addTotal n = .go ⟨{ m.mix with total := t }, m.mout⟩) ∨
    (2 ^ 64 ≤ m.mix.total.toNat + n ∧ m.addTotal n = .raised .cntOvf m) := by
  unfold MixIO.addTotal
  cases hc : addCounter m.mix.total n with
  | none => exact .inr ⟨addCounter_none.1 hc, rfl⟩
  | some t => exact .inl ⟨t, addCounter_some.1 hc, rfl⟩

/-- `MIX` and its port as `MIX_RUN` leaves them before the total is advanced (47_mixer R172). -/
def mixRunOut (m : MixIO) : MixIO :=
  { mix := { m.mix with
      qa := m.mix.qa.drop (min m.mix.qa.length m.mix.qb.length)
      qb := m.mix.qb.drop (min m.mix.qa.length m.mix.qb.length) }
    mout := m.mout ++ mixBlock m.mix.qa m.mix.qb }

/-- All that `MIX_RUN` can answer (47_mixer R172). -/
theorem mixRun_cases (m : MixIO) :
    (∃ t : BitVec 64, t.toNat = m.mix.total.toNat + 2 * min m.mix.qa.length m.mix.qb.length ∧
      mixRun m = .go ⟨{ (mixRunOut m).mix with total := t }, (mixRunOut m).mout⟩) ∨
    (2 ^ 64 ≤ m.mix.total.toNat + 2 * min m.mix.qa.length m.mix.qb.length ∧
      mixRun m = .raised .cntOvf (mixRunOut m)) := by
  have h := addTotal_cases (mixRunOut m) (2 * min m.mix.qa.length m.mix.qb.length)
  rw [show mixRun m = (mixRunOut m).addTotal (2 * min m.mix.qa.length m.mix.qb.length) by
    unfold mixRun mixRunOut
    dsimp only
    rw [mixBlock_take]]
  exact h

/-- `MIX` and its port as `MIX_END` leaves them before the total is advanced (47_mixer R173). -/
def mixEndOut (m : MixIO) : MixIO :=
  { mix := { m.mix with qa := [], qb := [] }
    mout := m.mout ++ mixBlock (padTo (max m.mix.qa.length m.mix.qb.length) m.mix.qa)
      (padTo (max m.mix.qa.length m.mix.qb.length) m.mix.qb) }

/-- All that `MIX_END` can answer (47_mixer R173). -/
theorem mixEnd_cases (m : MixIO) :
    (∃ t : BitVec 64, t.toNat = m.mix.total.toNat + 2 * max m.mix.qa.length m.mix.qb.length ∧
      mixEnd m = .go ⟨{ (mixEndOut m).mix with total := t }, (mixEndOut m).mout⟩) ∨
    (2 ^ 64 ≤ m.mix.total.toNat + 2 * max m.mix.qa.length m.mix.qb.length ∧
      mixEnd m = .raised .cntOvf (mixEndOut m)) :=
  addTotal_cases (mixEndOut m) (2 * max m.mix.qa.length m.mix.qb.length)

end Sys2Proof.Machine
end

