-- ==== Sys2Proof/Laws/Wrapper.lean ====
section
/-! SUPPORT. The wrapper's operations: what each can do to an encoder and its port. -/

namespace Sys2Proof.Machine

/-- All that the wrapper does to an encoder after the payload is in the accumulator: configuration, phase and `ERR` stay,
the accumulator loses bytes at its front, `OUT_SAMPLES` rises by whole frames, the port grows (45_wrapper R150). -/
structure EncIO.Grows (io io' : EncIO) : Prop where
  fields : ∃ b d, io'.enc = { io.enc with acc := b, delayDone := d }
  bps : io'.enc.acc.bps = io.enc.acc.bps
  inSamples : io'.enc.acc.inSamples = io.enc.acc.inSamples
  window : ∃ n, io'.enc.acc.window = io.enc.acc.window.drop n
  out : ∃ k, io'.enc.acc.outSamples.toNat = io.enc.acc.outSamples.toNat + 1024 * k
  port : ∃ x, io'.eout = io.eout ++ x

theorem encGrows_refl (io : EncIO) : io.Grows io :=
  ⟨⟨_, _, rfl⟩, rfl, rfl, ⟨0, rfl⟩, ⟨0, rfl⟩, [], by simp⟩

theorem encGrows_trans {a b c : EncIO} (h1 : a.Grows b) (h2 : b.Grows c) : a.Grows c := by
  obtain ⟨⟨b1, d1, hf1⟩, hb1, hi1, ⟨n1, hw1⟩, ⟨k1, ho1⟩, x1, hp1⟩ := h1
  obtain ⟨⟨b2, d2, hf2⟩, hb2, hi2, ⟨n2, hw2⟩, ⟨k2, ho2⟩, x2, hp2⟩ := h2
  exact ⟨⟨b2, d2, by rw [hf2, hf1]⟩, hb2.trans hb1, hi2.trans hi1, ⟨n1 + n2, by rw [hw2, hw1, List.drop_drop]⟩,
    ⟨k1 + k2, by rw [ho2, ho1]; ring⟩, x1 ++ x2, by rw [hp2, hp1, List.append_assoc]⟩

/-- Advancing the accumulator's counter: by 1024, or `F_CNT_OVF`. -/
theorem accAdvance_cases (io : EncIO) :
    (∃ n : BitVec 64, n.toNat = io.enc.acc.outSamples.toNat + 1024 ∧
      io.onAcc Buffer.advance = .go { io with enc := { io.enc with acc := { io.enc.acc with outSamples := n } } }) ∨
    (2 ^ 64 ≤ io.enc.acc.outSamples.toNat + 1024 ∧ io.onAcc Buffer.advance = .raised .cntOvf io) := by
  unfold EncIO.onAcc
  rcases advance_cases io.enc.acc with ⟨n, hn, h⟩ | ⟨hn, h⟩
  · exact .inl ⟨n, hn, by rw [h]; rfl⟩
  · exact .inr ⟨hn, by rw [h]; rfl⟩

/-- `WRAP_EMIT` emits the packed slot and then advances, or raises after the emission (45_wrapper R153). -/
theorem wrapEmit_cases (cfg : Config) (io : EncIO) (f : Bytes) :
    (∃ n : BitVec 64, n.toNat = io.enc.acc.outSamples.toNat + 1024 ∧
      wrapEmit cfg io f = .go ⟨{ io.enc with acc := { io.enc.acc with outSamples := n } },
        io.eout ++ pack cfg io.enc.cfgMode (slotOf cfg io.enc f)⟩) ∨
    (2 ^ 64 ≤ io.enc.acc.outSamples.toNat + 1024 ∧
      wrapEmit cfg io f = .raised .cntOvf ⟨io.enc, io.eout ++ pack cfg io.enc.cfgMode (slotOf cfg io.enc f)⟩) :=
  accAdvance_cases (io.emit (pack cfg io.enc.cfgMode (slotOf cfg io.enc f)))

/-- `WRAP_EMIT` where the counter fits. -/
theorem wrapEmit_fits {cfg : Config} {io : EncIO} {f : Bytes} (h : io.enc.acc.outSamples.toNat + 1024 < 2 ^ 64) :
    wrapEmit cfg io f = .go ⟨{ io.enc with acc := { io.enc.acc with
        outSamples := BitVec.ofNat 64 (io.enc.acc.outSamples.toNat + 1024) } },
      io.eout ++ pack cfg io.enc.cfgMode (slotOf cfg io.enc f)⟩ := by
  unfold wrapEmit EncIO.onAcc
  rw [encIO_emit_enc, advance_fits h]
  rfl

/-- What an operation leaves, and that the one fault it raises is `F_CNT_OVF`. -/
structure EncStep (io : EncIO) (r : Flow EncIO) : Prop where
  grows : io.Grows r.state
  window : r.state.enc.acc.window = io.enc.acc.window
  hdr : r.state.enc.acc.hdr = io.enc.acc.hdr
  raises : ∀ f t, r = .raised f t → f = .cntOvf

theorem accAdvance_step (io : EncIO) : EncStep io (io.onAcc Buffer.advance) := by
  rcases accAdvance_cases io with ⟨n, hn, h⟩ | ⟨_, h⟩ <;> rw [h]
  · exact ⟨⟨⟨_, _, rfl⟩, rfl, rfl, ⟨0, rfl⟩, ⟨1, by simpa using hn⟩, [], by simp⟩, rfl, rfl, by simp⟩
  · exact ⟨encGrows_refl io, rfl, rfl, by rintro f t ⟨⟩; rfl⟩

theorem wrapEmit_step (cfg : Config) (io : EncIO) (f : Bytes) : EncStep io (wrapEmit cfg io f) := by
  rcases wrapEmit_cases cfg io f with ⟨n, hn, h⟩ | ⟨_, h⟩ <;> rw [h]
  · exact ⟨⟨⟨_, _, rfl⟩, rfl, rfl, ⟨0, rfl⟩, ⟨1, by simpa using hn⟩, _, rfl⟩, rfl, rfl, by simp⟩
  · exact ⟨⟨⟨_, _, rfl⟩, rfl, rfl, ⟨0, rfl⟩, ⟨0, rfl⟩, _, rfl⟩, rfl, rfl, by rintro f t ⟨⟩; rfl⟩

theorem encStep_andThen {io : EncIO} {r : Flow EncIO} {k : EncIO → Flow EncIO} (h1 : EncStep io r)
    (h2 : ∀ x, r = .go x → EncStep x (k x)) : EncStep io (r.andThen k) := by
  cases r with
  | go x =>
    have h := h2 x rfl
    exact ⟨encGrows_trans h1.grows h.grows, h.window.trans h1.window, h.hdr.trans h1.hdr, h.raises⟩
  | raised f x => exact h1

theorem delayRounds_step (cfg : Config) (c : BitVec 3) (n : Nat) (io : EncIO) :
    EncStep io (delayRounds cfg c n io) := by
  induction n generalizing io with
  | zero => exact ⟨encGrows_refl io, rfl, rfl, by simp [delayRounds]⟩
  | succ n ih =>
    rw [delayRounds]
    refine encStep_andThen ?_ (fun x _ => ih x)
    unfold delayFrame
    split
    · exact accAdvance_step io
    · exact wrapEmit_step cfg io _

/-- The delay silence, run at most once a stream (45_wrapper R151, R157). -/
theorem delayOnce_step (cfg : Config) (c : BitVec 3) (io : EncIO) : EncStep io (delayOnce cfg c io) := by
  unfold delayOnce
  split
  · exact ⟨encGrows_refl io, rfl, rfl, by simp⟩
  · exact encStep_andThen (delayRounds_step cfg c _ io)
      (fun x _ => ⟨⟨⟨_, _, rfl⟩, rfl, rfl, ⟨0, rfl⟩, ⟨0, rfl⟩, [], by simp⟩, rfl, rfl, by simp⟩)

/-- No complete frame at the head of an accumulator's window (45_wrapper R151). -/
def noFrameAtHead (w : Bytes) : Prop :=
  w.length < adtsLen ∨ adtsLen ≤ (frameLengthOf (headerOfBytes (w.take adtsLen))).toNat ∧
    w.length < (frameLengthOf (headerOfBytes (w.take adtsLen))).toNat

@[simp] theorem recordHead_window (io : EncIO) : io.recordHead.enc.acc.window = io.enc.acc.window := rfl
@[simp] theorem recordHead_hdr (io : EncIO) :
    io.recordHead.enc.acc.hdr = headerOfBytes (io.enc.acc.window.take 7) := rfl
@[simp] theorem recordHead_eout (io : EncIO) : io.recordHead.eout = io.eout := rfl
theorem headLength_recordHead (io : EncIO) :
    io.recordHead.headLength = (frameLengthOf (headerOfBytes (io.enc.acc.window.take 7))).toNat := rfl
@[simp] theorem encConsume_window (io : EncIO) (n : Nat) : (io.consume n).enc.acc.window = io.enc.acc.window.drop n := rfl

/-- One round of the feed loop (45_wrapper R151): it exits with no complete frame at the head, or raises
`F_ES_MALFORMED` with the header recorded, or emits the frame at the head and goes on with the rest. -/
theorem feedRounds_succ (cfg : Config) (fuel : Nat) (io : EncIO) :
    (io.enc.acc.window.length < 7 ∧ feedRounds cfg (fuel + 1) io = .go io) ∨
    (7 ≤ io.enc.acc.window.length ∧
      ((io.recordHead.headLength < 7 ∧ feedRounds cfg (fuel + 1) io = .raised .esMalformed io.recordHead) ∨
       (7 ≤ io.recordHead.headLength ∧ io.enc.acc.window.length < io.recordHead.headLength ∧
          feedRounds cfg (fuel + 1) io = .go io.recordHead) ∨
       (7 ≤ io.recordHead.headLength ∧ io.recordHead.headLength ≤ io.enc.acc.window.length ∧
          feedRounds cfg (fuel + 1) io =
            (feedFrame cfg io.recordHead io.recordHead.headLength).andThen (feedRounds cfg fuel)))) := by
  rw [feedRounds, show adtsLen = 7 from rfl]
  by_cases h7 : io.enc.acc.window.length < 7
  · exact .inl ⟨h7, by rw [if_pos h7]⟩
  · refine .inr ⟨by omega, ?_⟩
    rw [if_neg h7]
    by_cases hl : io.recordHead.headLength < 7
    · exact .inl ⟨hl, by rw [if_pos hl]⟩
    · rw [if_neg hl]
      by_cases hw : io.enc.acc.window.length < io.recordHead.headLength
      · exact .inr (.inl ⟨by omega, hw, by rw [if_pos hw]⟩)
      · exact .inr (.inr ⟨by omega, by omega, by rw [if_neg hw]⟩)

theorem encRecord_grows (io : EncIO) : io.Grows io.recordHead :=
  ⟨⟨_, _, rfl⟩, rfl, rfl, ⟨0, rfl⟩, ⟨0, rfl⟩, [], by simp⟩

theorem encConsume_grows (io : EncIO) (n : Nat) : io.Grows (io.consume n) :=
  ⟨⟨_, _, rfl⟩, rfl, rfl, ⟨n, rfl⟩, ⟨0, rfl⟩, [], by simp⟩

/-- The round's body, from the delay silence to the consumption: it goes on with the frame's bytes gone, or raises
`F_CNT_OVF`. -/
theorem feedFrame_cases (cfg : Config) (io : EncIO) (len : Nat) :
    (∃ x, io.Grows x ∧ x.enc.acc.window = io.enc.acc.window ∧ feedFrame cfg io len = .go (x.consume len)) ∨
    (∃ x, io.Grows x ∧ feedFrame cfg io len = .raised .cntOvf x) := by
  have hs := encStep_andThen (delayOnce_step cfg (channelCountOf io.enc.acc.hdr) io)
    (fun x _ => wrapEmit_step cfg x (io.enc.acc.window.take len))
  unfold feedFrame
  cases hr : (delayOnce cfg (channelCountOf io.enc.acc.hdr) io).andThen
    (fun io1 => wrapEmit cfg io1 (io.enc.acc.window.take len)) with
  | go x => rw [hr] at hs; exact .inl ⟨x, hs.grows, hs.window, rfl⟩
  | raised e x => rw [hr] at hs; exact .inr ⟨x, hs.grows, by rw [andThen_raised, hs.raises e x rfl]⟩

/-- The feed loop only grows the encoder and raises `F_ES_MALFORMED` or `F_CNT_OVF` alone. -/
theorem feedRounds_grows (cfg : Config) (fuel : Nat) (io : EncIO) :
    io.Grows (feedRounds cfg fuel io).state ∧
      ∀ f t, feedRounds cfg fuel io = .raised f t → f = .esMalformed ∨ f = .cntOvf := by
  induction fuel generalizing io with
  | zero => exact ⟨encGrows_refl io, by simp [feedRounds]⟩
  | succ fuel ih =>
    rcases feedRounds_succ cfg fuel io with ⟨_, h⟩ | ⟨_, ⟨_, h⟩ | ⟨_, _, h⟩ | ⟨_, _, h⟩⟩ <;> rw [h]
    · exact ⟨encGrows_refl io, by simp⟩
    · exact ⟨encRecord_grows io, by rintro f t ⟨⟩; exact .inl rfl⟩
    · exact ⟨encRecord_grows io, by simp⟩
    · rcases feedFrame_cases cfg io.recordHead io.recordHead.headLength with ⟨x, hx, _, h1⟩ | ⟨x, hx, h1⟩ <;> rw [h1]
      · rw [andThen_go]
        exact ⟨encGrows_trans (encGrows_trans (encGrows_trans (encRecord_grows io) hx) (encConsume_grows x _)) (ih _).1,
          (ih _).2⟩
      · rw [andThen_raised]
        exact ⟨encGrows_trans (encRecord_grows io) hx, by rintro f t ⟨⟩; exact .inr rfl⟩

/-- The feed loop going on leaves no complete frame at the head: the fuel is enough (45_wrapper R151). -/
theorem feedRounds_go {cfg : Config} {fuel : Nat} {io io' : EncIO} (hf : io.enc.acc.window.length < fuel)
    (h : feedRounds cfg fuel io = .go io') : noFrameAtHead io'.enc.acc.window := by
  induction fuel generalizing io with
  | zero => omega
  | succ fuel ih =>
    rcases feedRounds_succ cfg fuel io with ⟨h7, h1⟩ | ⟨_, ⟨_, h1⟩ | ⟨h2, h3, h1⟩ | ⟨h2, h3, h1⟩⟩ <;> rw [h1] at h
    · simp only [Flow.go.injEq] at h; subst h; exact .inl h7
    · simp at h
    · simp only [Flow.go.injEq] at h; subst h; exact .inr ⟨h2, h3⟩
    · rcases feedFrame_cases cfg io.recordHead io.recordHead.headLength with ⟨x, _, hw, h4⟩ | ⟨x, _, h4⟩ <;> rw [h4] at h
      · rw [andThen_go] at h
        exact ih (by rw [encConsume_window, hw]; simp; omega) h
      · simp at h

/-- `ENC_FLUSH` empties the accumulator, or raises `F_CNT_OVF` (45_wrapper R160). -/
theorem encFlush_cases (cfg : Config) (io : EncIO) :
    io.Grows (encFlush cfg io).state ∧
      ((∃ t, encFlush cfg io = .go t ∧ t.enc.acc.window = []) ∨ ∃ t, encFlush cfg io = .raised .cntOvf t) := by
  unfold encFlush
  split
  · rename_i h
    exact ⟨encGrows_refl io, .inl ⟨io, rfl, List.length_eq_zero_iff.1 h⟩⟩
  · rcases wrapEmit_cases cfg io io.enc.acc.window with ⟨n, hn, h⟩ | ⟨_, h⟩ <;> rw [h]
    · refine ⟨⟨⟨_, _, rfl⟩, rfl, rfl, ⟨_, rfl⟩, ⟨1, by simpa [EncIO.consume] using hn⟩, _, rfl⟩, .inl ⟨_, rfl, ?_⟩⟩
      simp
    · exact ⟨⟨⟨_, _, rfl⟩, rfl, rfl, ⟨0, rfl⟩, ⟨0, rfl⟩, _, rfl⟩, .inr ⟨_, rfl⟩⟩

end Sys2Proof.Machine
end

