-- ==== Sys2Proof/Laws/Exec.lean ====
section
/-! SUPPORT. The frame every command of a unit is built from: what `whenActive`, `settle` and the views of a unit on the
whole state can do. -/

namespace Sys2Proof.Machine

/-- A command legal only while its unit is `Active`: it runs, or it refuses (48_commands R181). -/
theorem whenActive_cases (s : State) (u : UnitName) (body : State → Flow State) :
    (s.phase u = .active ∧ s.whenActive u body = State.settle u (body s)) ∨
    (s.phase u ≠ .active ∧ s.whenActive u body = s.refuse .ePhase) := by
  unfold State.whenActive
  split <;> simp_all

theorem whenActive_active {s : State} {u : UnitName} {body : State → Flow State} (h : s.phase u = .active) :
    s.whenActive u body = State.settle u (body s) := if_pos h

@[simp] theorem settle_go (u : UnitName) (s : State) : State.settle u (.go s) = s := rfl

@[simp] theorem settle_raised (u : UnitName) (f : UnitFault) (s : State) :
    State.settle u (.raised f s) = s.raise u f := rfl

/-! ## Nothing but one unit -/

theorem sameUnit_refl (u : UnitName) (s : State) : SameUnit u s s := by
  cases u <;> simp [SameUnit, SameDec, SameEnc, SameMix]

theorem sameUnit_trans {u : UnitName} {a b c : State} (h1 : SameUnit u a b) (h2 : SameUnit u b c) : SameUnit u a c := by
  cases u <;> simp_all [SameUnit, SameDec, SameEnc, SameMix]

theorem onlyUnit_refl (u : UnitName) (s : State) : OnlyUnit u s s := ⟨rfl, rfl, rfl, fun v _ => sameUnit_refl v s⟩

theorem onlyUnit_trans {u : UnitName} {a b c : State} (h1 : OnlyUnit u a b) (h2 : OnlyUnit u b c) : OnlyUnit u a c :=
  ⟨h2.1.trans h1.1, h2.2.1.trans h1.2.1, h2.2.2.1.trans h1.2.2.1,
    fun v hv => sameUnit_trans (h1.2.2.2 v hv) (h2.2.2.2 v hv)⟩

theorem setPhaseErr_only (s : State) (u : UnitName) (p : Phase) (e : BitVec 8) :
    OnlyUnit u s (s.setPhaseErr u p e) := by
  refine ⟨?_, ?_, ?_, fun v hv => ?_⟩
  · cases u <;> simp [State.setPhaseErr]
  · cases u <;> simp [State.setPhaseErr]
  · cases u <;> simp [State.setPhaseErr]
  · rcases u with _ | (_ | _) | _ <;> rcases v with _ | (_ | _) | _ <;>
      first | exact absurd rfl hv | simp [State.setPhaseErr, SameUnit, SameDec, SameEnc, SameMix]

theorem onDec_only (s : State) (k : DecIO → Flow DecIO) : OnlyUnit .dec s (s.onDec k).state := by
  unfold State.onDec
  rw [state_map]
  refine ⟨rfl, rfl, rfl, fun v hv => ?_⟩
  rcases v with _ | (_ | _) | _ <;> first | exact absurd rfl hv | simp [SameUnit, SameEnc, SameMix]

theorem onMix_only (s : State) (k : MixIO → Flow MixIO) : OnlyUnit .mix s (s.onMix k).state := by
  unfold State.onMix
  rw [state_map]
  refine ⟨rfl, rfl, rfl, fun v hv => ?_⟩
  rcases v with _ | (_ | _) | _ <;> first | exact absurd rfl hv | simp [SameUnit, SameDec, SameEnc]

theorem onEnc_only (s : State) (u : EncIndex) (k : EncIO → Flow EncIO) : OnlyUnit (.enc u) s (s.onEnc u k).state := by
  unfold State.onEnc
  rw [state_map]
  refine ⟨by simp, by simp, by simp, fun v hv => ?_⟩
  rcases u with _ | _ <;> rcases v with _ | (_ | _) | _ <;>
    first | exact absurd rfl hv | simp [SameUnit, SameDec, SameEnc, SameMix, State.setEnc, Ports.setEout]

/-- A body that stays in its unit gives a command that stays in its unit, or a refusal. -/
theorem whenActive_only {s : State} {u : UnitName} {body : State → Flow State} (h : OnlyUnit u s (body s).state) :
    OnlyUnit u s (s.whenActive u body) ∨ s.whenActive u body = s.refuse .ePhase := by
  rcases whenActive_cases s u body with ⟨_, h1⟩ | ⟨_, h1⟩
  · refine .inl ?_
    rw [h1]
    cases hb : body s with
    | go t => rw [hb] at h; exact h
    | raised f t => rw [hb] at h; exact onlyUnit_trans h (setPhaseErr_only t u _ _)
  · exact .inr h1

end Sys2Proof.Machine
end

