-- ==== Sys2Proof/Laws/Memory.lean ====
section
/-! SUPPORT. Every operation on a buffer memory keeps it within `BUF_CAP` (10_state R16, R27; 42_buffer R101), raised
outcomes included; the memories after reset have the form. -/

namespace Sys2Proof.Machine

@[simp] theorem fitsCap_nil (cfg : Config) : fitsCap cfg [] = true := by simp [fitsCap]

theorem fitsCap_iff {cfg : Config} {b : Bytes} : fitsCap cfg b = true ↔ overCap cfg b.length = false := by
  simp [fitsCap]

/-- What fits, fits with bytes dropped at its front. -/
theorem fitsCap_drop {cfg : Config} {b : Bytes} (n : Nat) (h : fitsCap cfg b = true) : fitsCap cfg (b.drop n) = true :=
  fitsCap_iff.2 (overCap_mono (by simp) (fitsCap_iff.1 h))

/-- `APPEND` keeps the form, raised or not (42_buffer R100). -/
theorem append_keeps_cap {cfg : Config} {b : Buffer} (s : Bytes) (h : fitsCap cfg b.window = true) :
    fitsCap cfg (b.append cfg s).state.window = true :=
  fitsCap_iff.2 ((append_state cfg b s).2.2.2.2.2 (fitsCap_iff.1 h))

/-- `APPEND_PACKED` keeps the form (42_buffer R102). -/
theorem appendPacked_keeps_cap {cfg : Config} {b : Buffer} (lane : Lane) (s : Bytes) (h : fitsCap cfg b.window = true) :
    fitsCap cfg (b.appendPacked cfg lane s).state.window = true := append_keeps_cap (laneBytes lane s) h

/-- `CONSUME` keeps the form (42_buffer R104). -/
theorem consume_keeps_cap {cfg : Config} {b : Buffer} (n : Nat) (h : fitsCap cfg b.window = true) :
    fitsCap cfg (b.consume n).window = true := fitsCap_drop n h

/-- `RECORD_HEADER` leaves the window (42_buffer R106). -/
@[simp] theorem recordHeader_keeps_window (b : Buffer) (h : Bytes) : (b.recordHeader h).window = b.window := rfl

/-- `CLEAR` leaves no byte (42_buffer R109). -/
theorem clear_keeps_cap (cfg : Config) (b : Buffer) : fitsCap cfg b.clear.window = true := fitsCap_nil cfg

/-- What an extractor operation leaves of a window keeps the form. -/
theorem ages_keeps_cap {cfg : Config} {b b' : Buffer} (ha : b.Ages b') (h : fitsCap cfg b.window = true) :
    fitsCap cfg b'.window = true := by
  obtain ⟨n, hn⟩ := ha.window
  rw [hn]
  exact fitsCap_drop n h

/-- The extraction of one track keeps the form (44_extractor R141). -/
theorem extractTrack_keeps_cap {cfg : Config} {t : Track} (h : fitsCap cfg t.buf.window = true) :
    fitsCap cfg (extractTrack cfg t).state.buf.window = true := ages_keeps_cap (grows_ages (extractTrack_grows cfg t)) h

/-- The detector's decision keeps the form of the three windows of `DEC` (43_detector R121). -/
theorem classify_keeps_cap {cfg : Config} {d : Dec} (h1 : fitsCap cfg d.raw.window = true)
    (h2 : fitsCap cfg d.lo.window = true) (h3 : fitsCap cfg d.hi.window = true) :
    fitsCap cfg (classify cfg d).state.raw.window = true ∧ fitsCap cfg (classify cfg d).state.lo.window = true ∧
      fitsCap cfg (classify cfg d).state.hi.window = true := by
  have h := (classify_detected cfg d).1
  exact ⟨fitsCap_iff.2 (h.rawCap (fitsCap_iff.1 h1)), fitsCap_iff.2 (h.loCap (fitsCap_iff.1 h2)),
    fitsCap_iff.2 (h.hiCap (fitsCap_iff.1 h3))⟩

/-- What the wrapper leaves of an accumulator keeps the form (45_wrapper R151). -/
theorem encGrows_keeps_cap {cfg : Config} {io io' : EncIO} (hg : io.Grows io')
    (h : fitsCap cfg io.enc.acc.window = true) : fitsCap cfg io'.enc.acc.window = true := by
  obtain ⟨n, hn⟩ := hg.window
  rw [hn]
  exact fitsCap_drop n h

/-- `QPUSH` keeps the form of both queues (47_mixer R170). -/
theorem qpush_keeps_cap {cfg : Config} {m : MixIO} (q : QueueName) (p : Bytes) (ha : fitsCap cfg m.mix.qa = true)
    (hb : fitsCap cfg m.mix.qb = true) :
    fitsCap cfg (qpush cfg q p m).state.mix.qa = true ∧ fitsCap cfg (qpush cfg q p m).state.mix.qb = true := by
  rcases qpush_cases cfg q p m with ⟨_, h⟩ | ⟨ho, h⟩ <;> rw [h]
  · exact ⟨ha, hb⟩
  · cases q
    · exact ⟨fitsCap_iff.2 (by simpa [Mix.setQueue, Mix.queue] using ho), hb⟩
    · exact ⟨ha, fitsCap_iff.2 (by simpa [Mix.setQueue, Mix.queue] using ho)⟩

/-- `MIX_RUN` keeps the form of both queues (47_mixer R172). -/
theorem mixRun_keeps_cap {cfg : Config} {m : MixIO} (ha : fitsCap cfg m.mix.qa = true)
    (hb : fitsCap cfg m.mix.qb = true) :
    fitsCap cfg (mixRun m).state.mix.qa = true ∧ fitsCap cfg (mixRun m).state.mix.qb = true := by
  rcases mixRun_cases m with ⟨t, _, h⟩ | ⟨_, h⟩ <;> rw [h] <;> exact ⟨fitsCap_drop _ ha, fitsCap_drop _ hb⟩

/-- `MIX_END` leaves both queues empty (47_mixer R173). -/
theorem mixEnd_keeps_cap (cfg : Config) (m : MixIO) :
    fitsCap cfg (mixEnd m).state.mix.qa = true ∧ fitsCap cfg (mixEnd m).state.mix.qb = true := by
  rcases mixEnd_cases m with ⟨t, _, h⟩ | ⟨_, h⟩ <;> rw [h] <;> exact ⟨fitsCap_nil cfg, fitsCap_nil cfg⟩

/-- The memories after reset have the form (10_state R33). -/
theorem reset_memory_wf : Memory.wf State.reset = true := by
  simp [Memory.wf, State.reset, Dec.reset, Enc.reset, Mix.reset, Buffer.reset]

end Sys2Proof.Machine
end

