-- ==== Sys2Proof/Laws/PerInstr.lean ====
section
/-! SUPPORT. The per-instruction family `EncodesItsRow`: the word of every instruction matches its own row of the opcode
table of 30_encoding R64, whatever its operands. -/

namespace Sys2Proof.Laws

/-- The word of the instruction matches a row of its own opcode (30_encoding R64, column "match"). -/
def EncodesItsRow.Statement (i : Instr) : Prop := ∃ r ∈ opcodeTable, r.op = i.opcode ∧ rowMatches (encode i).word r = true

/-- A mask that keeps `OP` and `RSVD` and, of `SEL` and `ARG`, what `selMask` and `argMask` keep. -/
theorem packWord_and (op sel selMask : BitVec 8) (arg argMask : BitVec 32) :
    packWord op sel arg &&& ((0xFF#8 ++ selMask ++ 0xFFFF#16 ++ argMask : BitVec 64)) =
      packWord op (sel &&& selMask) (arg &&& argMask) := by
  unfold packWord
  rw [BitVec.and_append, BitVec.and_append, BitVec.and_append]
  rw [show (0xFF#8 : BitVec 8) = BitVec.allOnes 8 from rfl, BitVec.and_allOnes]
  rfl

/-- A word of one row: the kept parts of `SEL` and `ARG` are the pattern's. -/
theorem matches_row {op sel selMask : BitVec 8} {arg argMask : BitVec 32} {r : OpcodeRow}
    (hm : r.mask = 0xFF#8 ++ selMask ++ 0xFFFF#16 ++ argMask) (hp : r.pattern = packWord op 0 0)
    (hs : sel &&& selMask = 0) (ha : arg &&& argMask = 0) : rowMatches (packWord op sel arg) r = true := by
  simp only [rowMatches, beq_iff_eq, hm, hp, packWord_and, hs, ha]

/-- The statement as a search of the table. -/
theorem closed_row {i : Instr} (h : opcodeTable.any (fun r => r.op == i.opcode && rowMatches (encode i).word r) = true) :
    EncodesItsRow.Statement i := by
  simpa [EncodesItsRow.Statement, List.any_eq_true] using h

theorem EncodesItsRow.nop : EncodesItsRow.Statement .nop := closed_row (by decide)
theorem EncodesItsRow.reset : EncodesItsRow.Statement .reset := closed_row (by decide)

theorem EncodesItsRow.rdreg (sel : BitVec 8) : EncodesItsRow.Statement (.rdreg sel) :=
  ⟨⟨.rdreg, 0xFF00FFFFFFFFFFFF#64, 0x0200000000000000#64⟩, by decide, rfl,
    matches_row (selMask := 0) (argMask := 0xFFFFFFFF#32) rfl rfl (by simp) (by simp)⟩

theorem EncodesItsRow.wrreg (sel : BitVec 8) (v : BitVec 32) : EncodesItsRow.Statement (.wrreg sel v) :=
  ⟨⟨.wrreg, 0xFF00FFFF00000000#64, 0x0300000000000000#64⟩, by decide, rfl,
    matches_row (selMask := 0) (argMask := 0) rfl rfl (by simp) (by simp)⟩

theorem EncodesItsRow.decInit : EncodesItsRow.Statement .decInit := closed_row (by decide)

theorem EncodesItsRow.decPush (p : Bytes) : EncodesItsRow.Statement (.decPush p) :=
  ⟨⟨.decPush, 0xFFFFFFFF00000000#64, 0x1100000000000000#64⟩, by decide, rfl,
    matches_row (selMask := 0xFF#8) (argMask := 0) rfl rfl (by simp) (by simp)⟩

theorem EncodesItsRow.decFinish : EncodesItsRow.Statement .decFinish := closed_row (by decide)
theorem EncodesItsRow.encInit (u : EncIndex) : EncodesItsRow.Statement (.encInit u) := closed_row (by cases u <;> decide)

theorem EncodesItsRow.encPush (u : EncIndex) (p : Bytes) : EncodesItsRow.Statement (.encPush u p) :=
  ⟨⟨.encPush, 0xFFFEFFFF00000000#64, 0x2100000000000000#64⟩, by decide, rfl,
    matches_row (selMask := 0xFE#8) (argMask := 0) rfl rfl (by cases u <;> decide) (by simp)⟩

theorem EncodesItsRow.encFinish (u : EncIndex) : EncodesItsRow.Statement (.encFinish u) := closed_row (by cases u <;> decide)
theorem EncodesItsRow.mixInit : EncodesItsRow.Statement .mixInit := closed_row (by decide)

theorem EncodesItsRow.mixPush (q : QueueName) (p : Bytes) : EncodesItsRow.Statement (.mixPush q p) :=
  ⟨⟨.mixPush, 0xFFFEFFFF00000000#64, 0x3100000000000000#64⟩, by decide, rfl,
    matches_row (selMask := 0xFE#8) (argMask := 0) rfl rfl (by cases q <;> decide) (by simp)⟩

theorem EncodesItsRow.mixStep : EncodesItsRow.Statement .mixStep := closed_row (by decide)
theorem EncodesItsRow.mixFinish : EncodesItsRow.Statement .mixFinish := closed_row (by decide)

end Sys2Proof.Laws
end

