-- ==== Sys2Proof/Tests/Slice0.lean ====
section
/-! SUPPORT. Tests of the model, and for every statement with hypotheses a state and operands that meet them. Expected
values come from the spec: the vectors of 95_test_vectors.md over its test configuration, the tables of 30_encoding and
10_state. `Config.build` has no body, so what reads it is tested in the operation that takes a configuration. -/

open Sys2Proof Sys2Proof.Machine

namespace Sys2Proof.Tests

/-! ## The test configuration and frames of 95_test_vectors.md -/

/-- The test configuration, with a capacity. -/
def cfgOf (cap : Option Nat) : Config :=
  { startMarker := #v[0x72, 0xF8, 0x1F, 0x4E, 0x07, 0x01, 0x00, 0x00]
    halfProbeMarker :=
      #v[0xF2, 0x00, 0x78, 0x00, 0x9F, 0x00, 0xCE, 0x00, 0x87, 0x00, 0x81, 0x00, 0x80, 0x00, 0x80, 0x00]
    endMarker := #v[0x45, 0x4E, 0x44, 0x00, 0x00, 0x00, 0x00, 0x00, 0x00, 0x00, 0x00, 0x00]
    silTemplate1 := [0xFF, 0xF1, 0x4C, 0x40, 0x01, 0x3F, 0xFC, 0x51, 0x01]
    silTemplate2 := [0xFF, 0xF1, 0x4C, 0x80, 0x01, 0x3F, 0xFC, 0x52, 0x02]
    silTemplate6 := [0xFF, 0xF1, 0x4D, 0x80, 0x01, 0x3F, 0xFC, 0x56, 0x06]
    srTable := defaultSrTable
    halfFill := 0
    bufCap := cap
    delayFrames := defaultDelayFrames
    wideView := fun _ => 0 }

/-- The test configuration without a bound on the buffers. -/
def cfg : Config := cfgOf none

/-- `F1`: 9 bytes, two channels. -/
def frame1 : Bytes := [0xFF, 0xF1, 0x4C, 0x80, 0x01, 0x3F, 0xFC, 0xAA, 0xBB]

/-- `WF1`: `F1` wrapped, 33 bytes. -/
def wrapped1 : Bytes :=
  [0x72, 0xF8, 0x1F, 0x4E, 0x07, 0x01, 0x00, 0x00, 0xFF, 0xF1, 0x4C, 0x80, 0x01, 0x3F, 0xFC, 0xAA, 0xBB, 0x03, 0x5D,
    0xF5, 0xE4, 0x45, 0x4E, 0x44, 0x00, 0x00, 0x00, 0x00, 0x00, 0x00, 0x00, 0x00, 0x00]

/-- The header of `F1`. -/
def header1 : BitVec 56 := 0xFFF14C80013FFC#56

/-- A raw buffer of a two-channel container with a window and counters. -/
def raw4 (w : Bytes) (i o : Nat) : Buffer := ⟨w, 4#16, BitVec.ofNat 64 i, BitVec.ofNat 64 o, 0#56⟩

/-- `DEC` open on a two-channel container, with a mode. -/
def decIn (m : Mode) (p : Phase) : Dec :=
  { phase := p, mode := m, nch := 2#8, err := 0#8, raw := ⟨[], 4#16, 0#64, 0#64, 0#56⟩
    lo := ⟨[], 2#16, 0#64, 0#64, 0#56⟩, hi := ⟨[], 2#16, 0#64, 0#64, 0#56⟩ }

/-- `ENC[0]` open in Half mode with a window; `nch = 0` makes an empty slot. -/
def encIn (w : Bytes) (nch : BitVec 8) : Enc :=
  { Enc.reset with phase := .active, cfgMode := 2#2, cfgNch := nch, acc := { Buffer.reset with window := w } }

/-- A machine with `DEC` in a mode and a phase, `ENC[0]` and `MIX` open, `ENC[1]` halted. -/
def busy (m : Mode) (p : Phase) : State :=
  { State.reset with
    dec := decIn m p
    enc0 := encIn [] 1#8
    enc1 := { Enc.reset with phase := .halted, err := 0x11#8 }
    mix := { Mix.reset with phase := .active } }

/-! ## Syntax that no command word carries -/

/-- One byte more than `ARG` can count (30_encoding R63). -/
theorem tooLong {p : Bytes} (h : p.length = 2 ^ 32) : payloadFits p = false := by simp [payloadFits, h]

theorem test_illformed_decPush : Instr.wellFormed (.decPush (List.replicate (2 ^ 32) 0#8)) = false :=
  tooLong List.length_replicate

theorem test_illformed_encPush : Instr.wellFormed (.encPush .e1 (List.replicate (2 ^ 32) 0#8)) = false :=
  tooLong List.length_replicate

theorem test_illformed_mixPush : Instr.wellFormed (.mixPush .qb (List.replicate (2 ^ 32) 0#8)) = false :=
  tooLong List.length_replicate

/-! ## Words written out from the encoding tables (30_encoding R61, R62, R64) -/

theorem test_decode_nop : decode ⟨0x0000000000000000#64, []⟩ = .instr .nop := by decide
theorem test_decode_reset : decode ⟨0x0100000000000000#64, []⟩ = .instr .reset := by decide
theorem test_decode_rdreg : decode ⟨0x0285000000000000#64, []⟩ = .instr (.rdreg 0x85#8) := by decide
theorem test_decode_wrreg : decode ⟨0x034300000000BB80#64, []⟩ = .instr (.wrreg 0x43#8 48000#32) := by decide
theorem test_decode_decInit : decode ⟨0x1000000000000000#64, []⟩ = .instr .decInit := by decide
theorem test_decode_decPush : decode ⟨0x1100000000000002#64, [0xAA#8, 0xBB#8]⟩ = .instr (.decPush [0xAA#8, 0xBB#8]) := by
  decide
theorem test_decode_decFinish : decode ⟨0x1200000000000000#64, []⟩ = .instr .decFinish := by decide
theorem test_decode_encInit : decode ⟨0x2001000000000000#64, []⟩ = .instr (.encInit .e1) := by decide
theorem test_decode_encPush : decode ⟨0x2100000000000001#64, [0xFF#8]⟩ = .instr (.encPush .e0 [0xFF#8]) := by decide
theorem test_decode_encFinish : decode ⟨0x2201000000000000#64, []⟩ = .instr (.encFinish .e1) := by decide
theorem test_decode_mixInit : decode ⟨0x3000000000000000#64, []⟩ = .instr .mixInit := by decide
theorem test_decode_mixPush : decode ⟨0x3101000000000001#64, [0x7F#8]⟩ = .instr (.mixPush .qb [0x7F#8]) := by decide
theorem test_decode_mixStep : decode ⟨0x3200000000000000#64, []⟩ = .instr .mixStep := by decide
theorem test_decode_mixFinish : decode ⟨0x3300000000000000#64, []⟩ = .instr .mixFinish := by decide

/-- `RSVD` before `SEL` (R65), a reserved `OP` before both, a payload of the wrong length (R63). -/
theorem test_decode_refuses :
    decode ⟨0x2002000100000000#64, []⟩ = .refused .eRsvd ∧ decode ⟨0x2002000000000000#64, []⟩ = .refused .eSel ∧
      decode ⟨0x0402000100000000#64, []⟩ = .refused .eOpcode ∧ decode ⟨0x1100000000000001#64, []⟩ = .notACommand := by
  decide

/-- The host's numbering of an instruction's bits: the word alone, and a payload of zeros. -/
theorem test_decodeTableWord :
    decodeTableWord 64 0x3200000000000000 = some .mixStep ∧
      decodeTableWord 64 0x1100000000000003 = some (.decPush [0#8, 0#8, 0#8]) ∧
      decodeTableWord 64 0x0400000000000000 = none := by decide

/-- `withFetchWord` places the command where the next step takes it. -/
theorem test_withFetchWord :
    step (State.reset.withFetchWord 64 0x1000000000000000) = .next { State.reset with cmdErr := 5#8 } := rfl

/-- The assembler form of R67 (95_test_vectors V-P5). -/
theorem test_asmLine : asmLine (.encPush .e1 [0xFF#8, 0x00#8]) = "ENC_PUSH 1, FF 00" := by decide

/-! ## One step of each command -/

theorem test_nop : exec .nop (busy .full .active) = .next (busy .full .active) := rfl
theorem test_reset : exec .reset (busy .mix .halted) = .next State.reset := rfl
theorem test_rdreg_id : exec (.rdreg 0x00#8) State.reset = .next { State.reset with reads := [0x46415758#64] } := rfl
theorem test_rdreg_reserved :
    exec (.rdreg 0x26#8) State.reset = .next { State.reset with cmdErr := 3#8, reads := [0#64] } := rfl

/-- 48_commands R186: the 8 bits of `NCH` take 255 and refuse 256. -/
theorem test_wrreg_nch :
    exec (.wrreg 0x12#8 255#32) State.reset = .next { State.reset with dec := { Dec.reset with nch := 255#8 } } := rfl
theorem test_wrreg_wide : exec (.wrreg 0x12#8 256#32) State.reset = .next { State.reset with cmdErr := 5#8 } := rfl

theorem test_decInit_refused : exec .decInit State.reset = .next { State.reset with cmdErr := 5#8 } := rfl
theorem test_decInit :
    exec .decInit { State.reset with dec := { Dec.reset with nch := 2#8, err := 0x10#8, phase := .halted } } =
      .next { State.reset with dec := decIn .unknown .active } := rfl

/-- V-X1. -/
theorem test_decPush_full :
    decPushBody cfg wrapped1 ⟨decIn .unknown .active, [], []⟩ =
      .go ⟨{ decIn .full .active with raw := ⟨[], 4#16, 8#64, 1024#64, header1⟩ }, frame1, []⟩ := by decide

/-- V-D8: a probe shows Half mode, and the low lane of the whole window is derived. -/
theorem test_detect_half :
    (detect cfg (decIn .unknown .active) (0x11#8 :: cfg.probeBytes)).state.lo.window =
      [0x91, 0x80, 0x80, 0x80, 0x80, 0x80, 0x80, 0x80] := by decide

/-- V-X1, `DEC_FINISH`: 1024 + 512 is not below 8, nothing is drained. -/
theorem test_decFinish :
    decFinishBody cfg ⟨{ decIn .full .active with raw := ⟨[], 4#16, 8#64, 1024#64, header1⟩ }, frame1, []⟩ =
      .go ⟨{ decIn .full .active with raw := ⟨[], 4#16, 8#64, 1024#64, header1⟩ }, frame1, []⟩ := by decide
theorem test_decFinish_noFormat :
    exec .decFinish (busy .unknown .active) =
      .next { busy .unknown .active with dec := { decIn .unknown .halted with err := 0x10#8 } } := rfl

theorem test_encInit_refused : exec (.encInit .e1) (busy .full .active) = .next { busy .full .active with cmdErr := 5#8 } := rfl
theorem test_encInit :
    (exec (.encInit .e0) { State.reset with enc0 := { encIn [0x01] 3#8 with phase := .halted, err := 0x13#8 } }) =
      .next { State.reset with enc0 := { encIn [] 3#8 with acc := Buffer.reset } } := rfl

/-- V-C9 and V-W1: the wrapped frame. -/
theorem test_encPush_wrap : wrap cfg frame1 = wrapped1 := by decide

/-- V-W5 in small: a length below 7 at the head halts the unit, the window stays. -/
theorem test_encPush_malformed :
    encFeed cfg ⟨encIn [] 1#8, []⟩ [0, 0, 0, 0, 0, 0, 0] =
      .raised .esMalformed ⟨{ encIn [0, 0, 0, 0, 0, 0, 0] 1#8 with
        acc := { Buffer.reset with window := [0, 0, 0, 0, 0, 0, 0], inSamples := 7#64 } }, []⟩ := by decide

/-- The residue of an incomplete frame is wrapped with a checksum of its own bytes (`CK(01 02) = 0x02010201`). -/
theorem test_encFinish :
    (encFlush cfg ⟨{ encIn [0x01, 0x02] 0#8 with cfgMode := 3#2 }, []⟩).state.eout =
      cfg.startBytes ++ [0x01, 0x02] ++ [0x01, 0x02, 0x01, 0x02] ++ cfg.endBytes := by decide

theorem test_mixInit :
    exec .mixInit { State.reset with mix := ⟨.halted, 0x12#8, [1], [2], 6#64⟩ } =
      .next { State.reset with mix := ⟨.active, 0#8, [], [], 0#64⟩ } := rfl

theorem test_mixPush :
    qpush (cfgOf (some 2)) .qb [0x00, 0xFF] ⟨Mix.reset, []⟩ = .go ⟨{ Mix.reset with qb := [0x00, 0xFF] }, []⟩ ∧
      qpush (cfgOf (some 1)) .qb [0x00, 0xFF] ⟨Mix.reset, []⟩ = .raised .bufOvf ⟨Mix.reset, []⟩ := by decide

/-- V-M2. -/
theorem test_mixStep :
    mixRun ⟨⟨.active, 0#8, [0x72, 0xF8, 0x1F], [0x00, 0xFF], 0#64⟩, []⟩ =
      .go ⟨⟨.active, 0#8, [0x1F], [], 4#64⟩, [0x80, 0xF2, 0x7F, 0x78]⟩ := by decide
theorem test_mixFinish :
    mixEnd ⟨⟨.active, 0#8, [0x1F], [], 4#64⟩, [0x80, 0xF2, 0x7F, 0x78]⟩ =
      .go ⟨⟨.active, 0#8, [], [], 6#64⟩, [0x80, 0xF2, 0x7F, 0x78, 0x80, 0x9F]⟩ := by decide

/-! ## For each statement with hypotheses, a state and operands that meet them -/

theorem witness_DecodeInvertsEncode : Instr.wellFormed (.encPush .e1 [0xFF#8]) = true := by decide

theorem witness_EncodeInvertsDecode : decode ⟨0x2101000000000001#64, [0xFF#8]⟩ = .instr (.encPush .e1 [0xFF#8]) := by
  decide

theorem witness_DecodeFollowsOpcodeTable :
    ([0xFF#8] : Bytes).length = payloadLength 0x2101000000000001#64 ∧
      ∃ r ∈ opcodeTable, r.op = .encPush ∧ (0x2101000000000001#64 : Word64) &&& r.mask = r.pattern := by decide

/-- One word for each clause: a reserved `OP`, a reserved field, `SEL` 2, `SEL` 1. -/
theorem witness_DecodeChecksInOrder :
    opcodeOf (opField 0x0400000000000000#64) = none ∧
      (opcodeOf (opField 0x2002000100000000#64) = some .encInit ∧ reservedBitsSet (formatOf .encInit) 0x2002000100000000#64) ∧
      (¬ reservedBitsSet (formatOf .encInit) 0x2002000000000000#64 ∧ selIsIndex (formatOf .encInit) ∧
        1 < (selField 0x2002000000000000#64).toNat) ∧
      (¬ reservedBitsSet (formatOf .encInit) 0x2001000000000000#64 ∧
        (selIsIndex (formatOf .encInit) → (selField 0x2001000000000000#64).toNat ≤ 1)) := by
  refine ⟨by decide, ⟨by decide, .inl (by decide)⟩, ⟨?_, .inl rfl, by decide⟩, ⟨?_, fun _ => by decide⟩⟩ <;>
    · rintro (h | ⟨h, _⟩ | ⟨_, h⟩)
      · exact h (by decide)
      · rcases h with h | h <;> cases h
      · exact h (by decide)

theorem witness_StepRunsTheDecodedCommand :
    { State.reset with input := [.command ⟨0x3000000000000000#64, []⟩] }.input = [.command ⟨0x3000000000000000#64, []⟩] ∧
      decode ⟨0x3000000000000000#64, []⟩ = .instr .mixInit := by decide

/-- A refused `RDREG`, and a refused word of another opcode. -/
theorem witness_StepRefusesRejectedWord :
    decode ⟨0x0200000000000001#64, []⟩ = .refused .eRsvd ∧ opField 0x0200000000000001#64 = 0x02#8 ∧
      decode ⟨0x0500000000000000#64, []⟩ = .refused .eOpcode ∧ opField 0x0500000000000000#64 ≠ 0x02#8 := by decide

theorem witness_StepStopsOnNoCommand :
    step { State.reset with input := [.command ⟨0x1100000000000001#64, []⟩] } = .fault .notACommand ∧
      State.reset.input = [] := ⟨rfl, rfl⟩

theorem witness_HardwareResetEqualsResetCommand :
    { busy .full .active with input := [.hardReset] }.input = [.hardReset] := rfl

theorem blank_sound (n : BitVec 16) (h : 0 < n.toNat) : (⟨[], n, 0#64, 0#64, 0#56⟩ : Buffer).Sound := ⟨h, by simp, by simp⟩

/-- A machine in the middle of its work has the invariant, and its next step is a `MIX_STEP`. -/
theorem witness_StepKeepsInvariant :
    State.Inv { busy .full .active with input := [.command ⟨0x3200000000000000#64, []⟩] } ∧
      step { busy .full .active with input := [.command ⟨0x3200000000000000#64, []⟩] } = .next (busy .full .active) := by
  refine ⟨⟨by decide, ?_, ?_, ?_, ?_⟩, rfl⟩
  · exact ⟨blank_sound _ (by decide), blank_sound _ (by decide), blank_sound _ (by decide), by decide, by decide, by decide,
      fun _ => ⟨⟨rfl, rfl, rfl, rfl⟩, ⟨rfl, rfl, rfl, rfl⟩⟩, by decide, by decide, fun h => absurd h (by decide)⟩
  · exact ⟨blank_sound _ (by decide), rfl, by decide, by decide, by decide, fun _ => .inl (by decide), by decide⟩
  · exact ⟨blank_sound _ (by decide), rfl, by decide, by decide, by decide, fun h => absurd h (by decide), by decide⟩
  · exact ⟨fitsCap_nil _, fitsCap_nil _, by decide, by decide, by decide, by decide, by decide⟩

theorem witness_NopDoesNothing : opField 0x00FF000000000000#64 = 0x00#8 ∧ selField 0x00FF000000000000#64 ≠ 0 := by decide

/-- The conditions of the 64-bit views, at reset. -/
theorem witness_RdregReadsTheMap :
    State.reset.dec.raw.window.length < 2 ^ 64 ∧
      (-(2 ^ 63) ≤ ((State.reset.buffer .raw).inSamples.toNat : Int) -
          ((State.reset.buffer .raw).window.length / (State.reset.buffer .raw).bps.toNat : Nat) ∧
        ((State.reset.buffer .raw).inSamples.toNat : Int) -
          ((State.reset.buffer .raw).window.length / (State.reset.buffer .raw).bps.toNat : Nat) < 2 ^ 63) ∧
      State.reset.mix.qa.length < 2 ^ 64 ∧ State.reset.mix.qb.length < 2 ^ 64 := by decide

/-- First and last numbers of the map, and reserved numbers next to it. -/
theorem witness_RegisterNumbersAreChecked :
    (0x00#8).toNat ∈ registerNumbers ∧ (0x85#8).toNat ∈ registerNumbers ∧ (0x03#8).toNat ∉ registerNumbers ∧
      (0x47#8).toNat ∉ registerNumbers ∧ (0xFF#8).toNat ∉ registerNumbers := by decide

/-- The widest values that fit. -/
theorem witness_WrregStores :
    State.reset.dec.phase ≠ .active ∧ (State.reset.enc .e1).phase ≠ .active ∧ (255#32).toNat < 2 ^ 8 ∧
      (3#32).toNat < 2 ^ 2 := by decide

/-- The narrowest values that do not fit, an `Active` unit, a read-only register. -/
theorem witness_WrregRefusesInOrder :
    (busy .full .active).dec.phase = .active ∧ ((busy .full .active).enc .e0).phase = .active ∧
      (busy .full .finished).dec.phase ≠ .active ∧ ((busy .full .active).enc .e1).phase ≠ .active ∧
      2 ^ 8 ≤ (256#32).toNat ∧ 2 ^ 2 ≤ (4#32).toNat ∧ (0x46#8).toNat ∈ registerNumbers ∧
      (0x46#8).toNat ∉ writableNumbers := by decide

theorem witness_OnlyActiveUnitsRun :
    unitOf (.encPush .e1 [0xFF#8]) = some (.enc .e1) ∧ .encPush .e1 [0xFF#8] ≠ initOf (.enc .e1) ∧
      (busy .full .active).phase (.enc .e1) ≠ .active := by decide

/-- The four writers of `PHASE`: `RESET`, `INIT`, `FINISH`, a unit fault. -/
theorem witness_PhaseIsWrittenByFewCommands :
    (exec .reset (busy .full .active) = .next State.reset ∧ State.reset.phase .dec ≠ (busy .full .active).phase .dec) ∧
      (exec .mixInit State.reset = .next { State.reset with mix := { Mix.reset with phase := .active } } ∧
        State.reset.phase .mix ≠ .active) ∧
      (exec .mixFinish (busy .full .active) =
          .next { busy .full .active with mix := { Mix.reset with phase := .finished } } ∧
        (busy .full .active).phase .mix ≠ .finished) ∧
      (exec .decFinish (busy .unknown .active) =
          .next { busy .unknown .active with dec := { decIn .unknown .halted with err := 0x10#8 } } ∧
        (busy .unknown .active).phase .dec ≠ .halted) := ⟨⟨rfl, by decide⟩, ⟨rfl, by decide⟩, ⟨rfl, by decide⟩, rfl, by decide⟩

/-- A configuration write to a halted encoder. -/
theorem witness_HaltedUnitIsFrozen :
    (busy .full .active).phase (.enc .e1) = .halted ∧
      exec (.wrreg 0x62#8 7#32) (busy .full .active) =
        .next ((busy .full .active).setEnc .e1 { (busy .full .active).enc .e1 with cfgNch := 7#8 }) ∧
      .wrreg 0x62#8 7#32 ≠ Instr.reset ∧ .wrreg 0x62#8 7#32 ≠ initOf (.enc .e1) := ⟨rfl, rfl, by decide, by decide⟩

theorem witness_FaultEntryHaltsOneUnit :
    exec .decFinish (busy .unknown .active) =
        .next { busy .unknown .active with dec := { decIn .unknown .halted with err := 0x10#8 } } ∧
      (busy .unknown .active).phase .dec ≠ .halted := ⟨rfl, by decide⟩

/-- A refusal by argument, a clear, a refused read. -/
theorem witness_RefusalChangesCmdErrAlone :
    (exec .decInit State.reset = .next { State.reset with cmdErr := 5#8 } ∧ (5#8 : BitVec 8) ≠ State.reset.cmdErr) ∧
      (exec (.wrreg 0x01#8 9#32) { State.reset with cmdErr := 5#8 } = .next State.reset ∧ State.reset.cmdErr ≠ 5#8) ∧
      (exec (.rdreg 0x26#8) State.reset = .next { State.reset with cmdErr := 3#8, reads := [0#64] } ∧
        (3#8 : BitVec 8) ≠ State.reset.cmdErr) := ⟨⟨rfl, by decide⟩, ⟨rfl, by decide⟩, rfl, by decide⟩

/-- A capacity of 1 byte and what is one byte too much, for each of the seven buffer memories. -/
theorem witness_PushPastCapacityChangesNothing :
    ((decIn .unknown .active).mode = .unknown ∧
        overCap (cfgOf (some 1)) ((decIn .unknown .active).raw.window.length + [1#8, 2#8].length) = true) ∧
      ((decIn .mix .active).mode = .mix ∧
        overCap (cfgOf (some 1)) ((decIn .mix .active).lo.window.length + [1#8, 2#8, 3#8, 4#8].length / 2) = true) ∧
      overCap (cfgOf (some 1)) ((encIn [7#8] 1#8).acc.window.length + [1#8].length) = true ∧
      overCap (cfgOf (some 1)) (Mix.reset.qa.length + [1#8, 2#8].length) = true ∧
      overCap (cfgOf (some 1)) (Mix.reset.qb.length + [1#8].length) = false := by decide

theorem witness_CommandStaysInItsUnit :
    unitOf .mixStep = some .mix ∧ exec .mixStep (busy .full .active) = .next (busy .full .active) := ⟨rfl, rfl⟩

/-- Two machines that agree on `MIX` alone. -/
theorem witness_UnitSeesOnlyItself :
    unitOf .mixFinish = some .mix ∧
      SameUnit .mix (busy .full .active) { State.reset with mix := { Mix.reset with phase := .active } } ∧
      exec .mixFinish (busy .full .active) =
        .next { busy .full .active with mix := { Mix.reset with phase := .finished } } ∧
      exec .mixFinish { State.reset with mix := { Mix.reset with phase := .active } } =
        .next { State.reset with mix := { Mix.reset with phase := .finished } } := ⟨rfl, ⟨rfl, rfl⟩, rfl, rfl⟩

theorem witness_CommandsToTwoUnitsCommute :
    ∃ s1 s2 t1 t2, exec .mixFinish (busy .unknown .active) = .next s1 ∧ exec .decFinish s1 = .next s2 ∧
      exec .decFinish (busy .unknown .active) = .next t1 ∧ exec .mixFinish t1 = .next t2 ∧
      unitOf .mixFinish ≠ unitOf .decFinish := ⟨_, _, _, _, rfl, rfl, rfl, rfl, by decide⟩

theorem witness_OutputsOnlyGrow :
    step { busy .full .active with ports := ⟨[1], [2], [3], [4], [5]⟩, input := [.hardReset] } =
      .next { State.reset with ports := ⟨[1], [2], [3], [4], [5]⟩ } := rfl

/-- A mix step of one sample, with the decoder's mode decided. -/
theorem witness_CountersOnlyRise :
    exec .mixStep { busy .full .active with mix := ⟨.active, 0#8, [0x72], [0x00], 0#64⟩ } =
        .next { busy .full .active with
          mix := ⟨.active, 0#8, [], [], 2#64⟩
          ports := { State.reset.ports with mout := [0x80, 0xF2] } } ∧
      Instr.mixStep ≠ .reset ∧ (∀ u, Instr.mixStep ≠ .encInit u) ∧ (busy .full .active).dec.mode ≠ .unknown :=
  ⟨rfl, by decide, fun u => by cases u <;> decide, by decide⟩

/-- The return to `Unknown` by `DEC_INIT`; the decision of a `DEC_PUSH` is shown by `test_decPush_full`. -/
theorem witness_ModeIsDecidedOnce :
    exec .decInit (busy .half .finished) = .next { busy .half .finished with dec := decIn .unknown .active } ∧
      (decIn .unknown .active).mode ≠ (busy .half .finished).dec.mode := ⟨rfl, by decide⟩

theorem witness_DecInitOpensAStream : State.reset.dec.nch = 0#8 ∧ (busy .half .finished).dec.nch ≠ 0#8 := by decide

theorem witness_DecPushDetectsTheFormat :
    (busy .unknown .active).dec.phase = .active ∧ (busy .unknown .active).dec.mode = .unknown ∧
      (busy .unknown .active).dec.raw.inSamples.toNat + [1#8, 2#8, 3#8, 4#8].length / 4 < 2 ^ 64 ∧
      [1#8, 2#8, 3#8, 4#8].length / 2 / (busy .unknown .active).dec.lo.bps.toNat < 2 ^ 64 ∧
      [1#8, 2#8, 3#8, 4#8].length / 2 / (busy .unknown .active).dec.hi.bps.toNat < 2 ^ 64 := by decide

/-- One state for each mode, and the largest count the first clause admits. -/
theorem witness_DecPushExtracts :
    ((busy .full .active).dec.mode = .full ∧ (busy .full .active).dec.phase = .active) ∧
      (raw4 [] (2 ^ 64 - 1538) 0).inSamples.toNat + [1#8, 2#8, 3#8, 4#8].length / (raw4 [] 0 0).bps.toNat + 1536 < 2 ^ 64 ∧
      ((busy .half .active).dec.mode = .half ∧
        (busy .half .active).dec.lo.inSamples.toNat + [1#8, 2#8].length / 2 / (busy .half .active).dec.lo.bps.toNat + 1536 <
          2 ^ 64) ∧
      ((busy .mix .active).dec.mode = .mix ∧
        (busy .mix .active).dec.hi.inSamples.toNat + [1#8, 2#8].length / 2 / (busy .mix .active).dec.hi.bps.toNat + 1536 <
          2 ^ 64) := by decide

theorem witness_NoFrameIsAFixedPoint :
    extractOne cfg ⟨raw4 (cfg.startBytes ++ frame1) 4 0, []⟩ =
      .noFrame ⟨{ raw4 (cfg.startBytes ++ frame1) 4 0 with hdr := header1 }, []⟩ := by decide

/-- The start-marker of the test configuration has no border. -/
theorem noBorder_cfg : noBorder cfg.startBytes := by
  intro k h1 h2
  rw [startBytes_length] at h2 ⊢
  interval_cases k <;> decide

/-- Two start-markers before an end-marker. -/
theorem witness_ResyncEndsAtTheLatestMarker :
    noBorder cfg.startBytes ∧ 20 + 12 ≤ (cfg.startBytes ++ zeros 4 ++ cfg.startBytes ++ zeros 12).length ∧
      OccursAt cfg.startBytes ((cfg.startBytes ++ zeros 4 ++ cfg.startBytes ++ zeros 12).take 20) 0 ∧
      ({ raw4 [] 0 0 with hdr := headerOfBytes (headerAt (cfg.startBytes ++ zeros 4 ++ cfg.startBytes ++ zeros 12) 0) }).hdr =
        headerOfBytes (headerAt (cfg.startBytes ++ zeros 4 ++ cfg.startBytes ++ zeros 12) 0) :=
  ⟨noBorder_cfg, by decide, ⟨by decide, by decide⟩, rfl⟩

/-- V-X1, where the scan stays at the first start-marker, with counters at which one silence frame is due. -/
theorem witness_GoodFrameIsEmitted :
    find wrapped1 cfg.startBytes 0 = some 0 ∧ find wrapped1 cfg.endBytes 15 = some 21 ∧
      resync cfg wrapped1 21 ⟨0, (raw4 wrapped1 521 0).recordHeader (headerAt wrapped1 0)⟩ =
        ⟨0, { raw4 wrapped1 521 0 with hdr := header1 }⟩ ∧
      slice wrapped1 8 17 = frame1 ∧ 21 = 0 + 12 + (frameLengthOf header1).toNat ∧
      leNat (slice wrapped1 17 21) = (ck frame1).toNat ∧
      ((raw4 wrapped1 521 0).inSamples.toNat : Int) - (33 / 4 : Nat) + (0 / 4 : Nat) = 513 ∧
      ((raw4 wrapped1 521 0).outSamples.toNat : Int) ≤ 513 + 512 ∧
      1 = silenceCount (raw4 wrapped1 521 0).outSamples.toNat 513 ∧
      (raw4 wrapped1 521 0).outSamples.toNat + 1024 * (1 + 1) < 2 ^ 64 := by decide

/-- The window of V-X4 (here at 4 bytes a sample): a start-marker with a header and two bytes of a frame that was cut, then a whole wrapped frame. -/
def resyncWindow : Bytes := cfg.startBytes ++ frame1.take 7 ++ [0xDE, 0xAD] ++ wrapped1

/-- V-X4, where the scan moves to the second start-marker: its frame is the one emitted. -/
theorem witness_GoodFrameIsEmitted_resync :
    find resyncWindow cfg.startBytes 0 = some 0 ∧ find resyncWindow cfg.endBytes 15 = some 38 ∧
      resync cfg resyncWindow 38 ⟨0, (raw4 resyncWindow 12 0).recordHeader (headerAt resyncWindow 0)⟩ =
        ⟨17, { raw4 resyncWindow 12 0 with hdr := header1 }⟩ ∧
      slice resyncWindow 25 34 = frame1 ∧ 38 = 17 + 12 + (frameLengthOf header1).toNat ∧
      leNat (slice resyncWindow 34 38) = (ck frame1).toNat ∧
      ((raw4 resyncWindow 12 0).inSamples.toNat : Int) - (resyncWindow.length / 4 : Nat) + (17 / 4 : Nat) = 4 ∧
      0 = silenceCount (raw4 resyncWindow 12 0).outSamples.toNat 4 := by decide

/-- The window of V-X1 with a wrong checksum, and with a wrong length in the header; the good frame when stale by one
sample; and markers so close that the block is negative. -/
theorem witness_CorruptOrStaleFrameIsDropped :
    (find (wrapped1.set 17 0) cfg.startBytes 0 = some 0 ∧ find (wrapped1.set 17 0) cfg.endBytes 15 = some 21 ∧
        leNat (slice (wrapped1.set 17 0) 17 21) ≠ (ck (slice (wrapped1.set 17 0) 8 17)).toNat) ∧
      (find (wrapped1.set 13 0x5F) cfg.endBytes 15 = some 21 ∧
        21 ≠ 0 + 12 + (frameLengthOf (headerOfBytes (headerAt (wrapped1.set 13 0x5F) 0))).toNat) ∧
      ((raw4 wrapped1 8 513).inSamples.toNat : Int) - (wrapped1.length / 4 : Nat) + (0 / 4 : Nat) + 512 <
        (raw4 wrapped1 8 513).outSamples.toNat ∧
      (find (cfg.startBytes ++ zeros 7 ++ cfg.startBytes ++ cfg.endBytes) cfg.endBytes 15 = some 23 ∧
        23 < (resync cfg (cfg.startBytes ++ zeros 7 ++ cfg.startBytes ++ cfg.endBytes) 23 ⟨0, raw4 [] 0 0⟩).ps + 12) := by
  decide

theorem witness_OneBitFlipChangesBothChecksums : ([0xAA#8, 0xBB#8] : Bytes)[1]? = some 0xBB#8 ∧ 7 < 8 := by decide

theorem witness_ChecksumIgnoresWordOrder : (ckWords [1#8, 2#8, 3#8, 4#8]).Perm (ckWords [3#8, 4#8, 1#8, 2#8]) := by decide

/-- The count at its edge: nothing up to 512 samples behind, one silence frame from 513 on. -/
theorem witness_DriftLoopMakesTheLeastSilence :
    0 = silenceCount 0 512 ∧ 1 = silenceCount 0 513 ∧ 1 = silenceCount 0 1536 ∧ 2 = silenceCount 0 1537 ∧
      0 = silenceCount 513 1 ∧ (513 : Int) ≤ 1 + 512 := by decide

theorem witness_DecFinishWithoutFormatFaults :
    (busy .unknown .active).dec.phase = .active ∧ (busy .unknown .active).dec.mode = .unknown := by decide

theorem witness_DecFinishDrains :
    (busy .full .active).dec.mode = .full ∧ (busy .half .active).dec.mode = .half ∧ (busy .mix .active).dec.mode = .mix ∧
      (busy .mix .active).dec.phase = .active ∧ (busy .mix .active).dec.lo.inSamples.toNat + 512 < 2 ^ 64 ∧
      (busy .mix .active).dec.hi.inSamples.toNat + 512 < 2 ^ 64 := by decide

/-- The last index of the table and the first above it. -/
theorem witness_HeaderFieldsByByteArithmetic : (12#4).toNat < 13 ∧ 13 ≤ (13#4).toNat := by decide

theorem witness_FindAnswersTheLeastOccurrence : cfg.startBytes ≠ [] := by decide

theorem witness_LanesUndoPackings : [0x72#8, 0xF8#8].length = [0x00#8, 0xFF#8].length := rfl

theorem witness_MixBlockBytes :
    [0x72#8, 0xF8#8].length = [0x00#8, 0xFF#8].length ∧ [0x72#8, 0xF8#8][1]? = some 0xF8#8 ∧
      [0x00#8, 0xFF#8][1]? = some 0xFF#8 := by decide

/-- An encoder in each of the three modes, and the last byte of a track. -/
theorem witness_WrappedFrameLayout :
    { encIn [] 1#8 with cfgMode := 1#2 }.cfgMode = 1#2 ∧ { encIn [] 1#8 with cfgMode := 2#2 }.cfgMode = 2#2 ∧
      { encIn [] 1#8 with cfgMode := 3#2 }.cfgMode = 3#2 ∧ [0x72#8, 0xF8#8, 0x00#8][2]? = some 0x00#8 := by decide

theorem witness_EncInitOpensAStream :
    (State.reset.enc .e0).cfgMode = 0#2 ∧ (encIn [] 1#8).cfgMode ≠ 0#2 ∧ (encIn [] 1#8).cfgNch ≠ 0#8 ∧
      (encIn [] 0#8).cfgNch = 0#8 := by decide

/-- Six bytes; seven bytes that ask for nine; seven bytes that ask for none. -/
theorem witness_EncPushWithoutAFrame :
    ((busy .full .active).enc .e0).phase = .active ∧ (frame1.take 6).length < 7 ∧
      (7 ≤ (frame1.take 7).length ∧ 7 ≤ (frameLengthOf (headerOfBytes (frame1.take 7))).toNat ∧
        (frame1.take 7).length < (frameLengthOf (headerOfBytes (frame1.take 7))).toNat) ∧
      (7 ≤ (zeros 7).length ∧ (frameLengthOf (headerOfBytes ((zeros 7).take 7))).toNat < 7) := by decide

theorem frame1_isFrame : isFrame frame1 := ⟨by decide, by decide⟩

theorem witness_EncPushWrapsEveryFrame :
    (encIn [] 1#8).phase = .active ∧ (encIn [] 1#8).acc.window = [] ∧
      { encIn [] 1#8 with delayDone := true }.delayDone = true ∧ (∀ f ∈ [frame1, frame1], isFrame f) ∧
      (encIn [] 1#8).acc.inSamples.toNat + [frame1, frame1].flatten.length / (encIn [] 1#8).acc.bps.toNat < 2 ^ 64 ∧
      (encIn [] 1#8).acc.outSamples.toNat + 1024 * [frame1, frame1].length < 2 ^ 64 :=
  ⟨rfl, rfl, rfl, by simp [frame1_isFrame], by decide, by decide⟩

/-- V-W6: 50 ms at 48000 Hz are two silence frames. -/
theorem witness_EncPushPrependsTheDelay :
    (encIn [] 1#8).acc.window = [] ∧ (encIn [] 1#8).delayDone = false ∧ isFrame frame1 ∧
      channelCountOf (headerOfBytes (frame1.take 7)) = 2#3 ∧ cfg.delayFrames (50 * 48000 / 1000) = 2 ∧
      overCap cfg frame1.length = false ∧
      (encIn [] 1#8).acc.inSamples.toNat + frame1.length / (encIn [] 1#8).acc.bps.toNat < 2 ^ 64 ∧
      (encIn [] 1#8).acc.outSamples.toNat + 1024 * (2 + 1) < 2 ^ 64 :=
  ⟨rfl, rfl, frame1_isFrame, by decide, by decide, by decide, by decide, by decide⟩

/-- A frame cut in its header. -/
theorem witness_EncodingIgnoresPayloadCuts :
    (encIn [] 0#8).acc.bps = 1#16 ∧
      overCap cfg ((encIn [] 0#8).acc.window.length + (frame1.take 4).length + (frame1.drop 4).length) = false ∧
      ∃ io1 io2, encFeed cfg ⟨encIn [] 0#8, []⟩ (frame1.take 4) = .go io1 ∧
        encFeed cfg io1 (frame1.drop 4) = .go io2 := ⟨by decide, by decide, _, _, rfl, rfl⟩

/-- An empty accumulator, and a residue at the last count that fits and the first that does not. -/
theorem witness_EncFinishFlushesTheResidue :
    ((busy .full .active).enc .e0).phase = .active ∧ (encIn [] 1#8).acc.window = [] ∧ (encIn [1] 1#8).acc.window ≠ [] ∧
      (BitVec.ofNat 64 (2 ^ 64 - 2048)).toNat + 1024 < 2 ^ 64 ∧ 2 ^ 64 ≤ (BitVec.ofNat 64 (2 ^ 64 - 1024)).toNat + 1024 := by
  decide

/-- The default of `delay_frames` has the property the rules assume (45_wrapper R158). -/
theorem delayFramesOk_cfg : delayFramesOk cfg := by
  intro d
  show |(1024 * (d / 1024 : Nat) : Int) - d| < 1024
  rw [abs_lt]
  omega

theorem witness_FullModeRoundTrip :
    cfg.bufCap = none ∧ delayFramesOk cfg ∧ cfg.startMarker[0] ≠ 0#8 ∧ isFrame frame1 ∧ frame1.length + 24 ≤ 2048 * 1 ∧
      find (wrap cfg frame1) cfg.endBytes 15 = some (frame1.length + 12) ∧
      find ((wrap cfg frame1).take (frame1.length + 12)) cfg.startBytes 8 = none ∧
      { encIn [] 1#8 with cfgMode := 1#2 }.acc = ⟨[], 1#16, 0#64, 0#64, 0#56⟩ ∧ (encIn [] 1#8).cfgDelayMs = 0#32 ∧
      [frame1].flatten.length < 2 ^ 64 ∧ 1024 * [frame1].length + 1536 < 2 ^ 64 :=
  ⟨rfl, delayFramesOk_cfg, by decide, frame1_isFrame, by decide, by decide, by decide, rfl, rfl, by decide, by decide⟩

theorem witness_MixPushQueues : (busy .full .active).mix.phase = .active := rfl

/-- The total at the last value that fits and at the first that does not. -/
theorem witness_MixStepMixesWhatBothHold :
    (busy .full .active).mix.phase = .active ∧ State.reset.mix.phase ≠ .active ∧
      (opField 0x3200000000000001#64 = 0x32#8 ∧ argField 0x3200000000000001#64 ≠ 0) ∧
      (BitVec.ofNat 64 (2 ^ 64 - 4)).toNat + 2 * min [1#8].length [2#8].length < 2 ^ 64 ∧
      2 ^ 64 ≤ (BitVec.ofNat 64 (2 ^ 64 - 2)).toNat + 2 * min [1#8].length [2#8].length := by decide

theorem witness_MixFinishPadsTheTail :
    (busy .full .active).mix.phase = .active ∧ State.reset.mix.phase ≠ .active ∧
      (opField 0x3300000000000001#64 = 0x33#8 ∧ argField 0x3300000000000001#64 ≠ 0) ∧
      (BitVec.ofNat 64 (2 ^ 64 - 4)).toNat + 2 * max [1#8].length ([] : Bytes).length < 2 ^ 64 ∧
      2 ^ 64 ≤ (BitVec.ofNat 64 (2 ^ 64 - 2)).toNat + 2 * max [1#8].length ([] : Bytes).length := by decide

/-- In every build: a mix of two empty tracks. -/
theorem witness_MixTotalsIgnoreFeedingOrder :
    (busy .full .active).mix = ⟨.active, 0#8, [], [], 0#64⟩ ∧ (∀ i ∈ [Instr.mixStep], isMixFeed i = true) ∧
      runList ([.mixStep] ++ [.mixFinish]) (busy .full .active) =
        some { busy .full .active with mix := { Mix.reset with phase := .finished } } :=
  ⟨rfl, by decide, rfl⟩

/-- In a build that takes three bytes: two bytes and one byte, pushed in two orders' worth of commands. -/
theorem witness_MixTotalsIgnoreFeedingOrder_bytes (h : overCap Config.build 3 = false) :
    runList ([.mixPush .qa [0x72, 0xF8], .mixStep, .mixPush .qb [0x00]] ++ [.mixFinish]) (busy .full .active) =
      some { busy .full .active with
        mix := ⟨.finished, 0#8, [], [], 4#64⟩
        ports := { State.reset.ports with mout := [0x80, 0xF2, 0x80, 0x78] } } := by
  have q1 : qpush Config.build .qa [0x72, 0xF8] ⟨⟨.active, 0#8, [], [], 0#64⟩, []⟩ =
      .go ⟨⟨.active, 0#8, [0x72, 0xF8], [], 0#64⟩, []⟩ := if_neg (Bool.eq_false_iff.1 (overCap_mono (by simp) h))
  have q2 : qpush Config.build .qb [0x00] ⟨⟨.active, 0#8, [0x72, 0xF8], [], 0#64⟩, []⟩ =
      .go ⟨⟨.active, 0#8, [0x72, 0xF8], [0x00], 0#64⟩, []⟩ := if_neg (Bool.eq_false_iff.1 (overCap_mono (by simp) h))
  have e1 : exec (.mixPush .qa [0x72, 0xF8]) (busy .full .active) =
      .next { busy .full .active with mix := ⟨.active, 0#8, [0x72, 0xF8], [], 0#64⟩ } := by
    show Host.Outcome.next (State.settle .mix
      (Flow.map _ (qpush Config.build .qa [0x72, 0xF8] ⟨⟨.active, 0#8, [], [], 0#64⟩, []⟩))) = _
    rw [q1]
    rfl
  have e2 : exec (.mixPush .qb [0x00]) { busy .full .active with mix := ⟨.active, 0#8, [0x72, 0xF8], [], 0#64⟩ } =
      .next { busy .full .active with mix := ⟨.active, 0#8, [0x72, 0xF8], [0x00], 0#64⟩ } := by
    show Host.Outcome.next (State.settle .mix
      (Flow.map _ (qpush Config.build .qb [0x00] ⟨⟨.active, 0#8, [0x72, 0xF8], [], 0#64⟩, []⟩))) = _
    rw [q2]
    rfl
  have e3 : exec .mixStep { busy .full .active with mix := ⟨.active, 0#8, [0x72, 0xF8], [], 0#64⟩ } =
      .next { busy .full .active with mix := ⟨.active, 0#8, [0x72, 0xF8], [], 0#64⟩ } := rfl
  simp only [List.cons_append, List.nil_append, runList, e1, e2, e3]
  rfl

end Sys2Proof.Tests
end

section
/-! One step, rule by rule: what `step` does with a command at the head of the queue, and what `runCommand` does with a
command that decodes. -/

namespace Sys2Proof.Machine

/-- The host's next command is taken off the queue before it runs (00_scope R5, log 1). -/
theorem step_of_command {s : State} {c : Command} {rest : List HostInput} (hinput : s.input = .command c :: rest) :
    step s = runCommand c { s with input := rest } := by
  rw [step, hinput]

/-- 30_encoding R65: a command that decodes is run, with no check between the decoder and `exec`. -/
theorem runCommand_of_instr {c : Command} {i : Instr} (hdecode : decode c = .instr i) (s : State) :
    runCommand c s = exec i s := by
  rw [runCommand, hdecode]

/-- Settles O6: the queue's head is a command, so the step runs it, and it decodes, so running it is `exec`. -/
theorem stepRunsTheDecodedCommand : Obligations.StepRunsTheDecodedCommand := by
  intro s c rest i hinput hdecode
  calc step s = runCommand c { s with input := rest } := step_of_command hinput
    _ = exec i { s with input := rest } := runCommand_of_instr hdecode _

end Sys2Proof.Machine
end

section
/-! The register map (10_state R31): which numbers name a register, and what `RDREG` answers for each of them; then the
reset values (R33). -/

namespace Sys2Proof.Machine

/-! ## Reading a register -/

/-- 48_commands R182: `RDREG` of a register hands its value back and changes nothing. -/
theorem exec_rdreg_of_reg {sel : BitVec 8} {r : Reg} (hreg : regOf sel = some r) (s : State) :
    exec (.rdreg sel) s = .next (s.returnRead (readReg Config.build s r)) := by
  rw [exec, execRdreg, hreg]

/-- 48_commands R182: `RDREG` of a reserved number. -/
theorem exec_rdreg_reserved {sel : BitVec 8} (hreg : regOf sel = none) (s : State) :
    exec (.rdreg sel) s = .next (s.refuseRead .eSel) := by
  rw [exec, execRdreg, hreg]

/-- 48_commands R186: `WRREG` of a register. -/
theorem exec_wrreg_of_reg {sel : BitVec 8} {r : Reg} (hreg : regOf sel = some r) (v : BitVec 32) (s : State) :
    exec (.wrreg sel v) s = .next (writeReg r v s) := by
  rw [exec, execWrreg, hreg]

/-- 48_commands R186: `WRREG` of a reserved number. -/
theorem exec_wrreg_reserved {sel : BitVec 8} (hreg : regOf sel = none) (v : BitVec 32) (s : State) :
    exec (.wrreg sel v) s = .next (s.refuse .eSel) := by
  rw [exec, execWrreg, hreg]

/-- A number reads as the content of the register it names. -/
theorem readsAs_of_reg {s : State} {sel : Nat} {r : Reg} {v : Word64} (hreg : regOf (BitVec.ofNat 8 sel) = some r)
    (hread : readReg Config.build s r = v) : ReadsAs s sel v :=
  hread ▸ exec_rdreg_of_reg hreg s

/-- The numbers of the map are those that name a register (10_state R31, R32). -/
theorem regOf_isSome (sel : BitVec 8) : (regOf sel).isSome = decide (sel.toNat ∈ registerNumbers) := by
  revert sel
  decide

theorem regOf_of_mem {sel : BitVec 8} (hmem : sel.toNat ∈ registerNumbers) : ∃ r, regOf sel = some r :=
  Option.isSome_iff_exists.1 ((regOf_isSome sel).trans (decide_eq_true hmem))

theorem regOf_of_not_mem {sel : BitVec 8} (hmem : sel.toNat ∉ registerNumbers) : regOf sel = none :=
  Option.not_isSome_iff_eq_none.1 (by simp [regOf_isSome, hmem])

/-- Settles O16: the number decides which of the two accesses' arms runs. -/
theorem registerNumbersAreChecked : Obligations.RegisterNumbersAreChecked := by
  intro sel s
  refine ⟨fun hmem => ?_, fun hmem => ⟨?_, fun v => ?_⟩⟩
  · obtain ⟨r, hreg⟩ := regOf_of_mem hmem
    exact ⟨_, exec_rdreg_of_reg hreg s⟩
  · exact exec_rdreg_reserved (regOf_of_not_mem hmem) s
  · exact exec_wrreg_reserved (regOf_of_not_mem hmem) v s

/-! ## The content of each register -/

/-- The number of a buffer register (10_state R31, second table). -/
theorem regOf_buf (b : BufName) :
    regOf (BitVec.ofNat 8 (bufBase b)) = some (.buf b .length) ∧
      regOf (BitVec.ofNat 8 (bufBase b + 1)) = some (.buf b .bps) ∧
      regOf (BitVec.ofNat 8 (bufBase b + 2)) = some (.buf b .inSamples) ∧
      regOf (BitVec.ofNat 8 (bufBase b + 3)) = some (.buf b .outSamples) ∧
      regOf (BitVec.ofNat 8 (bufBase b + 4)) = some (.buf b .hdr) ∧
      regOf (BitVec.ofNat 8 (bufBase b + 5)) = some (.buf b .inStart) := by
  rcases b with _ | _ | _ | (_ | _) <;> decide

theorem natView_fits {cfg : Config} {n : Nat} (h : n < 2 ^ 64) : natView cfg n = BitVec.ofNat 64 n := if_pos h

theorem intView_fits {cfg : Config} {v : Int} (h1 : -(2 ^ 63) ≤ v) (h2 : v < 2 ^ 63) :
    intView cfg v = BitVec.ofInt 64 v := if_pos ⟨h1, h2⟩

/-- Appending a 2-bit code multiplies by 4 and adds. -/
theorem append_code_toNat {n : Nat} (x : BitVec n) (y : BitVec 2) : (x ++ y).toNat = 4 * x.toNat + y.toNat := by
  rw [BitVec.toNat_append, ← Nat.shiftLeft_add_eq_or_of_lt y.isLt, Nat.shiftLeft_eq, Nat.mul_comm]

/-- `PHASES` packs the four phases two bits each, `DEC` lowest (10_state R11). -/
theorem phasesView_toNat (s : State) :
    (phasesView s).toNat = (phaseCode s.dec.phase).toNat + 4 * (phaseCode s.enc0.phase).toNat +
      16 * (phaseCode s.enc1.phase).toNat + 64 * (phaseCode s.mix.phase).toNat := by
  refine Eq.trans (append_code_toNat _ _) ?_
  rw [append_code_toNat, append_code_toNat]
  omega

/-- A view of at most 64 bits reads zero-extended. -/
theorem setWidth_eq_ofNat {w : Nat} (x : BitVec w) {n : Nat} (h : x.toNat = n) : x.setWidth 64 = BitVec.ofNat 64 n := by
  subst h
  exact (BitVec.ofNat_toNat 64 x).symm

theorem delayDone_view (d : Bool) : (BitVec.ofBool d).setWidth 64 = if d then 1#64 else 0#64 := by
  cases d <;> rfl

theorem totalSat32_view (total : BitVec 64) :
    (totalSat32 total).setWidth 64 = BitVec.ofNat 64 (min total.toNat (2 ^ 32 - 1)) :=
  setWidth_eq_ofNat _ (Nat.mod_eq_of_lt (by omega))

/-- The six registers of a buffer read as the second table of 10_state R31 says. -/
theorem readsAs_buffer (s : State) (b : BufName) :
    ((s.buffer b).window.length < 2 ^ 64 → ReadsAs s (bufBase b) (BitVec.ofNat 64 (s.buffer b).window.length)) ∧
      ReadsAs s (bufBase b + 1) ((s.buffer b).bps.setWidth 64) ∧
      ReadsAs s (bufBase b + 2) (s.buffer b).inSamples ∧ ReadsAs s (bufBase b + 3) (s.buffer b).outSamples ∧
      ReadsAs s (bufBase b + 4) ((s.buffer b).hdr.setWidth 64) ∧
      ∀ v : Int, v = (s.buffer b).inStart → -(2 ^ 63) ≤ v → v < 2 ^ 63 →
        ReadsAs s (bufBase b + 5) (BitVec.ofInt 64 v) := by
  obtain ⟨hlength, hbps, hin, hout, hhdr, hstart⟩ := regOf_buf b
  refine ⟨fun h => readsAs_of_reg hlength (natView_fits h), readsAs_of_reg hbps rfl, readsAs_of_reg hin rfl,
    readsAs_of_reg hout rfl, readsAs_of_reg hhdr rfl, ?_⟩
  rintro v rfl h1 h2
  exact readsAs_of_reg hstart (intView_fits h1 h2)

/-- The seven registers of an encoder's bank read as 10_state R31 says. -/
theorem readsAs_encoder (s : State) (u : EncIndex) (base : Nat)
    (hbase : base = match u with | .e0 => 0x40 | .e1 => 0x60) :
    ReadsAs s base ((phaseCode (s.enc u).phase).setWidth 64) ∧
      ReadsAs s (base + 1) ((s.enc u).cfgMode.setWidth 64) ∧ ReadsAs s (base + 2) ((s.enc u).cfgNch.setWidth 64) ∧
      ReadsAs s (base + 3) ((s.enc u).cfgRate.setWidth 64) ∧ ReadsAs s (base + 4) ((s.enc u).cfgDelayMs.setWidth 64) ∧
      ReadsAs s (base + 5) ((s.enc u).err.setWidth 64) ∧
      ReadsAs s (base + 6) (if (s.enc u).delayDone then 1#64 else 0#64) := by
  have hnum : regOf (BitVec.ofNat 8 base) = some (.encPhase u) ∧
      regOf (BitVec.ofNat 8 (base + 1)) = some (.encCfgMode u) ∧
      regOf (BitVec.ofNat 8 (base + 2)) = some (.encCfgNch u) ∧
      regOf (BitVec.ofNat 8 (base + 3)) = some (.encCfgRate u) ∧
      regOf (BitVec.ofNat 8 (base + 4)) = some (.encCfgDelayMs u) ∧
      regOf (BitVec.ofNat 8 (base + 5)) = some (.encErr u) ∧
      regOf (BitVec.ofNat 8 (base + 6)) = some (.encDelayDone u) := by
    cases u <;> subst hbase <;> decide
  obtain ⟨hphase, hmode, hnch, hrate, hdelay, herr, hdone⟩ := hnum
  exact ⟨readsAs_of_reg hphase rfl, readsAs_of_reg hmode rfl, readsAs_of_reg hnch rfl, readsAs_of_reg hrate rfl,
    readsAs_of_reg hdelay rfl, readsAs_of_reg herr rfl, readsAs_of_reg hdone (delayDone_view _)⟩

/-- Settles O15, register by register; the buffers and the encoders' banks are each read once for all of them. -/
theorem rdregReadsTheMap : Obligations.RdregReadsTheMap := by
  intro s
  have hid : ReadsAs s 0x00 0x46415758#64 := readsAs_of_reg (r := .id) (by decide) rfl
  have hcmdErr : ReadsAs s 0x01 (s.cmdErr.setWidth 64) := readsAs_of_reg (r := .cmdErr) (by decide) rfl
  have hphases := readsAs_of_reg (s := s) (sel := 0x02) (r := .phases) (by decide)
    (setWidth_eq_ofNat _ (phasesView_toNat s))
  have hdecPhase : ReadsAs s 0x10 ((phaseCode s.dec.phase).setWidth 64) :=
    readsAs_of_reg (r := .decPhase) (by decide) rfl
  have hdecMode : ReadsAs s 0x11 ((modeCode s.dec.mode).setWidth 64) := readsAs_of_reg (r := .decMode) (by decide) rfl
  have hdecNch : ReadsAs s 0x12 (s.dec.nch.setWidth 64) := readsAs_of_reg (r := .decNch) (by decide) rfl
  have hdecErr : ReadsAs s 0x13 (s.dec.err.setWidth 64) := readsAs_of_reg (r := .decErr) (by decide) rfl
  have hmixPhase : ReadsAs s 0x80 ((phaseCode s.mix.phase).setWidth 64) :=
    readsAs_of_reg (r := .mixPhase) (by decide) rfl
  have hmixErr : ReadsAs s 0x81 (s.mix.err.setWidth 64) := readsAs_of_reg (r := .mixErr) (by decide) rfl
  have hmixQa (h : s.mix.qa.length < 2 ^ 64) : ReadsAs s 0x82 (BitVec.ofNat 64 s.mix.qa.length) :=
    readsAs_of_reg (r := .mixQaLen) (by decide) (natView_fits h)
  have hmixQb (h : s.mix.qb.length < 2 ^ 64) : ReadsAs s 0x83 (BitVec.ofNat 64 s.mix.qb.length) :=
    readsAs_of_reg (r := .mixQbLen) (by decide) (natView_fits h)
  have hmixTotal : ReadsAs s 0x84 s.mix.total := readsAs_of_reg (r := .mixTotal) (by decide) rfl
  have hmixSat := readsAs_of_reg (s := s) (sel := 0x85) (r := .mixTotalSat32) (by decide) (totalSat32_view s.mix.total)
  exact ⟨hid, hcmdErr, hphases, hdecPhase, hdecMode, hdecNch, hdecErr, readsAs_buffer s, readsAs_encoder s, hmixPhase,
    hmixErr, hmixQa, hmixQb, hmixTotal, hmixSat⟩

/-! ## Reset -/

/-- Settles O10: the units' reset values, unit by unit and buffer by buffer. -/
theorem resetValues : Obligations.ResetValues := by
  have hphase (u : UnitName) : State.reset.phase u = .idle := by rcases u with _ | (_ | _) | _ <;> rfl
  have herr (u : UnitName) : State.reset.unitErr u = 0#8 := by rcases u with _ | (_ | _) | _ <;> rfl
  have henc (u : EncIndex) : State.reset.enc u = Enc.reset := by cases u <;> rfl
  have hbuf (b : BufName) : State.reset.buffer b = Buffer.reset := by rcases b with _ | _ | _ | (_ | _) <;> rfl
  refine ⟨rfl, hphase, herr, rfl, rfl, fun u => ?_, fun b => ?_, rfl, rfl, rfl⟩
  · rw [henc]; exact ⟨rfl, rfl, rfl, rfl, rfl⟩
  · rw [hbuf]; exact ⟨rfl, rfl, rfl, rfl, rfl⟩

/-- An empty buffer that counts nothing is sound under every positive `BPS`. -/
theorem blank_sound {b : Buffer} (hblank : b.Blank) (hbps : 0 < b.bps.toNat) : b.Sound := by
  obtain ⟨hwindow, _, hout, _⟩ := hblank
  exact ⟨hbps, by rw [hwindow, fitsCap_nil], by simp [hout]⟩

theorem bufferReset_blank : Buffer.reset.Blank := ⟨rfl, rfl, rfl, rfl⟩

theorem bufferReset_sound : Buffer.reset.Sound := blank_sound bufferReset_blank (by decide)

theorem decReset_inv : Dec.reset.Inv where
  raw_sound := bufferReset_sound
  lo_sound := bufferReset_sound
  hi_sound := bufferReset_sound
  halted_err := nofun
  running_err _ := rfl
  active_bps := nofun
  inactive_blank _ := ⟨bufferReset_blank, bufferReset_blank, rfl, rfl⟩
  finished_mode := nofun
  idle_reset _ := ⟨rfl, rfl, rfl, rfl⟩
  no_format _ := ⟨rfl, bufferReset_blank, bufferReset_blank, rfl, rfl⟩

theorem encReset_inv : Enc.reset.Inv where
  acc_sound := bufferReset_sound
  acc_bps := rfl
  halted_err := nofun
  running_err _ := rfl
  active_cfg := nofun
  active_waits := nofun
  idle_reset _ := ⟨rfl, rfl⟩

theorem mixReset_inv : Mix.reset.Inv where
  qa_cap := fitsCap_nil _
  qb_cap := fitsCap_nil _
  halted_err := nofun
  running_err _ := rfl
  total_even := ⟨0, rfl⟩
  finished_empty := nofun
  idle_reset _ := rfl

/-- Settles O11, unit by unit. -/
theorem invariantAtReset : Obligations.InvariantAtReset :=
  ⟨by decide, decReset_inv, encReset_inv, encReset_inv, mixReset_inv⟩

end Sys2Proof.Machine
end

section
/-! The units side by side (10_state R10, 20_memory R52): a unit's command stays in its unit, a general command touches
a unit only by `RESET` or by a write to its configuration registers. -/

namespace Sys2Proof.Machine

/-! ## Commands of a unit -/

/-- 10_state R13: closing the unit after its body is still an operation of that unit. -/
theorem andThen_closeUnit_only {s : State} {u : UnitName} {r : Flow State} (h : OnlyUnit u s r.state) :
    OnlyUnit u s (r.andThen (fun s1 => .go (s1.closeUnit u))).state :=
  andThen_keeps (P := OnlyUnit u s) h (fun s1 h1 => onlyUnit_trans h1 (setPhaseErr_only s1 u _ _))

theorem execDecInit_only {s t : State} (h : execDecInit s = .next t) : OnlyUnit .dec s t ∨ t = s.refuse .eArg := by
  unfold execDecInit at h
  split at h
  · exact .inr (Host.Outcome.next.inj h).symm
  · left
    rw [← Host.Outcome.next.inj h]
    have hset : OnlyUnit .dec s { s with dec := s.dec.newStream } := by
      refine ⟨rfl, rfl, rfl, fun v hv => ?_⟩
      cases v with
      | dec => exact absurd rfl hv
      | enc v => exact ⟨by cases v <;> rfl, rfl⟩
      | mix => exact ⟨rfl, rfl⟩
    exact onlyUnit_trans hset (setPhaseErr_only _ _ _ _)

theorem setEnc_only (s : State) (u : EncIndex) (e : Enc) : OnlyUnit (.enc u) s (s.setEnc u e) := by
  refine ⟨setEnc_cmdErr s u e, setEnc_reads s u e, setEnc_input s u e, fun v hv => ?_⟩
  cases v with
  | dec => exact ⟨setEnc_dec s u e, by rw [setEnc_ports], by rw [setEnc_ports]⟩
  | enc v => exact ⟨setEnc_enc_other s u v e (fun hvu => hv (hvu ▸ rfl)), by rw [setEnc_ports]⟩
  | mix => exact ⟨setEnc_mix s u e, by rw [setEnc_ports]⟩

theorem execEncInit_only {u : EncIndex} {s t : State} (h : execEncInit u s = .next t) :
    OnlyUnit (.enc u) s t ∨ t = s.refuse .eArg := by
  unfold execEncInit at h
  split at h
  · exact .inr (Host.Outcome.next.inj h).symm
  · left
    rw [← Host.Outcome.next.inj h]
    exact onlyUnit_trans (setEnc_only s u _) (setPhaseErr_only _ _ _ _)

theorem execMixInit_only {s t : State} (h : execMixInit s = .next t) : OnlyUnit .mix s t := by
  rw [← Host.Outcome.next.inj h]
  have hset : OnlyUnit .mix s { s with mix := { s.mix with qa := [], qb := [], total := 0#64 } } := by
    refine ⟨rfl, rfl, rfl, fun v hv => ?_⟩
    cases v with
    | dec => exact ⟨rfl, rfl, rfl⟩
    | enc v => exact ⟨by cases v <;> rfl, rfl⟩
    | mix => exact absurd rfl hv
  exact onlyUnit_trans hset (setPhaseErr_only _ _ _ _)

/-- A command that runs only while its unit is `Active` stays in its unit when its body does. -/
theorem next_whenActive_only {s t : State} {u : UnitName} {body : State → Flow State}
    (h : Host.Outcome.next (φ := Fault) (ρ := Refusal) (s.whenActive u body) = .next t)
    (hbody : OnlyUnit u s (body s).state) : OnlyUnit u s t ∨ t = s.refuse .ePhase ∨ t = s.refuse .eArg := by
  rw [← Host.Outcome.next.inj h]
  exact (whenActive_only hbody).imp_right .inl

/-- 10_state R10: a command of a unit changes that unit alone, or it is refused for the phase or the argument. -/
theorem exec_only {i : Instr} {u : UnitName} {s t : State} (hu : unitOf i = some u) (h : exec i s = .next t) :
    OnlyUnit u s t ∨ t = s.refuse .ePhase ∨ t = s.refuse .eArg := by
  cases i with
  | nop => cases hu
  | reset => cases hu
  | rdreg sel => cases hu
  | wrreg sel v => cases hu
  | decInit => cases hu; exact (execDecInit_only h).imp_right .inr
  | decPush p => cases hu; exact next_whenActive_only h (onDec_only s _)
  | decFinish => cases hu; exact next_whenActive_only h (andThen_closeUnit_only (onDec_only s _))
  | encInit v => cases hu; exact (execEncInit_only h).imp_right .inr
  | encPush v p => cases hu; exact next_whenActive_only h (onEnc_only s v _)
  | encFinish v => cases hu; exact next_whenActive_only h (andThen_closeUnit_only (onEnc_only s v _))
  | mixInit => cases hu; exact .inl (execMixInit_only h)
  | mixPush q p => cases hu; exact next_whenActive_only h (onMix_only s _)
  | mixStep => cases hu; exact next_whenActive_only h (onMix_only s _)
  | mixFinish => cases hu; exact next_whenActive_only h (andThen_closeUnit_only (onMix_only s _))

/-- Settles O25: a refusal is the state with `CMDERR` replaced. -/
theorem commandStaysInItsUnit : Obligations.CommandStaysInItsUnit :=
  fun _ _ _ _ hu h => exec_only hu h

theorem sameUnit_refuse (u : UnitName) (s : State) (e : ErrCode) : SameUnit u s (s.refuse e) := by
  cases u with
  | dec => exact ⟨rfl, rfl, rfl⟩
  | enc u => exact ⟨by cases u <;> rfl, rfl⟩
  | mix => exact ⟨rfl, rfl⟩

/-- A command of one unit leaves every other unit and its ports, refused or not. -/
theorem exec_sameUnit_of_ne {i : Instr} {u v : UnitName} {s t : State} (hu : unitOf i = some u)
    (h : exec i s = .next t) (hv : v ≠ u) : SameUnit v s t := by
  rcases exec_only hu h with ⟨_, _, _, hsame⟩ | rfl | rfl
  · exact hsame v hv
  · exact sameUnit_refuse v s _
  · exact sameUnit_refuse v s _

/-! ## General commands -/

theorem errCode_le (e : ErrCode) : (errCode e).toNat ≤ 5 := by cases e <;> decide

/-- All that a `WRREG` of a register can do (48_commands R186): `CMDERR` alone takes a legal code, or a configuration
register of a unit that is not `Active` takes the value. -/
theorem writeReg_cases (r : Reg) (v : BitVec 32) (s : State) :
    (∃ c : BitVec 8, c.toNat ≤ 5 ∧ writeReg r v s = { s with cmdErr := c }) ∨
      ∃ u w, regAccess r = .rw u w ∧ s.phase u ≠ .active ∧ writeReg r v s = storeReg v s r := by
  unfold writeReg
  split
  · exact .inl ⟨0#8, by decide, rfl⟩
  · exact .inl ⟨_, errCode_le .eArg, rfl⟩
  · rename_i u w hacc
    split
    · exact .inl ⟨_, errCode_le .ePhase, rfl⟩
    · rename_i hphase
      split
      · exact .inl ⟨_, errCode_le .eArg, rfl⟩
      · exact .inr ⟨u, w, hacc, hphase, rfl⟩

/-- All that a general command can do (48_commands section 2): reset, answer with `CMDERR` and the read log alone, or
store into a configuration register of a unit that is not `Active`. -/
inductive GeneralEffect (s : State) : Instr → State → Prop
  | reset : GeneralEffect s .reset s.resetUnits
  | answer (i : Instr) (c : BitVec 8) (rs : List Word64) (hcode : c = s.cmdErr ∨ c.toNat ≤ 5) :
      GeneralEffect s i { s with cmdErr := c, reads := rs }
  | store (sel : BitVec 8) (v : BitVec 32) (r : Reg) (u : UnitName) (w : Nat) (haccess : regAccess r = .rw u w)
      (hphase : s.phase u ≠ .active) : GeneralEffect s (.wrreg sel v) (storeReg v s r)

theorem exec_general {i : Instr} {s t : State} (hu : unitOf i = none) (h : exec i s = .next t) :
    GeneralEffect s i t := by
  cases i with
  | nop => obtain rfl := Host.Outcome.next.inj h; exact .answer _ _ _ (.inl rfl)
  | reset => obtain rfl := Host.Outcome.next.inj h; exact .reset
  | rdreg sel =>
    cases hreg : regOf sel with
    | some r =>
      rw [exec_rdreg_of_reg hreg] at h
      obtain rfl := Host.Outcome.next.inj h
      exact .answer _ _ _ (.inl rfl)
    | none =>
      rw [exec_rdreg_reserved hreg] at h
      obtain rfl := Host.Outcome.next.inj h
      exact .answer _ _ _ (.inr (errCode_le .eSel))
  | wrreg sel v =>
    cases hreg : regOf sel with
    | some r =>
      rw [exec_wrreg_of_reg hreg] at h
      obtain rfl := Host.Outcome.next.inj h
      rcases writeReg_cases r v s with ⟨c, hc, hw⟩ | ⟨u, w, hacc, hphase, hw⟩ <;> rw [hw]
      · exact .answer _ _ _ (.inr hc)
      · exact .store sel v r u w hacc hphase
    | none =>
      rw [exec_wrreg_reserved hreg] at h
      obtain rfl := Host.Outcome.next.inj h
      exact .answer _ _ _ (.inr (errCode_le .eSel))
  | _ => cases hu

theorem storeReg_cmdErr (v : BitVec 32) (s : State) (r : Reg) : (storeReg v s r).cmdErr = s.cmdErr := by
  cases r <;> simp [storeReg]

/-- `CMDERR` stays or takes a code of 60_exceptions R211. -/
theorem exec_cmdErr {i : Instr} {s t : State} (h : exec i s = .next t) : t.cmdErr = s.cmdErr ∨ t.cmdErr.toNat ≤ 5 := by
  cases hu : unitOf i with
  | none =>
    cases exec_general hu h with
    | reset => exact .inr (Nat.zero_le 5)
    | answer _ c rs hcode => exact hcode
    | store sel v r u w _ _ => exact .inl (storeReg_cmdErr v s r)
  | some u =>
    rcases exec_only hu h with ⟨hcmd, _⟩ | rfl | rfl
    · exact .inl hcmd
    · exact .inr (errCode_le _)
    · exact .inr (errCode_le _)

end Sys2Proof.Machine
end

section
/-! What each command does to one unit and its ports, as an operation of that unit alone (10_state R10): every command's
effect on `DEC`, on `ENC[u]` and on `MIX`. -/

namespace Sys2Proof.Machine

/-! ## Unit `DEC` -/

/-- `DEC` with its ports. -/
def State.decIO (s : State) : DecIO := ⟨s.dec, s.ports.doutA, s.ports.doutB⟩

theorem sameDec_iff {s t : State} : SameUnit .dec s t ↔ t.decIO = s.decIO := by
  simp [SameUnit, SameDec, State.decIO]

/-- The end of a command of `DEC`: a raise halts it (60_exceptions R212). -/
def DecIO.settle : Flow DecIO → DecIO
  | .go d => d
  | .raised f d => { d with dec := { d.dec with phase := .halted, err := faultCode f } }

/-- A command of `DEC` that is legal only while `DEC` is `Active` (48_commands R181). -/
def DecIO.whenActive (d : DecIO) (body : DecIO → Flow DecIO) : DecIO :=
  if d.dec.phase = .active then DecIO.settle (body d) else d

/-- `DEC_INIT` (48_commands R184). -/
def DecIO.opened (d : DecIO) : DecIO :=
  if d.dec.nch = 0#8 then d else { d with dec := { d.dec.newStream with phase := .active, err := 0#8 } }

/-- The phase change that ends `DEC_FINISH` (48_commands R187). -/
def DecIO.close (d : DecIO) : Flow DecIO := .go { d with dec := { d.dec with phase := .finished } }

theorem whenActive_onDec (s : State) (k : DecIO → Flow DecIO) :
    (s.whenActive .dec (fun s1 => s1.onDec k)).decIO = s.decIO.whenActive k := by
  rcases whenActive_cases s .dec (fun s1 => s1.onDec k) with ⟨hphase, h⟩ | ⟨hphase, h⟩ <;>
    rw [h, DecIO.whenActive]
  · rw [if_pos (by exact hphase)]
    change (State.settle .dec ((k s.decIO).map _)).decIO = _
    cases k s.decIO <;> rfl
  · rw [if_neg (by exact hphase)]
    rfl

theorem onDec_closeUnit (s : State) (k : DecIO → Flow DecIO) :
    (s.onDec k).andThen (fun s1 => .go (s1.closeUnit .dec)) = s.onDec (fun d => (k d).andThen DecIO.close) := by
  change ((k s.decIO).map _).andThen _ = ((k s.decIO).andThen DecIO.close).map _
  cases k s.decIO <;> rfl

/-- Every command's effect on `DEC` and its ports. -/
inductive DecEffect (d : DecIO) : Instr → DecIO → Prop
  | init : DecEffect d .decInit d.opened
  | push (p : Bytes) : DecEffect d (.decPush p) (d.whenActive (decPushBody Config.build p))
  | finish : DecEffect d .decFinish (d.whenActive (fun x => (decFinishBody Config.build x).andThen DecIO.close))
  | reset : DecEffect d .reset { d with dec := Dec.reset }
  | config (sel : BitVec 8) (v : BitVec 32) (n : BitVec 8) (hphase : d.dec.phase ≠ .active) :
      DecEffect d (.wrreg sel v) { d with dec := { d.dec with nch := n } }
  | other (i : Instr) (hunit : unitOf i ≠ some .dec) : DecEffect d i d

theorem storeReg_dec {r : Reg} {u : UnitName} {w : Nat} {s : State} (v : BitVec 32) (haccess : regAccess r = .rw u w)
    (hphase : s.phase u ≠ .active) : (storeReg v s r).decIO = s.decIO ∨
      s.dec.phase ≠ .active ∧ (storeReg v s r).decIO = { s.decIO with dec := { s.dec with nch := v.setWidth 8 } } := by
  cases r with
  | decNch => cases haccess; exact .inr ⟨hphase, rfl⟩
  | encCfgMode u => cases u <;> exact .inl rfl
  | encCfgNch u => cases u <;> exact .inl rfl
  | encCfgRate u => cases u <;> exact .inl rfl
  | encCfgDelayMs u => cases u <;> exact .inl rfl
  | _ => cases haccess

theorem execDecInit_decIO {s t : State} (h : execDecInit s = .next t) : t.decIO = s.decIO.opened := by
  unfold execDecInit at h
  unfold DecIO.opened
  by_cases hnch : s.dec.nch = 0#8
  · rw [if_pos hnch] at h
    rw [if_pos (by exact hnch), ← Host.Outcome.next.inj h]
    rfl
  · rw [if_neg hnch] at h
    rw [if_neg (by exact hnch), ← Host.Outcome.next.inj h]
    rfl

theorem exec_dec {i : Instr} {s t : State} (h : exec i s = .next t) : DecEffect s.decIO i t.decIO := by
  cases hu : unitOf i with
  | none =>
    cases exec_general hu h with
    | reset => exact .reset
    | answer _ c rs _ => exact .other _ (by simp [hu])
    | store sel v r u w haccess hphase =>
      rcases storeReg_dec v haccess hphase with heq | ⟨hdec, heq⟩ <;> rw [heq]
      · exact .other _ (by simp [hu])
      · exact .config sel v _ hdec
  | some u =>
    by_cases hdec : u = .dec
    · subst hdec
      cases i with
      | decInit => rw [execDecInit_decIO h]; exact .init
      | decPush p => rw [← Host.Outcome.next.inj h, whenActive_onDec]; exact .push p
      | decFinish =>
        rw [← Host.Outcome.next.inj h]
        simp only [onDec_closeUnit, whenActive_onDec]
        exact .finish
      | _ => cases hu
    · rw [sameDec_iff.1 (exec_sameUnit_of_ne hu h (Ne.symm hdec))]
      exact .other i (by simpa [hu] using hdec)

theorem decEffect_unique {i : Instr} {d a b : DecIO} (hu : unitOf i = some .dec) (ha : DecEffect d i a)
    (hb : DecEffect d i b) : a = b := by
  cases ha with
  | init => cases hb with
    | init => rfl
    | other _ hne => exact absurd hu hne
  | push p => cases hb with
    | push => rfl
    | other _ hne => exact absurd hu hne
  | finish => cases hb with
    | finish => rfl
    | other _ hne => exact absurd hu hne
  | reset => cases hu
  | config => cases hu
  | other _ hne => exact absurd hu hne

/-! ## Units `ENC[u]` -/

/-- `ENC[u]` with its port. -/
def State.encIO (s : State) (u : EncIndex) : EncIO := ⟨s.enc u, s.ports.eout u⟩

theorem sameEnc_iff {u : EncIndex} {s t : State} : SameUnit (.enc u) s t ↔ t.encIO u = s.encIO u := by
  simp [SameUnit, SameEnc, State.encIO]

/-- The end of a command of an encoder: a raise halts it (60_exceptions R212). -/
def EncIO.settle : Flow EncIO → EncIO
  | .go io => io
  | .raised f io => { io with enc := { io.enc with phase := .halted, err := faultCode f } }

/-- A command of an encoder that is legal only while it is `Active` (48_commands R181). -/
def EncIO.whenActive (io : EncIO) (body : EncIO → Flow EncIO) : EncIO :=
  if io.enc.phase = .active then EncIO.settle (body io) else io

/-- `ENC_INIT` (48_commands R188). -/
def EncIO.opened (io : EncIO) : EncIO :=
  if io.enc.cfgMode = 0#2 ∨ io.enc.cfgNch = 0#8 then io
  else { io with enc := { io.enc.newStream with phase := .active, err := 0#8 } }

/-- The phase change that ends `ENC_FINISH` (48_commands R190). -/
def EncIO.close (io : EncIO) : Flow EncIO := .go { io with enc := { io.enc with phase := .finished } }

theorem whenActive_onEnc (s : State) (u : EncIndex) (k : EncIO → Flow EncIO) :
    (s.whenActive (.enc u) (fun s1 => s1.onEnc u k)).encIO u = (s.encIO u).whenActive k := by
  rcases whenActive_cases s (.enc u) (fun s1 => s1.onEnc u k) with ⟨hphase, h⟩ | ⟨hphase, h⟩ <;>
    rw [h, EncIO.whenActive]
  · rw [if_pos (by exact hphase)]
    change (State.settle (.enc u) ((k (s.encIO u)).map _)).encIO u = _
    cases k (s.encIO u) <;> cases u <;> rfl
  · rw [if_neg (by exact hphase)]
    rfl

theorem onEnc_closeUnit (s : State) (u : EncIndex) (k : EncIO → Flow EncIO) :
    (s.onEnc u k).andThen (fun s1 => .go (s1.closeUnit (.enc u))) =
      s.onEnc u (fun io => (k io).andThen EncIO.close) := by
  change ((k (s.encIO u)).map _).andThen _ = ((k (s.encIO u)).andThen EncIO.close).map _
  cases k (s.encIO u) <;> cases u <;> rfl

/-- Every command's effect on `ENC[u]` and its port. -/
inductive EncEffect (u : EncIndex) (io : EncIO) : Instr → EncIO → Prop
  | init : EncEffect u io (.encInit u) io.opened
  | push (p : Bytes) : EncEffect u io (.encPush u p) (io.whenActive (fun x => encFeed Config.build x p))
  | finish : EncEffect u io (.encFinish u) (io.whenActive (fun x => (encFlush Config.build x).andThen EncIO.close))
  | reset : EncEffect u io .reset { io with enc := Enc.reset }
  | config (sel : BitVec 8) (v : BitVec 32) (mode : BitVec 2) (nch : BitVec 8) (rate delay : BitVec 32)
      (hphase : io.enc.phase ≠ .active) :
      EncEffect u io (.wrreg sel v) { io with enc :=
        { io.enc with cfgMode := mode, cfgNch := nch, cfgRate := rate, cfgDelayMs := delay } }
  | other (i : Instr) (hunit : unitOf i ≠ some (.enc u)) : EncEffect u io i io

/-- A store into `ENC[u]` seen from an encoder: from `ENC[u]` itself, or from the other one. -/
theorem setEnc_encIO (s : State) (u v : EncIndex) (e : Enc) :
    (u = v ∧ (s.setEnc u e).encIO v = { s.encIO v with enc := e }) ∨ (s.setEnc u e).encIO v = s.encIO v := by
  by_cases huv : v = u
  · subst huv
    cases v <;> exact .inl ⟨rfl, rfl⟩
  · refine .inr ?_
    rw [State.encIO, setEnc_enc_other s u v e huv, setEnc_ports]
    rfl

/-- A store whose access names `ENC[u]`, seen from an encoder: one of the four configuration registers, or nothing. -/
theorem storeReg_enc {r : Reg} {u : UnitName} {w : Nat} {s : State} (v : BitVec 32) (haccess : regAccess r = .rw u w)
    (hphase : s.phase u ≠ .active) (x : EncIndex) : (storeReg v s r).encIO x = s.encIO x ∨
      (s.enc x).phase ≠ .active ∧ ∃ mode nch rate delay, (storeReg v s r).encIO x = { s.encIO x with enc :=
        { s.enc x with cfgMode := mode, cfgNch := nch, cfgRate := rate, cfgDelayMs := delay } } := by
  cases r with
  | decNch => exact .inl rfl
  | encCfgMode y =>
    cases haccess
    rcases setEnc_encIO s y x { s.enc y with cfgMode := v.setWidth 2 } with ⟨rfl, heq⟩ | heq
    · exact .inr ⟨hphase, _, _, _, _, heq⟩
    · exact .inl heq
  | encCfgNch y =>
    cases haccess
    rcases setEnc_encIO s y x { s.enc y with cfgNch := v.setWidth 8 } with ⟨rfl, heq⟩ | heq
    · exact .inr ⟨hphase, _, _, _, _, heq⟩
    · exact .inl heq
  | encCfgRate y =>
    cases haccess
    rcases setEnc_encIO s y x { s.enc y with cfgRate := v } with ⟨rfl, heq⟩ | heq
    · exact .inr ⟨hphase, _, _, _, _, heq⟩
    · exact .inl heq
  | encCfgDelayMs y =>
    cases haccess
    rcases setEnc_encIO s y x { s.enc y with cfgDelayMs := v } with ⟨rfl, heq⟩ | heq
    · exact .inr ⟨hphase, _, _, _, _, heq⟩
    · exact .inl heq
  | _ => cases haccess

theorem execEncInit_encIO {u : EncIndex} {s t : State} (h : execEncInit u s = .next t) :
    t.encIO u = (s.encIO u).opened := by
  unfold execEncInit at h
  unfold EncIO.opened
  by_cases hcfg : (s.enc u).cfgMode = 0#2 ∨ (s.enc u).cfgNch = 0#8
  · rw [if_pos hcfg] at h
    rw [if_pos (by exact hcfg), ← Host.Outcome.next.inj h]
    rfl
  · rw [if_neg hcfg] at h
    rw [if_neg (by exact hcfg), ← Host.Outcome.next.inj h]
    cases u <;> rfl

theorem exec_enc {i : Instr} {s t : State} (u : EncIndex) (h : exec i s = .next t) :
    EncEffect u (s.encIO u) i (t.encIO u) := by
  cases hu : unitOf i with
  | none =>
    cases exec_general hu h with
    | reset => cases u <;> exact .reset
    | answer _ c rs _ => cases u <;> exact .other _ (by simp [hu])
    | store sel v r x w haccess hphase =>
      rcases storeReg_enc v haccess hphase u with heq | ⟨henc, _, _, _, _, heq⟩ <;> rw [heq]
      · exact .other _ (by simp [hu])
      · exact .config sel v _ _ _ _ henc
  | some x =>
    by_cases henc : x = .enc u
    · subst henc
      cases i with
      | encInit v => cases hu; rw [execEncInit_encIO h]; exact .init
      | encPush v p => cases hu; rw [← Host.Outcome.next.inj h, whenActive_onEnc]; exact .push p
      | encFinish v =>
        cases hu
        rw [← Host.Outcome.next.inj h]
        simp only [onEnc_closeUnit, whenActive_onEnc]
        exact .finish
      | _ => cases hu
    · rw [sameEnc_iff.1 (exec_sameUnit_of_ne hu h (Ne.symm henc))]
      exact .other i (by simpa [hu] using henc)

theorem encEffect_unique {i : Instr} {u : EncIndex} {io a b : EncIO} (hu : unitOf i = some (.enc u))
    (ha : EncEffect u io i a) (hb : EncEffect u io i b) : a = b := by
  cases ha with
  | init => cases hb with
    | init => rfl
    | other _ hne => exact absurd hu hne
  | push p => cases hb with
    | push => rfl
    | other _ hne => exact absurd hu hne
  | finish => cases hb with
    | finish => rfl
    | other _ hne => exact absurd hu hne
  | reset => cases hu
  | config => cases hu
  | other _ hne => exact absurd hu hne

/-! ## Unit `MIX` -/

/-- `MIX` with its port. -/
def State.mixIO (s : State) : MixIO := ⟨s.mix, s.ports.mout⟩

theorem sameMix_iff {s t : State} : SameUnit .mix s t ↔ t.mixIO = s.mixIO := by
  simp [SameUnit, SameMix, State.mixIO]

/-- The end of a command of `MIX`: a raise halts it (60_exceptions R212). -/
def MixIO.settle : Flow MixIO → MixIO
  | .go m => m
  | .raised f m => { m with mix := { m.mix with phase := .halted, err := faultCode f } }

/-- A command of `MIX` that is legal only while `MIX` is `Active` (48_commands R181). -/
def MixIO.whenActive (m : MixIO) (body : MixIO → Flow MixIO) : MixIO :=
  if m.mix.phase = .active then MixIO.settle (body m) else m

/-- `MIX_INIT` (48_commands R191). -/
def MixIO.opened (m : MixIO) : MixIO := { m with mix := ⟨.active, 0#8, [], [], 0#64⟩ }

/-- The phase change that ends `MIX_FINISH` (48_commands R194). -/
def MixIO.close (m : MixIO) : Flow MixIO := .go { m with mix := { m.mix with phase := .finished } }

theorem whenActive_onMix (s : State) (k : MixIO → Flow MixIO) :
    (s.whenActive .mix (fun s1 => s1.onMix k)).mixIO = s.mixIO.whenActive k := by
  rcases whenActive_cases s .mix (fun s1 => s1.onMix k) with ⟨hphase, h⟩ | ⟨hphase, h⟩ <;>
    rw [h, MixIO.whenActive]
  · rw [if_pos (by exact hphase)]
    change (State.settle .mix ((k s.mixIO).map _)).mixIO = _
    cases k s.mixIO <;> rfl
  · rw [if_neg (by exact hphase)]
    rfl

theorem onMix_closeUnit (s : State) (k : MixIO → Flow MixIO) :
    (s.onMix k).andThen (fun s1 => .go (s1.closeUnit .mix)) = s.onMix (fun m => (k m).andThen MixIO.close) := by
  change ((k s.mixIO).map _).andThen _ = ((k s.mixIO).andThen MixIO.close).map _
  cases k s.mixIO <;> rfl

/-- Every command's effect on `MIX` and its port. -/
inductive MixEffect (m : MixIO) : Instr → MixIO → Prop
  | init : MixEffect m .mixInit m.opened
  | push (q : QueueName) (p : Bytes) : MixEffect m (.mixPush q p) (m.whenActive (qpush Config.build q p))
  | mixStep : MixEffect m .mixStep (m.whenActive mixRun)
  | finish : MixEffect m .mixFinish (m.whenActive (fun x => (mixEnd x).andThen MixIO.close))
  | reset : MixEffect m .reset { m with mix := Mix.reset }
  | other (i : Instr) (hunit : unitOf i ≠ some .mix) : MixEffect m i m

/-- No register of `MIX` is writable (10_state R31). -/
theorem storeReg_mix (v : BitVec 32) (s : State) (r : Reg) : (storeReg v s r).mixIO = s.mixIO := by
  cases r <;> simp [storeReg, State.mixIO]

theorem exec_mix {i : Instr} {s t : State} (h : exec i s = .next t) : MixEffect s.mixIO i t.mixIO := by
  cases hu : unitOf i with
  | none =>
    cases exec_general hu h with
    | reset => exact .reset
    | answer _ c rs _ => exact .other _ (by simp [hu])
    | store sel v r u w _ _ => rw [storeReg_mix]; exact .other _ (by simp [hu])
  | some u =>
    by_cases hmix : u = .mix
    · subst hmix
      cases i with
      | mixInit => rw [← Host.Outcome.next.inj h]; exact .init
      | mixPush q p => rw [← Host.Outcome.next.inj h, whenActive_onMix]; exact .push q p
      | mixStep => rw [← Host.Outcome.next.inj h, whenActive_onMix]; exact .mixStep
      | mixFinish =>
        rw [← Host.Outcome.next.inj h]
        simp only [onMix_closeUnit, whenActive_onMix]
        exact .finish
      | _ => cases hu
    · rw [sameMix_iff.1 (exec_sameUnit_of_ne hu h (Ne.symm hmix))]
      exact .other i (by simpa [hu] using hmix)

theorem mixEffect_unique {i : Instr} {m a b : MixIO} (hu : unitOf i = some .mix) (ha : MixEffect m i a)
    (hb : MixEffect m i b) : a = b := by
  cases ha with
  | init => cases hb with
    | init => rfl
    | other _ hne => exact absurd hu hne
  | push q p => cases hb with
    | push => rfl
    | other _ hne => exact absurd hu hne
  | mixStep => cases hb with
    | mixStep => rfl
    | other _ hne => exact absurd hu hne
  | finish => cases hb with
    | finish => rfl
    | other _ hne => exact absurd hu hne
  | reset => cases hu
  | other _ hne => exact absurd hu hne

/-! ## Noninterference -/

/-- Settles O26: the effect on the unit is the one its own part of the two states determines. -/
theorem unitSeesOnlyItself : Obligations.UnitSeesOnlyItself := by
  intro i u s s' t t' hu hsame h h'
  cases u with
  | dec =>
    have hown := exec_dec h'
    rw [sameDec_iff.1 hsame] at hown
    exact sameDec_iff.2 (decEffect_unique hu hown (exec_dec h))
  | enc u =>
    have hown := exec_enc u h'
    rw [sameEnc_iff.1 hsame] at hown
    exact sameEnc_iff.2 (encEffect_unique hu hown (exec_enc u h))
  | mix =>
    have hown := exec_mix h'
    rw [sameMix_iff.1 hsame] at hown
    exact sameMix_iff.2 (mixEffect_unique hu hown (exec_mix h))

theorem sameUnit_symm {u : UnitName} {s t : State} (h : SameUnit u s t) : SameUnit u t s := by
  cases u with
  | dec => exact sameDec_iff.2 (sameDec_iff.1 h).symm
  | enc u => exact sameEnc_iff.2 (sameEnc_iff.1 h).symm
  | mix => exact sameMix_iff.2 (sameMix_iff.1 h).symm

/-- The unit of one of two commands ends alike whether its command runs before the other one or after it. -/
theorem sameUnit_of_swap {i j : Instr} {u v : UnitName} {s s1 s2 t1 t2 : State} (hu : unitOf i = some u)
    (hv : unitOf j = some v) (huv : u ≠ v) (h1 : exec i s = .next s1) (h2 : exec j s1 = .next s2)
    (h3 : exec j s = .next t1) (h4 : exec i t1 = .next t2) : SameUnit u s2 t2 := by
  have hbefore : SameUnit u s t1 := exec_sameUnit_of_ne hv h3 huv
  have hafter : SameUnit u s1 s2 := exec_sameUnit_of_ne hv h2 huv
  exact sameUnit_trans (sameUnit_symm hafter) (unitSeesOnlyItself i u s t1 s1 t2 hu hbefore h1 h4)

/-- Settles O27: each of the two units is seen by its own command alone, and no other unit is touched. -/
theorem commandsToTwoUnitsCommute : Obligations.CommandsToTwoUnitsCommute := by
  intro i j u v s s1 s2 t1 t2 hu hv huv h1 h2 h3 h4 w
  by_cases hwu : w = u
  · subst hwu
    exact sameUnit_of_swap hu hv huv h1 h2 h3 h4
  by_cases hwv : w = v
  · subst hwv
    exact sameUnit_symm (sameUnit_of_swap hv hu huv.symm h3 h4 h1 h2)
  have hij : SameUnit w s s2 :=
    sameUnit_trans (exec_sameUnit_of_ne hu h1 hwu) (exec_sameUnit_of_ne hv h2 hwv)
  have hji : SameUnit w s t2 :=
    sameUnit_trans (exec_sameUnit_of_ne hv h3 hwv) (exec_sameUnit_of_ne hu h4 hwu)
  exact sameUnit_trans (sameUnit_symm hij) hji

end Sys2Proof.Machine
end

section
/-! What the bodies of the units' commands keep, raised outcomes included: the soundness of every buffer, the counters'
order, the configuration (10_state R17 to R19, R38). The invariant, the counters and the mode are read off these. -/

namespace Sys2Proof.Machine

/-! ## Buffers -/

/-- The buffer is as sound as it was, with the same `BPS`. -/
structure Buffer.Keeps (b b' : Buffer) : Prop where
  bps : b'.bps = b.bps
  sound : b.Sound → b'.Sound

/-- Beside that, no counter of the buffer decreases, and `OUT_SAMPLES` rises by whole frames (10_state R18, R19). -/
structure Buffer.Rises (b b' : Buffer) : Prop extends Buffer.Keeps b b' where
  inSamples : b.inSamples.toNat ≤ b'.inSamples.toNat
  out : ∃ k, b'.outSamples.toNat = b.outSamples.toNat + 1024 * k

theorem bufferKeeps_trans {a b c : Buffer} (h1 : a.Keeps b) (h2 : b.Keeps c) : a.Keeps c :=
  ⟨h2.bps.trans h1.bps, fun h => h2.sound (h1.sound h)⟩

theorem bufferRises_refl (b : Buffer) : b.Rises b := ⟨⟨rfl, id⟩, le_rfl, 0, rfl⟩

theorem bufferRises_trans {a b c : Buffer} (h1 : a.Rises b) (h2 : b.Rises c) : a.Rises c := by
  obtain ⟨k1, ho1⟩ := h1.out
  obtain ⟨k2, ho2⟩ := h2.out
  exact ⟨bufferKeeps_trans h1.toKeeps h2.toKeeps, h1.inSamples.trans h2.inSamples, k1 + k2, by rw [ho2, ho1]; ring⟩

theorem clear_blank (b : Buffer) : b.clear.Blank := ⟨rfl, rfl, rfl, rfl⟩

theorem append_rises (b : Buffer) (x : Bytes) : b.Rises (b.append Config.build x).state := by
  obtain ⟨hbps, hout, _, hin, _, hcap⟩ := append_state Config.build b x
  refine ⟨⟨hbps, fun h => ⟨hbps ▸ h.bps_pos, ?_, hout ▸ h.whole_frames⟩⟩, hin, 0, by rw [hout]; rfl⟩
  exact fitsCap_iff.2 (hcap (fitsCap_iff.1 h.within_cap))

theorem appendPacked_rises (b : Buffer) (lane : Lane) (x : Bytes) :
    b.Rises (b.appendPacked Config.build lane x).state := append_rises b (laneBytes lane x)

theorem ages_rises {b b' : Buffer} (h : b.Ages b') : b.Rises b' := by
  obtain ⟨k, hout⟩ := h.out
  refine ⟨⟨h.bps, fun hs => ⟨h.bps ▸ hs.bps_pos, ages_keeps_cap h hs.within_cap, ?_⟩⟩, by rw [h.inSamples], k, hout⟩
  rw [hout]
  exact Dvd.dvd.add hs.whole_frames (Dvd.intro k rfl)

/-- The faults of `APPEND` (42_buffer R100, R101). -/
theorem append_raised {cfg : Config} {b b' : Buffer} {x : Bytes} {f : UnitFault} (h : b.append cfg x = .raised f b') :
    f = .bufOvf ∨ f = .cntOvf := by
  rcases append_cases cfg b x with ⟨_, h1⟩ | ⟨_, _, _, h1⟩ | ⟨_, _, h1⟩ <;> rw [h1] at h <;> cases h
  · exact .inl rfl
  · exact .inr rfl

/-! ## Unit `DEC` -/

/-- What a body of `DEC` keeps of the unit: phase, `NCH`, `ERR`, and its three buffers as sound as they were. -/
structure Dec.Keeps (d d' : Dec) : Prop where
  phase : d'.phase = d.phase
  nch : d'.nch = d.nch
  err : d'.err = d.err
  raw : d.raw.Keeps d'.raw
  lo : d.lo.Keeps d'.lo
  hi : d.hi.Keeps d'.hi

/-- What a body of `DEC` keeps once the mode is decided: the mode, rising counters, empty inactive buffers. -/
structure Dec.Rises (d d' : Dec) : Prop where
  mode : d'.mode = d.mode
  raw : d.raw.Rises d'.raw
  lo : d.lo.Rises d'.lo
  hi : d.hi.Rises d'.hi
  inactive : d.InactiveBlank → d'.InactiveBlank

theorem decKeeps_refl (d : Dec) : d.Keeps d := ⟨rfl, rfl, rfl, ⟨rfl, id⟩, ⟨rfl, id⟩, ⟨rfl, id⟩⟩

theorem decKeeps_trans {a b c : Dec} (h1 : a.Keeps b) (h2 : b.Keeps c) : a.Keeps c :=
  ⟨h2.phase.trans h1.phase, h2.nch.trans h1.nch, h2.err.trans h1.err, bufferKeeps_trans h1.raw h2.raw,
    bufferKeeps_trans h1.lo h2.lo, bufferKeeps_trans h1.hi h2.hi⟩

theorem decRises_refl (d : Dec) : d.Rises d :=
  ⟨rfl, bufferRises_refl _, bufferRises_refl _, bufferRises_refl _, id⟩

theorem decRises_trans {a b c : Dec} (h1 : a.Rises b) (h2 : b.Rises c) : a.Rises c :=
  ⟨h2.mode.trans h1.mode, bufferRises_trans h1.raw h2.raw, bufferRises_trans h1.lo h2.lo,
    bufferRises_trans h1.hi h2.hi, fun h => h2.inactive (h1.inactive h)⟩

/-- Extraction and drain keep the unit and only raise its counters (44_extractor R141, R142). -/
theorem grows_keeps {d d' : DecIO} (h : d.Grows d') : d.dec.Keeps d'.dec := by
  obtain ⟨_, _, _, hdec⟩ := h.fields
  exact ⟨by rw [hdec], by rw [hdec], by rw [hdec], (ages_rises h.raw).toKeeps, (ages_rises h.lo).toKeeps,
    (ages_rises h.hi).toKeeps⟩

theorem grows_rises {d d' : DecIO} (h : d.Grows d') : d.dec.Rises d'.dec := by
  obtain ⟨_, _, _, hdec⟩ := h.fields
  have hmode : d'.dec.mode = d.dec.mode := by rw [hdec]
  refine ⟨hmode, ages_rises h.raw, ages_rises h.lo, ages_rises h.hi, fun hblank => ?_⟩
  unfold Dec.InactiveBlank at *
  rw [hmode]
  cases hm : d.dec.mode with
  | unknown => rw [h.onlyUnknown hm]; rwa [hm] at hblank
  | full =>
    obtain ⟨hlo, hhi, _⟩ := h.onlyFull hm
    rw [hlo, hhi]; rwa [hm] at hblank
  | half =>
    obtain ⟨hraw, hhi, _⟩ := h.onlyHalf hm
    rw [hraw, hhi]; rwa [hm] at hblank
  | mix => rw [h.onlyMix hm]; rwa [hm] at hblank

theorem onRaw_keeps {d : Dec} {k : Buffer → Flow Buffer} (hk : d.raw.Keeps (k d.raw).state) :
    d.Keeps (d.onRaw k).state := by
  rw [Dec.onRaw, state_map]
  exact ⟨rfl, rfl, rfl, hk, ⟨rfl, id⟩, ⟨rfl, id⟩⟩

theorem onLo_keeps {d : Dec} {k : Buffer → Flow Buffer} (hk : d.lo.Keeps (k d.lo).state) :
    d.Keeps (d.onLo k).state := by
  rw [Dec.onLo, state_map]
  exact ⟨rfl, rfl, rfl, ⟨rfl, id⟩, hk, ⟨rfl, id⟩⟩

theorem onHi_keeps {d : Dec} {k : Buffer → Flow Buffer} (hk : d.hi.Keeps (k d.hi).state) :
    d.Keeps (d.onHi k).state := by
  rw [Dec.onHi, state_map]
  exact ⟨rfl, rfl, rfl, ⟨rfl, id⟩, ⟨rfl, id⟩, hk⟩

/-- `DEC.RAW` is active in mode `Full` (10_state R23). -/
theorem onRaw_rises {d : Dec} {k : Buffer → Flow Buffer} (hmode : d.mode = .full)
    (hk : d.raw.Rises (k d.raw).state) : d.Rises (d.onRaw k).state := by
  rw [Dec.onRaw, state_map]
  exact ⟨rfl, hk, bufferRises_refl _, bufferRises_refl _, by simp [Dec.InactiveBlank, hmode]⟩

/-- `DEC.LO` is active in the modes `Half` and `Mix` (10_state R23). -/
theorem onLo_rises {d : Dec} {k : Buffer → Flow Buffer} (hmode : d.mode = .half ∨ d.mode = .mix)
    (hk : d.lo.Rises (k d.lo).state) : d.Rises (d.onLo k).state := by
  rw [Dec.onLo, state_map]
  refine ⟨rfl, bufferRises_refl _, hk, bufferRises_refl _, ?_⟩
  rcases hmode with hmode | hmode <;> simp [Dec.InactiveBlank, hmode]

/-- `DEC.HI` is active in mode `Mix` (10_state R23). -/
theorem onHi_rises {d : Dec} {k : Buffer → Flow Buffer} (hmode : d.mode = .mix)
    (hk : d.hi.Rises (k d.hi).state) : d.Rises (d.onHi k).state := by
  rw [Dec.onHi, state_map]
  exact ⟨rfl, bufferRises_refl _, bufferRises_refl _, hk, by simp [Dec.InactiveBlank, hmode]⟩

/-! ### Taking the payload -/

/-- With the mode decided, the payload only goes to active buffers (48_commands R185). -/
theorem takePayload_rises {d : Dec} (hmode : d.mode ≠ .unknown) (p : Bytes) :
    d.Rises (takePayload Config.build d p).state := by
  unfold takePayload
  cases hm : d.mode with
  | unknown => exact absurd hm hmode
  | full => exact onRaw_rises hm (append_rises _ _)
  | half => exact onLo_rises (.inl hm) (appendPacked_rises _ _ _)
  | mix =>
    refine andThen_keeps (P := d.Rises) (onLo_rises (.inr hm) (appendPacked_rises _ _ _)) (fun x hx => ?_)
    exact decRises_trans hx (onHi_rises (hx.mode.trans hm) (appendPacked_rises _ _ _))

theorem sound_of_detected {b b' : Buffer} (hbps : b'.bps = b.bps)
    (hout : b'.outSamples = b.outSamples ∨ b'.outSamples = 0#64)
    (hcap : overCap Config.build b.window.length = false → overCap Config.build b'.window.length = false) :
    b.Keeps b' := by
  refine ⟨hbps, fun h => ⟨hbps ▸ h.bps_pos, fitsCap_iff.2 (hcap (fitsCap_iff.1 h.within_cap)), ?_⟩⟩
  rcases hout with hout | hout <;> rw [hout]
  · exact h.whole_frames
  · exact Dvd.intro 0 rfl

theorem detected_keeps {d d' : Dec} (h : d.Detected Config.build d') : d.Keeps d' :=
  ⟨h.phase, h.nch, h.err, sound_of_detected h.rawBps h.rawOut h.rawCap, sound_of_detected h.loBps h.loOut h.loCap,
    sound_of_detected h.hiBps h.hiOut h.hiCap⟩

theorem takePayload_keeps (d : Dec) (p : Bytes) : d.Keeps (takePayload Config.build d p).state := by
  unfold takePayload
  cases d.mode with
  | unknown =>
    refine andThen_keeps (P := d.Keeps) (onRaw_keeps (append_rises _ _).toKeeps) (fun x hx => ?_)
    exact decKeeps_trans hx (detected_keeps (classify_detected Config.build x).1)
  | full => exact onRaw_keeps (append_rises _ _).toKeeps
  | half => exact onLo_keeps (appendPacked_rises _ _ _).toKeeps
  | mix =>
    refine andThen_keeps (P := d.Keeps) (onLo_keeps (appendPacked_rises _ _ _).toKeeps) (fun x hx => ?_)
    exact decKeeps_trans hx (onHi_keeps (appendPacked_rises _ _ _).toKeeps)

/-- A decision of the detector leaves the buffers of the other modes empty (43_detector R122 to R124). -/
theorem classify_inactiveBlank {cfg : Config} {d d' : Dec} (hmode : d.mode = .unknown) (hblank : d.InactiveBlank)
    (h : classify cfg d = .go d') : d'.InactiveBlank := by
  obtain ⟨hlo, hhi, hout, hhdr⟩ : d.lo.Blank ∧ d.hi.Blank ∧ d.raw.outSamples = 0#64 ∧ d.raw.hdr = 0#56 := by
    simpa [Dec.InactiveBlank, hmode] using hblank
  unfold classify at h
  split at h
  · cases h
    exact ⟨hlo, hhi⟩
  split at h
  · obtain ⟨d1, h1, h2⟩ := andThen_eq_go.1 h
    obtain ⟨b, _, rfl⟩ := map_eq_go.1 h1
    cases h2
    exact ⟨clear_blank _, hhi⟩
  · obtain ⟨d2, h2, h3⟩ := andThen_eq_go.1 h
    obtain ⟨d1, h1, h2⟩ := andThen_eq_go.1 h2
    obtain ⟨b, _, rfl⟩ := map_eq_go.1 h1
    obtain ⟨c, _, rfl⟩ := map_eq_go.1 h2
    cases h3
    unfold keepIfMix
    split
    · exact clear_blank _
    · simp only [Dec.InactiveBlank, hmode]
      exact ⟨clear_blank _, clear_blank _, hout, hhdr⟩

theorem takePayload_inactiveBlank {d d' : Dec} {p : Bytes} (hblank : d.InactiveBlank)
    (h : takePayload Config.build d p = .go d') : d'.InactiveBlank := by
  by_cases hmode : d.mode = .unknown
  · rw [takePayload, hmode] at h
    obtain ⟨d1, h1, h2⟩ := andThen_eq_go.1 h
    obtain ⟨b, hb, rfl⟩ := map_eq_go.1 h1
    replace hb : d.raw.append Config.build p = .go b := hb
    obtain ⟨_, hout, hhdr, _⟩ := append_state Config.build d.raw p
    rw [hb, state_go] at hout hhdr
    refine classify_inactiveBlank (d := { d with raw := b }) hmode ?_ h2
    simpa [Dec.InactiveBlank, hmode, hout, hhdr] using hblank
  · have hrises := takePayload_rises hmode p
    rw [h, state_go] at hrises
    exact hrises.inactive hblank

theorem takePayload_raised {cfg : Config} {d d' : Dec} {p : Bytes} {f : UnitFault}
    (h : takePayload cfg d p = .raised f d') : f = .bufOvf ∨ f = .cntOvf := by
  unfold takePayload at h
  split at h
  · rcases andThen_eq_raised.1 h with h1 | ⟨d1, _, h1⟩
    · obtain ⟨b, hb, _⟩ := map_eq_raised.1 h1
      exact append_raised hb
    · exact (classify_detected cfg d1).2 f d' h1
  · obtain ⟨b, hb, _⟩ := map_eq_raised.1 h
    exact append_raised hb
  · obtain ⟨b, hb, _⟩ := map_eq_raised.1 h
    exact append_raised hb
  · rcases andThen_eq_raised.1 h with h1 | ⟨d1, _, h1⟩
    · obtain ⟨b, hb, _⟩ := map_eq_raised.1 h1
      exact append_raised hb
    · obtain ⟨b, hb, _⟩ := map_eq_raised.1 h1
      exact append_raised hb

/-! ### The bodies of `DEC_PUSH` and `DEC_FINISH` -/

theorem decPushBody_keeps (p : Bytes) (d : DecIO) : d.dec.Keeps (decPushBody Config.build p d).state.dec := by
  refine andThen_keeps (P := fun x : DecIO => d.dec.Keeps x.dec) ?_ (fun x hx => ?_)
  · rw [state_map]; exact takePayload_keeps d.dec p
  · exact decKeeps_trans hx (grows_keeps (extractAll_grows Config.build x))

theorem decPushBody_rises {d : DecIO} (hmode : d.dec.mode ≠ .unknown) (p : Bytes) :
    d.dec.Rises (decPushBody Config.build p d).state.dec := by
  refine andThen_keeps (P := fun x : DecIO => d.dec.Rises x.dec) ?_ (fun x hx => ?_)
  · rw [state_map]; exact takePayload_rises hmode p
  · exact decRises_trans hx (grows_rises (extractAll_grows Config.build x))

theorem decPushBody_inactiveBlank {p : Bytes} {d d' : DecIO} (hblank : d.dec.InactiveBlank)
    (h : decPushBody Config.build p d = .go d') : d'.dec.InactiveBlank := by
  obtain ⟨d1, h1, h2⟩ := andThen_eq_go.1 h
  obtain ⟨x, hx, rfl⟩ := map_eq_go.1 h1
  have hrises := grows_rises (extractAll_grows Config.build { d with dec := x })
  rw [h2, state_go] at hrises
  exact hrises.inactive (takePayload_inactiveBlank hblank hx)

theorem decPushBody_raised {cfg : Config} {p : Bytes} {d d' : DecIO} {f : UnitFault}
    (h : decPushBody cfg p d = .raised f d') : f = .bufOvf ∨ f = .cntOvf := by
  rcases andThen_eq_raised.1 h with h1 | ⟨d1, _, h1⟩
  · obtain ⟨x, hx, _⟩ := map_eq_raised.1 h1
    exact takePayload_raised hx
  · exact .inr (extractAll_raised h1)

/-- The body of `DEC_FINISH`: no format raises with nothing changed, a decided mode drains (48_commands R187). -/
theorem decFinishBody_cases (cfg : Config) (d : DecIO) :
    (d.dec.mode = .unknown ∧ decFinishBody cfg d = .raised .noFormat d) ∨
      (d.dec.mode ≠ .unknown ∧ decFinishBody cfg d = drain cfg d) := by
  unfold decFinishBody
  cases d.dec.mode with
  | unknown => exact .inl ⟨rfl, rfl⟩
  | full => exact .inr ⟨nofun, rfl⟩
  | half => exact .inr ⟨nofun, rfl⟩
  | mix => exact .inr ⟨nofun, rfl⟩

theorem decFinishBody_keeps (cfg : Config) (d : DecIO) : d.dec.Keeps (decFinishBody cfg d).state.dec := by
  rcases decFinishBody_cases cfg d with ⟨_, h⟩ | ⟨_, h⟩ <;> rw [h]
  · exact decKeeps_refl _
  · exact grows_keeps (drain_grows cfg d)

theorem decFinishBody_rises (cfg : Config) (d : DecIO) : d.dec.Rises (decFinishBody cfg d).state.dec := by
  rcases decFinishBody_cases cfg d with ⟨_, h⟩ | ⟨_, h⟩ <;> rw [h]
  · exact decRises_refl _
  · exact grows_rises (drain_grows cfg d)

theorem decFinishBody_go {cfg : Config} {d d' : DecIO} (h : decFinishBody cfg d = .go d') : d'.dec.mode ≠ .unknown := by
  have hmode := (decFinishBody_rises cfg d).mode
  rw [h, state_go] at hmode
  rcases decFinishBody_cases cfg d with ⟨_, h1⟩ | ⟨hm, _⟩
  · rw [h1] at h; cases h
  · rwa [hmode]

theorem decFinishBody_raised {cfg : Config} {d d' : DecIO} {f : UnitFault} (h : decFinishBody cfg d = .raised f d') :
    (f = .noFormat ∧ d.dec.mode = .unknown ∧ d' = d) ∨ f = .cntOvf := by
  rcases decFinishBody_cases cfg d with ⟨hm, h1⟩ | ⟨_, h1⟩ <;> rw [h1] at h
  · cases h; exact .inl ⟨rfl, hm, rfl⟩
  · exact .inr (drain_raised h)

/-! ## Units `ENC[u]` -/

/-- What a body of an encoder keeps: all but the accumulator and the delay flag, the accumulator's counters rising. -/
structure EncIO.Serves (io io' : EncIO) : Prop where
  fields : ∃ b x, io'.enc = { io.enc with acc := b, delayDone := x }
  acc : io.enc.acc.Rises io'.enc.acc

theorem serves_trans {a b c : EncIO} (h1 : a.Serves b) (h2 : b.Serves c) : a.Serves c := by
  obtain ⟨_, _, hb⟩ := h1.fields
  obtain ⟨b2, x2, hc⟩ := h2.fields
  exact ⟨⟨b2, x2, by rw [hc, hb]⟩, bufferRises_trans h1.acc h2.acc⟩

theorem encGrows_serves {io io' : EncIO} (h : io.Grows io') : io.Serves io' :=
  ⟨h.fields, ages_rises ⟨h.bps, h.inSamples, h.window, h.out⟩⟩

theorem encFeed_serves (io : EncIO) (p : Bytes) : io.Serves (encFeed Config.build io p).state := by
  refine andThen_keeps (P := io.Serves) ?_ (fun x hx => ?_)
  · rw [EncIO.onAcc, state_map]
    exact ⟨⟨_, _, rfl⟩, append_rises _ _⟩
  · exact serves_trans hx (encGrows_serves (feedRounds_grows Config.build _ x).1)

/-- A push that goes on leaves no complete frame waiting (45_wrapper R151). -/
theorem encFeed_go {cfg : Config} {io io' : EncIO} {p : Bytes} (h : encFeed cfg io p = .go io') :
    io'.enc.NoFrameWaits := by
  obtain ⟨x, _, hx⟩ := andThen_eq_go.1 h
  exact feedRounds_go (Nat.lt_succ_self _) hx

theorem encFeed_raised {cfg : Config} {io io' : EncIO} {p : Bytes} {f : UnitFault}
    (h : encFeed cfg io p = .raised f io') : f = .bufOvf ∨ f = .cntOvf ∨ f = .esMalformed := by
  rcases andThen_eq_raised.1 h with h1 | ⟨x, _, hx⟩
  · obtain ⟨b, hb, _⟩ := map_eq_raised.1 h1
    exact (append_raised hb).imp_right .inl
  · exact .inr ((feedRounds_grows cfg _ x).2 f io' hx).symm

theorem encFlush_serves (cfg : Config) (io : EncIO) : io.Serves (encFlush cfg io).state :=
  encGrows_serves (encFlush_cases cfg io).1

theorem encFlush_raised {cfg : Config} {io io' : EncIO} {f : UnitFault} (h : encFlush cfg io = .raised f io') :
    f = .cntOvf := by
  rcases (encFlush_cases cfg io).2 with ⟨_, h1, _⟩ | ⟨_, h1⟩ <;> rw [h1] at h <;> cases h
  rfl

/-! ## Unit `MIX` -/

/-- What a body of `MIX` keeps: phase and `ERR`, the queues within their bound, `TOTAL` rising by whole pairs. -/
structure Mix.Keeps (m m' : Mix) : Prop where
  phase : m'.phase = m.phase
  err : m'.err = m.err
  qa : fitsCap Config.build m.qa = true → fitsCap Config.build m.qb = true → fitsCap Config.build m'.qa = true
  qb : fitsCap Config.build m.qa = true → fitsCap Config.build m.qb = true → fitsCap Config.build m'.qb = true
  total : ∃ n, m'.total.toNat = m.total.toNat + 2 * n

theorem qpush_keeps (q : QueueName) (p : Bytes) (m : MixIO) : m.mix.Keeps (qpush Config.build q p m).state.mix := by
  have hqa (ha hb) := (qpush_keeps_cap (cfg := Config.build) (m := m) q p ha hb).1
  have hqb (ha hb) := (qpush_keeps_cap (cfg := Config.build) (m := m) q p ha hb).2
  rcases qpush_cases Config.build q p m with ⟨_, h⟩ | ⟨_, h⟩ <;> rw [h] at hqa hqb ⊢
  · exact ⟨rfl, rfl, hqa, hqb, 0, rfl⟩
  · cases q <;> exact ⟨rfl, rfl, hqa, hqb, 0, rfl⟩

theorem mixRun_keeps (m : MixIO) : m.mix.Keeps (mixRun m).state.mix := by
  have hqa (ha hb) := (mixRun_keeps_cap (cfg := Config.build) (m := m) ha hb).1
  have hqb (ha hb) := (mixRun_keeps_cap (cfg := Config.build) (m := m) ha hb).2
  rcases mixRun_cases m with ⟨t, ht, h⟩ | ⟨_, h⟩ <;> rw [h] at hqa hqb ⊢
  · exact ⟨rfl, rfl, hqa, hqb, _, ht⟩
  · exact ⟨rfl, rfl, hqa, hqb, 0, rfl⟩

theorem mixEnd_keeps (m : MixIO) : m.mix.Keeps (mixEnd m).state.mix := by
  obtain ⟨hqa, hqb⟩ := mixEnd_keeps_cap Config.build m
  rcases mixEnd_cases m with ⟨t, ht, h⟩ | ⟨_, h⟩ <;> rw [h] at hqa hqb ⊢
  · exact ⟨rfl, rfl, fun _ _ => hqa, fun _ _ => hqb, _, ht⟩
  · exact ⟨rfl, rfl, fun _ _ => hqa, fun _ _ => hqb, 0, rfl⟩

theorem qpush_raised {cfg : Config} {q : QueueName} {p : Bytes} {m m' : MixIO} {f : UnitFault}
    (h : qpush cfg q p m = .raised f m') : f = .bufOvf := by
  rcases qpush_cases cfg q p m with ⟨_, h1⟩ | ⟨_, h1⟩ <;> rw [h1] at h <;> cases h
  rfl

theorem mixRun_raised {m m' : MixIO} {f : UnitFault} (h : mixRun m = .raised f m') : f = .cntOvf := by
  rcases mixRun_cases m with ⟨_, _, h1⟩ | ⟨_, h1⟩ <;> rw [h1] at h <;> cases h
  rfl

theorem mixEnd_raised {m m' : MixIO} {f : UnitFault} (h : mixEnd m = .raised f m') : f = .cntOvf := by
  rcases mixEnd_cases m with ⟨_, _, h1⟩ | ⟨_, h1⟩ <;> rw [h1] at h <;> cases h
  rfl

theorem mixEnd_go {m m' : MixIO} (h : mixEnd m = .go m') : m'.mix.qa = [] ∧ m'.mix.qb = [] := by
  rcases mixEnd_cases m with ⟨_, _, h1⟩ | ⟨_, h1⟩ <;> rw [h1] at h <;> cases h
  exact ⟨rfl, rfl⟩

end Sys2Proof.Machine
end

section
/-! What every command does to the phases, the mode and the counters (10_state R13, R14, R18, R19, R30), read off its
effect on each unit. -/

namespace Sys2Proof.Machine

/-! ## Running a body -/

/-- A command of `DEC` outside `Active` does nothing to `DEC`; inside, its body goes on or halts the unit. -/
theorem decWhenActive_cases (d : DecIO) (body : DecIO → Flow DecIO) :
    d.whenActive body = d ∨ (d.dec.phase = .active ∧
      ((∃ x, body d = .go x ∧ d.whenActive body = x) ∨ ∃ f x, body d = .raised f x ∧
        d.whenActive body = { x with dec := { x.dec with phase := .halted, err := faultCode f } })) := by
  unfold DecIO.whenActive
  by_cases hphase : d.dec.phase = .active
  · rw [if_pos hphase]
    cases hb : body d with
    | go x => exact .inr ⟨hphase, .inl ⟨x, rfl, rfl⟩⟩
    | raised f x => exact .inr ⟨hphase, .inr ⟨f, x, rfl, rfl⟩⟩
  · exact .inl (if_neg hphase)

theorem encWhenActive_cases (io : EncIO) (body : EncIO → Flow EncIO) :
    io.whenActive body = io ∨ (io.enc.phase = .active ∧
      ((∃ x, body io = .go x ∧ io.whenActive body = x) ∨ ∃ f x, body io = .raised f x ∧
        io.whenActive body = { x with enc := { x.enc with phase := .halted, err := faultCode f } })) := by
  unfold EncIO.whenActive
  by_cases hphase : io.enc.phase = .active
  · rw [if_pos hphase]
    cases hb : body io with
    | go x => exact .inr ⟨hphase, .inl ⟨x, rfl, rfl⟩⟩
    | raised f x => exact .inr ⟨hphase, .inr ⟨f, x, rfl, rfl⟩⟩
  · exact .inl (if_neg hphase)

theorem mixWhenActive_cases (m : MixIO) (body : MixIO → Flow MixIO) :
    m.whenActive body = m ∨ (m.mix.phase = .active ∧
      ((∃ x, body m = .go x ∧ m.whenActive body = x) ∨ ∃ f x, body m = .raised f x ∧
        m.whenActive body = { x with mix := { x.mix with phase := .halted, err := faultCode f } })) := by
  unfold MixIO.whenActive
  by_cases hphase : m.mix.phase = .active
  · rw [if_pos hphase]
    cases hb : body m with
    | go x => exact .inr ⟨hphase, .inl ⟨x, rfl, rfl⟩⟩
    | raised f x => exact .inr ⟨hphase, .inr ⟨f, x, rfl, rfl⟩⟩
  · exact .inl (if_neg hphase)

/-! ## Phases -/

/-- The ways a command can leave the phase of a unit (10_state R13), `p` being the phase before it. -/
inductive PhaseWrite (u : UnitName) (p : Phase) : Instr → Phase → Prop
  | same (i : Instr) : PhaseWrite u p i p
  | reset : PhaseWrite u p .reset .idle
  | init : PhaseWrite u p (initOf u) .active
  | finish (hactive : p = .active) : PhaseWrite u p (finishOf u) .finished
  | halt (i : Instr) (hunit : unitOf i = some u) (hactive : p = .active) : PhaseWrite u p i .halted

theorem decEffect_phase {i : Instr} {d d' : DecIO} (h : DecEffect d i d') :
    PhaseWrite .dec d.dec.phase i d'.dec.phase := by
  cases h with
  | init =>
    unfold DecIO.opened
    split
    · exact .same _
    · exact .init
  | push p =>
    have hkeeps := decPushBody_keeps p d
    rcases decWhenActive_cases d (decPushBody Config.build p) with h | ⟨hphase, ⟨x, hx, h⟩ | ⟨f, x, _, h⟩⟩ <;> rw [h]
    · exact .same _
    · rw [hx, state_go] at hkeeps
      rw [hkeeps.phase]
      exact .same _
    · exact .halt _ rfl hphase
  | finish =>
    rcases decWhenActive_cases d (fun x => (decFinishBody Config.build x).andThen DecIO.close) with
      h | ⟨hphase, ⟨x, hx, h⟩ | ⟨f, x, _, h⟩⟩ <;> rw [h]
    · exact .same _
    · obtain ⟨y, _, hy⟩ := andThen_eq_go.1 hx
      obtain rfl := Flow.go.inj hy
      exact .finish hphase
    · exact .halt _ rfl hphase
  | reset => exact .reset
  | config => exact .same _
  | other => exact .same _

theorem encEffect_phase {i : Instr} {u : EncIndex} {io io' : EncIO} (h : EncEffect u io i io') :
    PhaseWrite (.enc u) io.enc.phase i io'.enc.phase := by
  cases h with
  | init =>
    unfold EncIO.opened
    split
    · exact .same _
    · exact .init
  | push p =>
    have hserves := encFeed_serves io p
    rcases encWhenActive_cases io (fun x => encFeed Config.build x p) with
      h | ⟨hphase, ⟨x, hx, h⟩ | ⟨f, x, _, h⟩⟩ <;> rw [h]
    · exact .same _
    · rw [hx, state_go] at hserves
      obtain ⟨b, y, henc⟩ := hserves.fields
      rw [henc]
      exact .same _
    · exact .halt _ rfl hphase
  | finish =>
    rcases encWhenActive_cases io (fun x => (encFlush Config.build x).andThen EncIO.close) with
      h | ⟨hphase, ⟨x, hx, h⟩ | ⟨f, x, _, h⟩⟩ <;> rw [h]
    · exact .same _
    · obtain ⟨y, _, hy⟩ := andThen_eq_go.1 hx
      obtain rfl := Flow.go.inj hy
      exact .finish hphase
    · exact .halt _ rfl hphase
  | reset => exact .reset
  | config => exact .same _
  | other => exact .same _

/-- A body of `MIX` that keeps the phase changes it, as a command, only by a raise. -/
theorem mixWhenActive_phase {i : Instr} {m : MixIO} {body : MixIO → Flow MixIO} (hunit : unitOf i = some .mix)
    (hbody : m.mix.Keeps (body m).state.mix) : PhaseWrite .mix m.mix.phase i (m.whenActive body).mix.phase := by
  rcases mixWhenActive_cases m body with h | ⟨hphase, ⟨x, hx, h⟩ | ⟨f, x, _, h⟩⟩ <;> rw [h]
  · exact .same _
  · rw [hx, state_go] at hbody
    rw [hbody.phase]
    exact .same _
  · exact .halt _ hunit hphase

theorem mixEffect_phase {i : Instr} {m m' : MixIO} (h : MixEffect m i m') :
    PhaseWrite .mix m.mix.phase i m'.mix.phase := by
  cases h with
  | init => exact .init
  | push q p => exact mixWhenActive_phase rfl (qpush_keeps q p m)
  | mixStep => exact mixWhenActive_phase rfl (mixRun_keeps m)
  | finish =>
    rcases mixWhenActive_cases m (fun x => (mixEnd x).andThen MixIO.close) with
      h | ⟨hphase, ⟨x, hx, h⟩ | ⟨f, x, _, h⟩⟩ <;> rw [h]
    · exact .same _
    · obtain ⟨y, _, hy⟩ := andThen_eq_go.1 hx
      obtain rfl := Flow.go.inj hy
      exact .finish hphase
    · exact .halt _ rfl hphase
  | reset => exact .reset
  | other => exact .same _

theorem exec_phase {i : Instr} {s t : State} (u : UnitName) (h : exec i s = .next t) :
    PhaseWrite u (s.phase u) i (t.phase u) := by
  cases u with
  | dec => exact decEffect_phase (exec_dec h)
  | enc u => exact encEffect_phase (exec_enc u h)
  | mix => exact mixEffect_phase (exec_mix h)

/-- Settles O20: a changed phase was written in one of the four ways other than leaving it as it was. -/
theorem phaseIsWrittenByFewCommands : Obligations.PhaseIsWrittenByFewCommands := by
  intro i s t u h hne
  have hwrite := exec_phase u h
  generalize t.phase u = p at hwrite hne
  cases hwrite with
  | same => exact absurd rfl hne
  | reset => exact .inl ⟨rfl, rfl⟩
  | init => exact .inr (.inl ⟨rfl, rfl⟩)
  | finish hactive => exact .inr (.inr (.inl ⟨rfl, hactive, rfl⟩))
  | halt _ hunit hactive => exact .inr (.inr (.inr ⟨hunit, hactive, rfl⟩))

/-! ## Mode and counters -/

theorem decWhenActive_rises {d : DecIO} {body : DecIO → Flow DecIO} (hbody : d.dec.Rises (body d).state.dec) :
    d.dec.Rises (d.whenActive body).dec := by
  rcases decWhenActive_cases d body with h | ⟨_, ⟨x, hx, h⟩ | ⟨f, x, hx, h⟩⟩ <;> rw [h]
  · exact decRises_refl _
  · rwa [hx] at hbody
  · rw [hx] at hbody
    exact ⟨hbody.mode, hbody.raw, hbody.lo, hbody.hi, hbody.inactive⟩

/-- Short of `RESET`, `DEC_INIT` and a push to an undecided `DEC`, a command keeps the mode and raises the counters. -/
theorem decEffect_rises {i : Instr} {d d' : DecIO} (h : DecEffect d i d') (hreset : i ≠ .reset)
    (hinit : i ≠ .decInit) (hmode : d.dec.mode ≠ .unknown ∨ ∀ p, i ≠ .decPush p) : d.dec.Rises d'.dec := by
  cases h with
  | init => exact absurd rfl hinit
  | push p =>
    have hdecided : d.dec.mode ≠ .unknown := hmode.resolve_right (fun hp => hp p rfl)
    exact decWhenActive_rises (decPushBody_rises hdecided p)
  | finish =>
    refine decWhenActive_rises (andThen_keeps (P := fun x : DecIO => d.dec.Rises x.dec)
      (decFinishBody_rises Config.build d) (fun x hx => ?_))
    exact ⟨hx.mode, hx.raw, hx.lo, hx.hi, hx.inactive⟩
  | reset => exact absurd rfl hreset
  | config sel v n _ => exact ⟨rfl, bufferRises_refl _, bufferRises_refl _, bufferRises_refl _, id⟩
  | other => exact decRises_refl _

/-- `DEC_INIT` sets the mode to `Unknown`, or is refused and leaves `DEC` (48_commands R184). -/
theorem decEffect_init_mode {d d' : DecIO} (h : DecEffect d .decInit d') :
    d'.dec.mode = .unknown ∨ d'.dec.mode = d.dec.mode := by
  cases h with
  | init =>
    unfold DecIO.opened
    split
    · exact .inr rfl
    · exact .inl rfl
  | other => exact .inr rfl

/-- Settles O30: of the commands that may change the mode, `RESET` and `DEC_INIT` set it to `Unknown`, and a push keeps
it unless it was `Unknown`. -/
theorem modeIsDecidedOnce : Obligations.ModeIsDecidedOnce := by
  intro i s t h hne
  have heffect := exec_dec h
  by_cases hreset : i = .reset
  · subst hreset
    obtain rfl := Host.Outcome.next.inj h
    exact .inr ⟨rfl, .inr rfl⟩
  by_cases hinit : i = .decInit
  · subst hinit
    exact .inr ⟨(decEffect_init_mode heffect).resolve_right hne, .inl rfl⟩
  left
  by_contra hcon
  have hmode : s.dec.mode ≠ .unknown ∨ ∀ p, i ≠ .decPush p :=
    (not_and_or.1 hcon).imp_right (fun hp p hi => hp ⟨p, hi⟩)
  exact hne (decEffect_rises heffect hreset hinit hmode).mode

theorem encWhenActive_rises {io : EncIO} {body : EncIO → Flow EncIO}
    (hbody : io.enc.acc.Rises (body io).state.enc.acc) : io.enc.acc.Rises (io.whenActive body).enc.acc := by
  rcases encWhenActive_cases io body with h | ⟨_, ⟨x, hx, h⟩ | ⟨f, x, hx, h⟩⟩ <;> rw [h]
  · exact bufferRises_refl _
  · rwa [hx] at hbody
  · rwa [hx] at hbody

/-- Short of `RESET` and its `ENC_INIT`, a command raises the counters of an accumulator. -/
theorem encEffect_rises {i : Instr} {u : EncIndex} {io io' : EncIO} (h : EncEffect u io i io') (hreset : i ≠ .reset)
    (hinit : i ≠ .encInit u) : io.enc.acc.Rises io'.enc.acc := by
  cases h with
  | init => exact absurd rfl hinit
  | push p => exact encWhenActive_rises (encFeed_serves io p).acc
  | finish =>
    exact encWhenActive_rises (andThen_keeps (P := fun x : EncIO => io.enc.acc.Rises x.enc.acc)
      (encFlush_serves Config.build io).acc (fun x hx => hx))
  | reset => exact absurd rfl hreset
  | config => exact bufferRises_refl _
  | other => exact bufferRises_refl _

/-- `TOTAL` rose, by whole pairs of bytes (10_state R30, 47_mixer R172). -/
def Mix.TotalRises (m m' : Mix) : Prop := ∃ n, m'.total.toNat = m.total.toNat + 2 * n

theorem mixWhenActive_total {m : MixIO} {body : MixIO → Flow MixIO}
    (hbody : m.mix.TotalRises (body m).state.mix) : m.mix.TotalRises (m.whenActive body).mix := by
  rcases mixWhenActive_cases m body with h | ⟨_, ⟨x, hx, h⟩ | ⟨f, x, hx, h⟩⟩ <;> rw [h]
  · exact ⟨0, rfl⟩
  · rwa [hx] at hbody
  · rwa [hx] at hbody

theorem mixEffect_total {i : Instr} {m m' : MixIO} (h : MixEffect m i m') (hreset : i ≠ .reset)
    (hinit : i ≠ .mixInit) : m.mix.TotalRises m'.mix := by
  cases h with
  | init => exact absurd rfl hinit
  | push q p => exact mixWhenActive_total (qpush_keeps q p m).total
  | mixStep => exact mixWhenActive_total (mixRun_keeps m).total
  | finish =>
    exact mixWhenActive_total (andThen_keeps (P := fun x : MixIO => m.mix.TotalRises x.mix)
      (mixEnd_keeps m).total (fun x hx => hx))
  | reset => exact absurd rfl hreset
  | other => exact ⟨0, rfl⟩

/-- Settles O29, unit by unit. -/
theorem countersOnlyRise : Obligations.CountersOnlyRise := by
  intro i s t h hreset
  refine ⟨fun u hinit => ?_, fun hinit hmode b hb => ?_, fun hinit => ?_⟩
  · have hrises := encEffect_rises (exec_enc u h) hreset hinit
    exact ⟨hrises.inSamples, hrises.out⟩
  · have hrises := decEffect_rises (exec_dec h) hreset hinit (.inl hmode)
    have hbuf : (s.buffer b).Rises (t.buffer b) := by
      cases b with
      | raw => exact hrises.raw
      | lo => exact hrises.lo
      | hi => exact hrises.hi
      | acc u => simp at hb
    exact ⟨hbuf.inSamples, hbuf.out⟩
  · obtain ⟨n, hn⟩ := mixEffect_total (exec_mix h) hreset hinit
    exact Nat.le.intro hn.symm

end Sys2Proof.Machine
end

section
/-! The invariant of the machine, kept by every step: for each unit, the invariant of a unit that goes on, that halts,
that is closed, that is opened; then the units together. -/

namespace Sys2Proof.Machine

/-! ## Unit `DEC` -/

/-- A body of an `Active` unit goes on: all that is left to show is that the inactive buffers are empty. -/
theorem decInv_goesOn {d d' : Dec} (hinv : d.Inv) (hactive : d.phase = .active) (hkeeps : d.Keeps d')
    (hblank : d'.InactiveBlank) : d'.Inv := by
  have hphase : d'.phase = .active := hkeeps.phase.trans hactive
  have herr : d'.err = 0#8 := hkeeps.err.trans (hinv.running_err (by simp [hactive]))
  exact {
    raw_sound := hkeeps.raw.sound hinv.raw_sound
    lo_sound := hkeeps.lo.sound hinv.lo_sound
    hi_sound := hkeeps.hi.sound hinv.hi_sound
    halted_err := by simp [hphase]
    running_err := fun _ => herr
    active_bps := fun _ => by
      rw [hkeeps.nch, hkeeps.raw.bps, hkeeps.lo.bps, hkeeps.hi.bps]
      exact hinv.active_bps hactive
    inactive_blank := fun _ => hblank
    finished_mode := by simp [hphase]
    idle_reset := by simp [hphase]
    no_format := by simp [herr, faultCode] }

/-- A body raises: the buffers are as sound as they were, and no claim is made of the inactive ones unless no format was
found (60_exceptions R212, R213). -/
theorem decInv_halts {d d' : Dec} {f : UnitFault} (hinv : d.Inv) (hkeeps : d.Keeps d')
    (hfault : f = .bufOvf ∨ f = .cntOvf ∨ f = .noFormat ∧ d'.mode = .unknown ∧ d'.InactiveBlank) :
    Dec.Inv { d' with phase := .halted, err := faultCode f } where
  raw_sound := hkeeps.raw.sound hinv.raw_sound
  lo_sound := hkeeps.lo.sound hinv.lo_sound
  hi_sound := hkeeps.hi.sound hinv.hi_sound
  halted_err _ := by rcases hfault with rfl | rfl | ⟨rfl, _⟩ <;> simp
  running_err h := absurd rfl h
  active_bps := nofun
  inactive_blank h := absurd rfl h
  finished_mode := nofun
  idle_reset := nofun
  no_format h := by
    rcases hfault with rfl | rfl | ⟨rfl, hnone⟩
    · simp [faultCode] at h
    · simp [faultCode] at h
    · exact hnone

/-- `DEC_FINISH` closes an `Active` unit with a decided mode. -/
theorem decInv_closes {d : Dec} (hinv : d.Inv) (hactive : d.phase = .active) (hmode : d.mode ≠ .unknown) :
    Dec.Inv { d with phase := .finished } where
  raw_sound := hinv.raw_sound
  lo_sound := hinv.lo_sound
  hi_sound := hinv.hi_sound
  halted_err := nofun
  running_err _ := hinv.running_err (by simp [hactive])
  active_bps := nofun
  inactive_blank _ := hinv.inactive_blank (by simp [hactive])
  finished_mode _ := hmode
  idle_reset := nofun
  no_format := hinv.no_format

/-- The `BPS` of a new stream: twice the channel count for the raw track, the channel count for a sub-track (10_state
R17). -/
theorem newStream_bps (d : Dec) : d.newStream.raw.bps.toNat = 2 * d.nch.toNat ∧
    d.newStream.lo.bps.toNat = d.nch.toNat ∧ d.newStream.hi.bps.toNat = d.nch.toNat := by
  have hlt : d.nch.toNat < 256 := d.nch.isLt
  have hraw : d.newStream.raw.bps.toNat = 2 * d.nch.toNat := Nat.mod_eq_of_lt (by omega)
  have hlane : (d.nch.setWidth 16).toNat = d.nch.toNat := by
    rw [BitVec.toNat_setWidth]
    exact Nat.mod_eq_of_lt (by omega)
  exact ⟨hraw, hlane, hlane⟩

theorem decInv_opens {d : Dec} (hnch : d.nch ≠ 0#8) :
    Dec.Inv { d.newStream with phase := .active, err := 0#8 } := by
  obtain ⟨hraw, hlo, hhi⟩ := newStream_bps d
  have hpos : 0 < d.nch.toNat := Nat.pos_of_ne_zero (fun h => hnch (BitVec.eq_of_toNat_eq h))
  have hblank (b : Buffer) (bps : BitVec 16) : Buffer.Blank { b.clear with bps := bps } := ⟨rfl, rfl, rfl, rfl⟩
  exact {
    raw_sound := blank_sound (hblank _ _) (by rw [hraw]; omega)
    lo_sound := blank_sound (hblank _ _) (by rw [hlo]; omega)
    hi_sound := blank_sound (hblank _ _) (by rw [hhi]; omega)
    halted_err := nofun
    running_err := fun _ => rfl
    active_bps := fun _ => ⟨hnch, hraw, hlo, hhi⟩
    inactive_blank := fun _ => ⟨hblank _ _, hblank _ _, rfl, rfl⟩
    finished_mode := nofun
    idle_reset := nofun
    no_format := by simp [faultCode] }

/-- `NCH` is tied to the buffers only while the unit is `Active` (10_state R15). -/
theorem decInv_configured {d : Dec} (hinv : d.Inv) (hphase : d.phase ≠ .active) (n : BitVec 8) :
    Dec.Inv { d with nch := n } where
  raw_sound := hinv.raw_sound
  lo_sound := hinv.lo_sound
  hi_sound := hinv.hi_sound
  halted_err := hinv.halted_err
  running_err := hinv.running_err
  active_bps h := absurd h hphase
  inactive_blank := hinv.inactive_blank
  finished_mode := hinv.finished_mode
  idle_reset := hinv.idle_reset
  no_format := hinv.no_format

theorem decPush_inv {d : DecIO} (hinv : d.dec.Inv) (p : Bytes) :
    (d.whenActive (decPushBody Config.build p)).dec.Inv := by
  have hkeeps := decPushBody_keeps p d
  rcases decWhenActive_cases d (decPushBody Config.build p) with
    h | ⟨hactive, ⟨x, hx, h⟩ | ⟨f, x, hx, h⟩⟩ <;> rw [h]
  · exact hinv
  · rw [hx] at hkeeps
    have hblank := decPushBody_inactiveBlank (hinv.inactive_blank (by simp [hactive])) hx
    exact decInv_goesOn hinv hactive hkeeps hblank
  · rw [hx] at hkeeps
    exact decInv_halts hinv hkeeps ((decPushBody_raised hx).imp_right .inl)

theorem decFinish_inv {d : DecIO} (hinv : d.dec.Inv) :
    (d.whenActive (fun x => (decFinishBody Config.build x).andThen DecIO.close)).dec.Inv := by
  have hkeeps := decFinishBody_keeps Config.build d
  rcases decWhenActive_cases d (fun x => (decFinishBody Config.build x).andThen DecIO.close) with
    h | ⟨hactive, ⟨x, hx, h⟩ | ⟨f, x, hx, h⟩⟩ <;> rw [h]
  · exact hinv
  · obtain ⟨y, hy, hclose⟩ := andThen_eq_go.1 hx
    obtain rfl := Flow.go.inj hclose
    have hrises := decFinishBody_rises Config.build d
    rw [hy] at hkeeps hrises
    have hblank := hrises.inactive (hinv.inactive_blank (by simp [hactive]))
    exact decInv_closes (decInv_goesOn hinv hactive hkeeps hblank) (hkeeps.phase.trans hactive)
      (decFinishBody_go hy)
  · rcases andThen_eq_raised.1 hx with hx | ⟨y, _, hclose⟩
    · rw [hx] at hkeeps
      refine decInv_halts hinv hkeeps (.inr ?_)
      rcases decFinishBody_raised hx with ⟨rfl, hmode, rfl⟩ | rfl
      · exact .inr ⟨rfl, hmode, hinv.inactive_blank (by simp [hactive])⟩
      · exact .inl rfl
    · cases hclose

theorem decEffect_inv {i : Instr} {d d' : DecIO} (h : DecEffect d i d') (hinv : d.dec.Inv) : d'.dec.Inv := by
  cases h with
  | init =>
    unfold DecIO.opened
    split
    · exact hinv
    · rename_i hnch
      exact decInv_opens hnch
  | push p => exact decPush_inv hinv p
  | finish => exact decFinish_inv hinv
  | reset => exact decReset_inv
  | config sel v n hphase => exact decInv_configured hinv hphase n
  | other => exact hinv

/-! ## Units `ENC[u]` -/

/-- A body of an `Active` encoder goes on: all that is left to show is that no complete frame waits. -/
theorem encInv_goesOn {e e' : Enc} {b : Buffer} {x : Bool} (hinv : e.Inv) (hactive : e.phase = .active)
    (hfields : e' = { e with acc := b, delayDone := x }) (hacc : e.acc.Keeps e'.acc) (hwaits : e'.NoFrameWaits) :
    e'.Inv := by
  have hphase : e'.phase = .active := by rw [hfields]; exact hactive
  exact {
    acc_sound := hacc.sound hinv.acc_sound
    acc_bps := hacc.bps.trans hinv.acc_bps
    halted_err := by simp [hphase]
    running_err := fun _ => by rw [hfields]; exact hinv.running_err (by simp [hactive])
    active_cfg := fun _ => by rw [hfields]; exact hinv.active_cfg hactive
    active_waits := fun _ => hwaits
    idle_reset := by simp [hphase] }

theorem encInv_halts {e e' : Enc} {f : UnitFault} (hinv : e.Inv) (hacc : e.acc.Keeps e'.acc)
    (hfault : f = .bufOvf ∨ f = .cntOvf ∨ f = .esMalformed) :
    Enc.Inv { e' with phase := .halted, err := faultCode f } where
  acc_sound := hacc.sound hinv.acc_sound
  acc_bps := hacc.bps.trans hinv.acc_bps
  halted_err _ := by rcases hfault with rfl | rfl | rfl <;> simp
  running_err h := absurd rfl h
  active_cfg := nofun
  active_waits := nofun
  idle_reset := nofun

theorem encInv_closes {e e' : Enc} (hinv : e.Inv) (hactive : e.phase = .active) (hacc : e.acc.Keeps e'.acc)
    (herr : e'.err = e.err) : Enc.Inv { e' with phase := .finished } where
  acc_sound := hacc.sound hinv.acc_sound
  acc_bps := hacc.bps.trans hinv.acc_bps
  halted_err := nofun
  running_err _ := herr.trans (hinv.running_err (by simp [hactive]))
  active_cfg := nofun
  active_waits := nofun
  idle_reset := nofun

theorem encInv_opens {e : Enc} (hcfg : ¬ (e.cfgMode = 0#2 ∨ e.cfgNch = 0#8)) :
    Enc.Inv { e.newStream with phase := .active, err := 0#8 } where
  acc_sound := blank_sound ⟨rfl, rfl, rfl, rfl⟩ Nat.one_pos
  acc_bps := rfl
  halted_err := nofun
  running_err _ := rfl
  active_cfg _ := not_or.1 hcfg
  active_waits _ := .inl (Nat.succ_pos 6)
  idle_reset := nofun

/-- The configuration registers are tied to nothing unless the encoder is `Active` (10_state R24). -/
theorem encInv_configured {e : Enc} (hinv : e.Inv) (hphase : e.phase ≠ .active) (mode : BitVec 2) (nch : BitVec 8)
    (rate delay : BitVec 32) :
    Enc.Inv { e with cfgMode := mode, cfgNch := nch, cfgRate := rate, cfgDelayMs := delay } where
  acc_sound := hinv.acc_sound
  acc_bps := hinv.acc_bps
  halted_err := hinv.halted_err
  running_err := hinv.running_err
  active_cfg h := absurd h hphase
  active_waits h := absurd h hphase
  idle_reset := hinv.idle_reset

theorem encPush_inv {io : EncIO} (hinv : io.enc.Inv) (p : Bytes) :
    (io.whenActive (fun x => encFeed Config.build x p)).enc.Inv := by
  have hserves := encFeed_serves io p
  rcases encWhenActive_cases io (fun x => encFeed Config.build x p) with
    h | ⟨hactive, ⟨x, hx, h⟩ | ⟨f, x, hx, h⟩⟩ <;> rw [h]
  · exact hinv
  · rw [hx, state_go] at hserves
    obtain ⟨b, y, hfields⟩ := hserves.fields
    exact encInv_goesOn hinv hactive hfields hserves.acc.toKeeps (encFeed_go hx)
  · rw [hx] at hserves
    exact encInv_halts hinv hserves.acc.toKeeps (encFeed_raised hx)

theorem encFinish_inv {io : EncIO} (hinv : io.enc.Inv) :
    (io.whenActive (fun x => (encFlush Config.build x).andThen EncIO.close)).enc.Inv := by
  have hserves := encFlush_serves Config.build io
  rcases encWhenActive_cases io (fun x => (encFlush Config.build x).andThen EncIO.close) with
    h | ⟨hactive, ⟨x, hx, h⟩ | ⟨f, x, hx, h⟩⟩ <;> rw [h]
  · exact hinv
  · obtain ⟨y, hy, hclose⟩ := andThen_eq_go.1 hx
    obtain rfl := Flow.go.inj hclose
    rw [hy, state_go] at hserves
    obtain ⟨b, z, hfields⟩ := hserves.fields
    exact encInv_closes hinv hactive hserves.acc.toKeeps (by rw [hfields])
  · rcases andThen_eq_raised.1 hx with hx | ⟨y, _, hclose⟩
    · rw [hx] at hserves
      exact encInv_halts hinv hserves.acc.toKeeps (.inr (.inl (encFlush_raised hx)))
    · cases hclose

theorem encEffect_inv {i : Instr} {u : EncIndex} {io io' : EncIO} (h : EncEffect u io i io') (hinv : io.enc.Inv) :
    io'.enc.Inv := by
  cases h with
  | init =>
    unfold EncIO.opened
    split
    · exact hinv
    · rename_i hcfg
      exact encInv_opens hcfg
  | push p => exact encPush_inv hinv p
  | finish => exact encFinish_inv hinv
  | reset => exact encReset_inv
  | config sel v mode nch rate delay hphase => exact encInv_configured hinv hphase mode nch rate delay
  | other => exact hinv

/-! ## Unit `MIX` -/

theorem totalRises_even {m m' : Mix} (h : m.TotalRises m') (heven : 2 ∣ m.total.toNat) : 2 ∣ m'.total.toNat := by
  obtain ⟨n, hn⟩ := h
  rw [hn]
  exact Dvd.dvd.add heven (Dvd.intro n rfl)

theorem mixInv_goesOn {m m' : Mix} (hinv : m.Inv) (hactive : m.phase = .active) (hkeeps : m.Keeps m') : m'.Inv := by
  have hphase : m'.phase = .active := hkeeps.phase.trans hactive
  exact {
    qa_cap := hkeeps.qa hinv.qa_cap hinv.qb_cap
    qb_cap := hkeeps.qb hinv.qa_cap hinv.qb_cap
    halted_err := by simp [hphase]
    running_err := fun _ => hkeeps.err.trans (hinv.running_err (by simp [hactive]))
    total_even := totalRises_even hkeeps.total hinv.total_even
    finished_empty := by simp [hphase]
    idle_reset := by simp [hphase] }

theorem mixInv_halts {m m' : Mix} {f : UnitFault} (hinv : m.Inv) (hkeeps : m.Keeps m')
    (hfault : f = .bufOvf ∨ f = .cntOvf) : Mix.Inv { m' with phase := .halted, err := faultCode f } where
  qa_cap := hkeeps.qa hinv.qa_cap hinv.qb_cap
  qb_cap := hkeeps.qb hinv.qa_cap hinv.qb_cap
  halted_err _ := by rcases hfault with rfl | rfl <;> simp
  running_err h := absurd rfl h
  total_even := totalRises_even hkeeps.total hinv.total_even
  finished_empty := nofun
  idle_reset := nofun

theorem mixInv_closes {m : Mix} (hinv : m.Inv) (hactive : m.phase = .active) (hempty : m.qa = [] ∧ m.qb = []) :
    Mix.Inv { m with phase := .finished } where
  qa_cap := hinv.qa_cap
  qb_cap := hinv.qb_cap
  halted_err := nofun
  running_err _ := hinv.running_err (by simp [hactive])
  total_even := hinv.total_even
  finished_empty _ := hempty
  idle_reset := nofun

theorem mixInv_opens : Mix.Inv ⟨.active, 0#8, [], [], 0#64⟩ where
  qa_cap := fitsCap_nil _
  qb_cap := fitsCap_nil _
  halted_err := nofun
  running_err _ := rfl
  total_even := ⟨0, rfl⟩
  finished_empty := nofun
  idle_reset := nofun

/-- A body of `MIX` that raises one of the two faults of the unit gives a command that keeps the invariant. -/
theorem mixWhenActive_inv {m : MixIO} {body : MixIO → Flow MixIO} (hinv : m.mix.Inv)
    (hkeeps : m.mix.Keeps (body m).state.mix) (hfault : ∀ f x, body m = .raised f x → f = .bufOvf ∨ f = .cntOvf) :
    (m.whenActive body).mix.Inv := by
  rcases mixWhenActive_cases m body with h | ⟨hactive, ⟨x, hx, h⟩ | ⟨f, x, hx, h⟩⟩ <;> rw [h]
  · exact hinv
  · rw [hx] at hkeeps
    exact mixInv_goesOn hinv hactive hkeeps
  · rw [hx] at hkeeps
    exact mixInv_halts hinv hkeeps (hfault f x hx)

theorem mixFinish_inv {m : MixIO} (hinv : m.mix.Inv) :
    (m.whenActive (fun x => (mixEnd x).andThen MixIO.close)).mix.Inv := by
  have hkeeps := mixEnd_keeps m
  rcases mixWhenActive_cases m (fun x => (mixEnd x).andThen MixIO.close) with
    h | ⟨hactive, ⟨x, hx, h⟩ | ⟨f, x, hx, h⟩⟩ <;> rw [h]
  · exact hinv
  · obtain ⟨y, hy, hclose⟩ := andThen_eq_go.1 hx
    obtain rfl := Flow.go.inj hclose
    rw [hy] at hkeeps
    exact mixInv_closes (mixInv_goesOn hinv hactive hkeeps) (hkeeps.phase.trans hactive) (mixEnd_go hy)
  · rcases andThen_eq_raised.1 hx with hx | ⟨y, _, hclose⟩
    · rw [hx] at hkeeps
      exact mixInv_halts hinv hkeeps (.inr (mixEnd_raised hx))
    · cases hclose

theorem mixEffect_inv {i : Instr} {m m' : MixIO} (h : MixEffect m i m') (hinv : m.mix.Inv) : m'.mix.Inv := by
  cases h with
  | init => exact mixInv_opens
  | push q p => exact mixWhenActive_inv hinv (qpush_keeps q p m) (fun _ _ hx => .inl (qpush_raised hx))
  | mixStep => exact mixWhenActive_inv hinv (mixRun_keeps m) (fun _ _ hx => .inr (mixRun_raised hx))
  | finish => exact mixFinish_inv hinv
  | reset => exact mixReset_inv
  | other => exact hinv

/-! ## The machine -/

/-- Every command keeps the invariant, unit by unit. -/
theorem exec_inv {i : Instr} {s t : State} (hinv : s.Inv) (h : exec i s = .next t) : t.Inv where
  cmdErr_legal := by
    rcases exec_cmdErr h with hsame | hlegal
    · rw [hsame]; exact hinv.cmdErr_legal
    · exact hlegal
  dec := decEffect_inv (exec_dec h) hinv.dec
  enc0 := encEffect_inv (exec_enc .e0 h) hinv.enc0
  enc1 := encEffect_inv (exec_enc .e1 h) hinv.enc1
  mix := mixEffect_inv (exec_mix h) hinv.mix

/-- The host's queue is no part of the invariant (log 1). -/
theorem inv_withInput {s : State} (hinv : s.Inv) (rest : List HostInput) : State.Inv { s with input := rest } :=
  ⟨hinv.cmdErr_legal, hinv.dec, hinv.enc0, hinv.enc1, hinv.mix⟩

theorem resetUnits_inv (s : State) : s.resetUnits.Inv :=
  ⟨invariantAtReset.cmdErr_legal, decReset_inv, encReset_inv, encReset_inv, mixReset_inv⟩

/-- A word that the decoder refuses changes `CMDERR` and the read log alone (60_exceptions R211). -/
theorem refuseWord_inv {s : State} (hinv : s.Inv) (w : Word64) (e : ErrCode) : (s.refuseWord w e).Inv := by
  unfold State.refuseWord
  split
  · exact ⟨errCode_le e, hinv.dec, hinv.enc0, hinv.enc1, hinv.mix⟩
  · exact ⟨errCode_le e, hinv.dec, hinv.enc0, hinv.enc1, hinv.mix⟩

theorem runCommand_inv {c : Command} {s t : State} (hinv : s.Inv) (h : runCommand c s = .next t) : t.Inv := by
  unfold runCommand at h
  split at h
  · exact exec_inv hinv h
  · obtain rfl := Host.Outcome.next.inj h
    exact refuseWord_inv hinv _ _
  · cases h

/-- Settles O12, by the host's next entry: none, a hardware reset, or a command. -/
theorem stepKeepsInvariant : Obligations.StepKeepsInvariant := by
  intro s t hinv h
  cases hinput : s.input with
  | nil =>
    rw [step, hinput] at h
    obtain rfl := Host.Outcome.next.inj h
    exact hinv
  | cons entry rest =>
    cases entry with
    | hardReset =>
      rw [step, hinput] at h
      obtain rfl := Host.Outcome.next.inj h
      exact resetUnits_inv _
    | command c =>
      rw [step_of_command hinput] at h
      exact runCommand_inv (inv_withInput hinv rest) h

end Sys2Proof.Machine
end

section
/-! The ports and the values returned only grow (20_memory R42, 70_reset R231): each unit's command adds to the end of
its own ports, and only `RDREG` adds to the values returned. -/

namespace Sys2Proof.Machine

/-! ## Unit `DEC` -/

/-- The bytes on the two ports of `DEC` begin with what they were. -/
structure DecIO.PortsGrow (d d' : DecIO) : Prop where
  portA : d.doutA <+: d'.doutA
  portB : d.doutB <+: d'.doutB

theorem decPortsGrow_refl (d : DecIO) : d.PortsGrow d := ⟨List.prefix_rfl, List.prefix_rfl⟩

theorem decPortsGrow_trans {a b c : DecIO} (h1 : a.PortsGrow b) (h2 : b.PortsGrow c) : a.PortsGrow c :=
  ⟨h1.portA.trans h2.portA, h1.portB.trans h2.portB⟩

theorem grows_portsGrow {d d' : DecIO} (h : d.Grows d') : d.PortsGrow d' := by
  obtain ⟨x, hx⟩ := h.portA
  obtain ⟨y, hy⟩ := h.portB
  exact ⟨⟨x, hx.symm⟩, ⟨y, hy.symm⟩⟩

/-- Taking the payload emits nothing, and the extraction only adds to the ports (48_commands R185). -/
theorem decPushBody_portsGrow (cfg : Config) (p : Bytes) (d : DecIO) : d.PortsGrow (decPushBody cfg p d).state := by
  refine andThen_keeps (P := d.PortsGrow) ?_ (fun x hx => ?_)
  · rw [state_map]
    exact ⟨List.prefix_rfl, List.prefix_rfl⟩
  · exact decPortsGrow_trans hx (grows_portsGrow (extractAll_grows cfg x))

theorem decFinishBody_portsGrow (cfg : Config) (d : DecIO) : d.PortsGrow (decFinishBody cfg d).state := by
  rcases decFinishBody_cases cfg d with ⟨_, h⟩ | ⟨_, h⟩ <;> rw [h]
  · exact decPortsGrow_refl d
  · exact grows_portsGrow (drain_grows cfg d)

/-- Halting on a raise takes no byte back (60_exceptions R212). -/
theorem decWhenActive_portsGrow {d : DecIO} {body : DecIO → Flow DecIO} (hbody : d.PortsGrow (body d).state) :
    d.PortsGrow (d.whenActive body) := by
  rcases decWhenActive_cases d body with h | ⟨_, ⟨x, hx, h⟩ | ⟨f, x, hx, h⟩⟩ <;> rw [h]
  · exact decPortsGrow_refl d
  · rwa [hx] at hbody
  · rw [hx] at hbody
    exact ⟨hbody.portA, hbody.portB⟩

theorem decOpened_portsGrow (d : DecIO) : d.PortsGrow d.opened := by
  unfold DecIO.opened
  split
  · exact decPortsGrow_refl d
  · exact ⟨List.prefix_rfl, List.prefix_rfl⟩

theorem decEffect_portsGrow {i : Instr} {d d' : DecIO} (h : DecEffect d i d') : d.PortsGrow d' := by
  cases h with
  | init => exact decOpened_portsGrow d
  | push p => exact decWhenActive_portsGrow (decPushBody_portsGrow Config.build p d)
  | finish =>
    exact decWhenActive_portsGrow (andThen_keeps (P := d.PortsGrow) (decFinishBody_portsGrow Config.build d)
      (fun x hx => ⟨hx.portA, hx.portB⟩))
  | reset => exact ⟨List.prefix_rfl, List.prefix_rfl⟩
  | config => exact ⟨List.prefix_rfl, List.prefix_rfl⟩
  | other => exact decPortsGrow_refl d

/-! ## Units `ENC[u]` -/

theorem encGrows_eout {io io' : EncIO} (h : io.Grows io') : io.eout <+: io'.eout := by
  obtain ⟨x, hx⟩ := h.port
  exact ⟨x, hx.symm⟩

/-- Appending the payload emits nothing, and the feed loop only adds to the port (45_wrapper R151). -/
theorem encFeed_eout (cfg : Config) (io : EncIO) (p : Bytes) : io.eout <+: (encFeed cfg io p).state.eout := by
  refine andThen_keeps (P := fun x : EncIO => io.eout <+: x.eout) ?_ (fun x hx => ?_)
  · rw [EncIO.onAcc, state_map]
  · exact hx.trans (encGrows_eout (feedRounds_grows cfg _ x).1)

theorem encFlush_eout (cfg : Config) (io : EncIO) : io.eout <+: (encFlush cfg io).state.eout :=
  encGrows_eout (encFlush_cases cfg io).1

theorem encWhenActive_eout {io : EncIO} {body : EncIO → Flow EncIO} (hbody : io.eout <+: (body io).state.eout) :
    io.eout <+: (io.whenActive body).eout := by
  rcases encWhenActive_cases io body with h | ⟨_, ⟨x, hx, h⟩ | ⟨f, x, hx, h⟩⟩ <;> rw [h]
  · rwa [hx] at hbody
  · rwa [hx] at hbody

theorem encOpened_eout (io : EncIO) : io.opened.eout = io.eout := by
  unfold EncIO.opened
  split <;> rfl

theorem encEffect_eout {i : Instr} {u : EncIndex} {io io' : EncIO} (h : EncEffect u io i io') :
    io.eout <+: io'.eout := by
  cases h with
  | init => rw [encOpened_eout]
  | push p => exact encWhenActive_eout (encFeed_eout Config.build io p)
  | finish =>
    exact encWhenActive_eout (andThen_keeps (P := fun x : EncIO => io.eout <+: x.eout)
      (encFlush_eout Config.build io) (fun x hx => hx))
  | reset => exact List.prefix_rfl
  | config => exact List.prefix_rfl
  | other => exact List.prefix_rfl

/-! ## Unit `MIX` -/

/-- A push to a queue emits nothing (47_mixer R170). -/
theorem qpush_mout (cfg : Config) (q : QueueName) (p : Bytes) (m : MixIO) : (qpush cfg q p m).state.mout = m.mout := by
  rcases qpush_cases cfg q p m with ⟨_, h⟩ | ⟨_, h⟩ <;> rw [h] <;> rfl

/-- The mixed block is emitted before `TOTAL` is checked, so a raise keeps it (47_mixer R172). -/
theorem mixRun_mout (m : MixIO) : m.mout <+: (mixRun m).state.mout := by
  have hout : m.mout <+: (mixRunOut m).mout := List.prefix_append _ _
  rcases mixRun_cases m with ⟨_, _, h⟩ | ⟨_, h⟩ <;> rw [h]
  · exact hout
  · exact hout

theorem mixEnd_mout (m : MixIO) : m.mout <+: (mixEnd m).state.mout := by
  have hout : m.mout <+: (mixEndOut m).mout := List.prefix_append _ _
  rcases mixEnd_cases m with ⟨_, _, h⟩ | ⟨_, h⟩ <;> rw [h]
  · exact hout
  · exact hout

theorem mixWhenActive_mout {m : MixIO} {body : MixIO → Flow MixIO} (hbody : m.mout <+: (body m).state.mout) :
    m.mout <+: (m.whenActive body).mout := by
  rcases mixWhenActive_cases m body with h | ⟨_, ⟨x, hx, h⟩ | ⟨f, x, hx, h⟩⟩ <;> rw [h]
  · rwa [hx] at hbody
  · rwa [hx] at hbody

theorem mixEffect_mout {i : Instr} {m m' : MixIO} (h : MixEffect m i m') : m.mout <+: m'.mout := by
  cases h with
  | init => exact List.prefix_rfl
  | push q p => exact mixWhenActive_mout (qpush_mout Config.build q p m ▸ List.prefix_rfl)
  | mixStep => exact mixWhenActive_mout (mixRun_mout m)
  | finish =>
    exact mixWhenActive_mout (andThen_keeps (P := fun x : MixIO => m.mout <+: x.mout) (mixEnd_mout m)
      (fun x hx => hx))
  | reset => exact List.prefix_rfl
  | other => exact List.prefix_rfl

/-! ## The values returned -/

theorem storeReg_reads (v : BitVec 32) (s : State) (r : Reg) : (storeReg v s r).reads = s.reads := by
  cases r <;> simp [storeReg]

theorem writeReg_reads (r : Reg) (v : BitVec 32) (s : State) : (writeReg r v s).reads = s.reads := by
  rcases writeReg_cases r v s with ⟨c, _, h⟩ | ⟨u, w, _, _, h⟩ <;> rw [h]
  exact storeReg_reads v s r

/-- 48_commands R195, 60_exceptions R211: `RDREG` returns one value, refused or not. -/
theorem exec_rdreg_reads {sel : BitVec 8} {s t : State} (h : exec (.rdreg sel) s = .next t) :
    ∃ v, t.reads = s.reads ++ [v] := by
  cases hreg : regOf sel with
  | some r =>
    rw [exec_rdreg_of_reg hreg] at h
    obtain rfl := Host.Outcome.next.inj h
    exact ⟨_, rfl⟩
  | none =>
    rw [exec_rdreg_reserved hreg] at h
    obtain rfl := Host.Outcome.next.inj h
    exact ⟨_, rfl⟩

theorem exec_wrreg_reads {sel : BitVec 8} {v : BitVec 32} {s t : State} (h : exec (.wrreg sel v) s = .next t) :
    t.reads = s.reads := by
  cases hreg : regOf sel with
  | some r =>
    rw [exec_wrreg_of_reg hreg] at h
    obtain rfl := Host.Outcome.next.inj h
    exact writeReg_reads r v s
  | none =>
    rw [exec_wrreg_reserved hreg] at h
    obtain rfl := Host.Outcome.next.inj h
    rfl

/-- A command of a unit returns no value (48_commands R195). -/
theorem exec_unit_reads {i : Instr} {u : UnitName} {s t : State} (hu : unitOf i = some u) (h : exec i s = .next t) :
    t.reads = s.reads := by
  rcases exec_only hu h with ⟨_, hreads, _, _⟩ | rfl | rfl
  · exact hreads
  · rfl
  · rfl

theorem exec_reads {i : Instr} {s t : State} (h : exec i s = .next t) : s.reads <+: t.reads := by
  cases hu : unitOf i with
  | some u => rw [exec_unit_reads hu h]
  | none =>
    cases i with
    | nop => rw [← Host.Outcome.next.inj h]
    | reset => rw [← Host.Outcome.next.inj h]; exact List.prefix_rfl
    | rdreg sel =>
      obtain ⟨v, hv⟩ := exec_rdreg_reads h
      exact ⟨[v], hv.symm⟩
    | wrreg sel v => rw [exec_wrreg_reads h]
    | _ => cases hu

/-! ## The machine -/

/-- Every port and the values returned begin with what they were (20_memory R42). -/
def State.OutputsGrow (s t : State) : Prop :=
  s.ports.doutA <+: t.ports.doutA ∧ s.ports.doutB <+: t.ports.doutB ∧ s.ports.eout0 <+: t.ports.eout0 ∧
    s.ports.eout1 <+: t.ports.eout1 ∧ s.ports.mout <+: t.ports.mout ∧ s.reads <+: t.reads

theorem outputsGrow_of_ports_eq {s t : State} (hports : t.ports = s.ports) (hreads : s.reads <+: t.reads) :
    s.OutputsGrow t := by
  unfold State.OutputsGrow
  rw [hports]
  exact ⟨List.prefix_rfl, List.prefix_rfl, List.prefix_rfl, List.prefix_rfl, List.prefix_rfl, hreads⟩

/-- Every command only adds to the outputs, unit by unit. -/
theorem exec_outputsGrow {i : Instr} {s t : State} (h : exec i s = .next t) : s.OutputsGrow t := by
  obtain ⟨hdoutA, hdoutB⟩ := decEffect_portsGrow (exec_dec h)
  exact ⟨hdoutA, hdoutB, encEffect_eout (exec_enc .e0 h), encEffect_eout (exec_enc .e1 h),
    mixEffect_mout (exec_mix h), exec_reads h⟩

/-- A word that the decoder refuses emits nothing, and returns a value only where it is an `RDREG`'s (60_exceptions
R211). -/
theorem refuseWord_outputsGrow (s : State) (w : Word64) (e : ErrCode) : s.OutputsGrow (s.refuseWord w e) := by
  unfold State.refuseWord
  split
  · exact outputsGrow_of_ports_eq rfl (List.prefix_append _ _)
  · exact outputsGrow_of_ports_eq rfl List.prefix_rfl

theorem runCommand_outputsGrow {c : Command} {s t : State} (h : runCommand c s = .next t) : s.OutputsGrow t := by
  unfold runCommand at h
  split at h
  · exact exec_outputsGrow h
  · obtain rfl := Host.Outcome.next.inj h
    exact refuseWord_outputsGrow s _ _
  · cases h

/-- Settles O28, by the host's next entry: with none nothing changes, a hardware reset keeps what has left, a command
only adds. -/
theorem outputsOnlyGrow : Obligations.OutputsOnlyGrow := by
  intro s t h
  cases hinput : s.input with
  | nil =>
    rw [step, hinput] at h
    obtain rfl := Host.Outcome.next.inj h
    exact outputsGrow_of_ports_eq rfl List.prefix_rfl
  | cons entry rest =>
    cases entry with
    | hardReset =>
      rw [step, hinput] at h
      obtain rfl := Host.Outcome.next.inj h
      exact outputsGrow_of_ports_eq rfl List.prefix_rfl
    | command c =>
      rw [step_of_command hinput] at h
      have hgrow : State.OutputsGrow { s with input := rest } t := runCommand_outputsGrow h
      exact hgrow

end Sys2Proof.Machine
end

section
/-! The command word (30_encoding R60 to R66): the decoder as two stages, first the fields that must be 0, then the
operands; what each stage answers, format by format. From it the round trips and the order of the checks. -/

namespace Sys2Proof.Machine

/-! ## The fields that must be 0 -/

section Formats
variable {w : Word64}

theorem not_reserved_n : ¬ reservedBitsSet .n w ↔ rsvdField w = 0 ∧ selField w = 0 ∧ argField w = 0 := by
  simp [reservedBitsSet, selMustBeZero, argMustBeZero]

theorem not_reserved_u : ¬ reservedBitsSet .u w ↔ rsvdField w = 0 ∧ argField w = 0 := by
  simp [reservedBitsSet, selMustBeZero, argMustBeZero]

theorem not_reserved_p : ¬ reservedBitsSet .p w ↔ rsvdField w = 0 ∧ selField w = 0 := by
  simp [reservedBitsSet, selMustBeZero, argMustBeZero]

theorem not_reserved_up : ¬ reservedBitsSet .up w ↔ rsvdField w = 0 := by
  simp [reservedBitsSet, selMustBeZero, argMustBeZero]

theorem not_reserved_r : ¬ reservedBitsSet .r w ↔ rsvdField w = 0 ∧ argField w = 0 := by
  simp [reservedBitsSet, selMustBeZero, argMustBeZero]

theorem not_reserved_w : ¬ reservedBitsSet .w w ↔ rsvdField w = 0 := by
  simp [reservedBitsSet, selMustBeZero, argMustBeZero]

theorem rsvdField_of_not_reserved {f : Format} (h : ¬ reservedBitsSet f w) : rsvdField w = 0 := by
  by_contra hne
  exact h (.inl hne)

end Formats

/-! ## The operands -/

/-- The second stage of the decoder: the operands of a word of opcode `o` whose reserved fields are 0; `none` where `SEL`
names neither an encoder nor a queue (30_encoding R62). Tied to the decoder by `decodeAs_of_not_reserved`. -/
def readOperands (w : Word64) (p : Bytes) : Opcode → Option Instr
  | .nop => some .nop
  | .reset => some .reset
  | .rdreg => some (.rdreg (selField w))
  | .wrreg => some (.wrreg (selField w) (argField w))
  | .decInit => some .decInit
  | .decPush => some (.decPush p)
  | .decFinish => some .decFinish
  | .encInit => (encIndexOf (selField w)).map .encInit
  | .encPush => (encIndexOf (selField w)).map (.encPush · p)
  | .encFinish => (encIndexOf (selField w)).map .encFinish
  | .mixInit => some .mixInit
  | .mixPush => (queueOf (selField w)).map (.mixPush · p)
  | .mixStep => some .mixStep
  | .mixFinish => some .mixFinish

/-- What the decoder makes of the operands: `SEL` out of range is `E_SEL` (30_encoding R65). -/
def ofOperands : Option Instr → Decoded
  | some i => .instr i
  | none => .refused .eSel

theorem decodeAs_of_reserved {w : Word64} (p : Bytes) {o : Opcode} (h : reservedBitsSet (formatOf o) w) :
    decodeAs w p o = .refused .eRsvd := by
  cases o with
  | nop | reset | decInit | decFinish | mixInit | mixStep | mixFinish => exact if_neg fun hz => not_reserved_n.2 hz h
  | rdreg => exact if_neg fun hz => not_reserved_r.2 hz h
  | wrreg => exact if_neg fun hz => not_reserved_w.2 hz h
  | decPush => exact if_neg fun hz => not_reserved_p.2 hz h
  | encInit | encFinish => exact if_neg fun hz => not_reserved_u.2 hz h
  | encPush | mixPush => exact if_neg fun hz => not_reserved_up.2 hz h

theorem decodeU_of_zero {w : Word64} (hz : rsvdField w = 0 ∧ argField w = 0) (f : EncIndex → Instr) :
    decodeU w f = ofOperands ((encIndexOf (selField w)).map f) := by
  rw [decodeU, if_pos hz]
  cases encIndexOf (selField w) <;> rfl

theorem decodeUPEnc_of_zero {w : Word64} (hz : rsvdField w = 0) (f : EncIndex → Instr) :
    decodeUPEnc w f = ofOperands ((encIndexOf (selField w)).map f) := by
  rw [decodeUPEnc, if_pos hz]
  cases encIndexOf (selField w) <;> rfl

theorem decodeUPMix_of_zero {w : Word64} (hz : rsvdField w = 0) (f : QueueName → Instr) :
    decodeUPMix w f = ofOperands ((queueOf (selField w)).map f) := by
  rw [decodeUPMix, if_pos hz]
  cases queueOf (selField w) <;> rfl

/-- With the reserved fields at 0 only the operands are left to read (30_encoding R65). -/
theorem decodeAs_of_not_reserved {w : Word64} (p : Bytes) {o : Opcode} (h : ¬ reservedBitsSet (formatOf o) w) :
    decodeAs w p o = ofOperands (readOperands w p o) := by
  cases o with
  | nop | reset | decInit | decFinish | mixInit | mixStep | mixFinish => exact if_pos (not_reserved_n.1 h)
  | rdreg => exact if_pos (not_reserved_r.1 h)
  | wrreg => exact if_pos (not_reserved_w.1 h)
  | decPush => exact if_pos (not_reserved_p.1 h)
  | encInit | encFinish => exact decodeU_of_zero (not_reserved_u.1 h) _
  | encPush => exact decodeUPEnc_of_zero (not_reserved_up.1 h) _
  | mixPush => exact decodeUPMix_of_zero (not_reserved_up.1 h) _

theorem decodeAs_eq_instr {w : Word64} {p : Bytes} {o : Opcode} {i : Instr} :
    decodeAs w p o = .instr i ↔ ¬ reservedBitsSet (formatOf o) w ∧ readOperands w p o = some i := by
  by_cases hr : reservedBitsSet (formatOf o) w
  · simp [decodeAs_of_reserved p hr, hr]
  · rw [decodeAs_of_not_reserved p hr]
    cases readOperands w p o <;> simp [ofOperands, hr]

theorem encIndexOf_eq_none {sel : BitVec 8} : encIndexOf sel = none ↔ 1 < sel.toNat := by
  unfold encIndexOf
  split_ifs <;> simp <;> bv_omega

theorem queueOf_eq_none {sel : BitVec 8} : queueOf sel = none ↔ 1 < sel.toNat := by
  unfold queueOf
  split_ifs <;> simp <;> bv_omega

/-- The one check left to the second stage is the range of an index (30_encoding R62). -/
theorem readOperands_eq_none {w : Word64} {p : Bytes} {o : Opcode} :
    readOperands w p o = none ↔ selIsIndex (formatOf o) ∧ 1 < (selField w).toNat := by
  cases o with
  | encInit | encPush | encFinish => simp [readOperands, formatOf, selIsIndex, encIndexOf_eq_none]
  | mixPush => simp [readOperands, formatOf, selIsIndex, queueOf_eq_none]
  | nop | reset | rdreg | wrreg | decInit | decPush | decFinish | mixInit | mixStep | mixFinish =>
    simp [readOperands, formatOf, selIsIndex]

theorem readOperands_opcode {w : Word64} {p : Bytes} {o : Opcode} {i : Instr} (h : readOperands w p o = some i) :
    i.opcode = o := by
  cases o with
  | encInit | encPush | encFinish | mixPush =>
    obtain ⟨_, -, rfl⟩ := Option.map_eq_some_iff.1 h
    rfl
  | nop | reset | rdreg | wrreg | decInit | decPush | decFinish | mixInit | mixStep | mixFinish =>
    obtain rfl := Option.some.inj h
    rfl

/-! ## The whole decoder -/

/-- A pair that is a command is decoded by the format of the opcode its `OP` names (30_encoding R65). -/
theorem decode_of_opcode {c : Command} {o : Opcode} (hlen : c.payload.length = payloadLength c.word)
    (hop : opcodeOf (opField c.word) = some o) : decode c = decodeAs c.word c.payload o := by
  rw [decode, if_pos hlen, hop]

theorem decode_of_no_opcode {c : Command} (hlen : c.payload.length = payloadLength c.word)
    (hop : opcodeOf (opField c.word) = none) : decode c = .refused .eOpcode := by
  rw [decode, if_pos hlen, hop]

/-- Everything a pair that decodes has passed: the length of R63, then `OP`, the reserved fields and the operands. -/
theorem decode_eq_instr {c : Command} {i : Instr} :
    decode c = .instr i ↔ c.payload.length = payloadLength c.word ∧ opField c.word = opCode i.opcode ∧
      ¬ reservedBitsSet (formatOf i.opcode) c.word ∧ readOperands c.word c.payload i.opcode = some i := by
  constructor
  · intro h
    by_cases hlen : c.payload.length = payloadLength c.word
    · cases hop : opcodeOf (opField c.word) with
      | none => cases (decode_of_no_opcode hlen hop).symm.trans h
      | some o =>
        obtain ⟨hres, hread⟩ := decodeAs_eq_instr.1 ((decode_of_opcode hlen hop).symm.trans h)
        obtain rfl := readOperands_opcode hread
        exact ⟨hlen, opcodeOf_eq_some.1 hop, hres, hread⟩
    · rw [decode, if_neg hlen] at h
      cases h
  · rintro ⟨hlen, hop, hres, hread⟩
    rw [decode_of_opcode hlen (opcodeOf_eq_some.2 hop)]
    exact decodeAs_eq_instr.2 ⟨hres, hread⟩

/-! ## Encoding, then decoding -/

@[simp] theorem opField_encode (i : Instr) : opField (encode i).word = opCode i.opcode := by
  cases i <;> exact opField_packWord ..

/-- How long a payload a word asks for, by its opcode (30_encoding R66). -/
theorem payloadLength_of_push {w : Word64} {o : Opcode} (hop : opField w = opCode o) (hpush : hasPayload o = true) :
    payloadLength w = (argField w).toNat := by
  simp [payloadLength, hop, hpush]

theorem payloadLength_of_no_payload {w : Word64} {o : Opcode} (hop : opField w = opCode o)
    (hno : hasPayload o = false) : payloadLength w = 0 := by
  simp [payloadLength, hop, hno]

theorem payloadLength_lt (w : Word64) : payloadLength w < 2 ^ 32 := by
  unfold payloadLength
  split
  · split
    · exact (argField w).isLt
    · decide
  · decide

/-- The length of a payload is what has to fit (30_encoding R63); a command without one has the empty payload. -/
theorem wellFormed_iff {i : Instr} : i.wellFormed = true ↔ (encode i).payload.length < 2 ^ 32 := by
  cases i <;> simp [Instr.wellFormed, encode, payloadFits]

theorem lengthArg_toNat {p : Bytes} (h : p.length < 2 ^ 32) : (lengthArg p).toNat = p.length := by
  rw [lengthArg, BitVec.toNat_ofNat, Nat.mod_eq_of_lt h]

/-- An encoded `PUSH` asks for as many bytes as follow it, any other command for none (30_encoding R63, R66). -/
theorem encode_payload_length {i : Instr} (h : i.wellFormed = true) :
    (encode i).payload.length = payloadLength (encode i).word := by
  have hfits := wellFormed_iff.1 h
  cases i with
  | decPush p | encPush u p | mixPush q p =>
    rw [payloadLength_of_push (opField_encode _) rfl]
    simp only [encode] at hfits ⊢
    rw [argField_packWord, lengthArg_toNat hfits]
  | nop | reset | rdreg | wrreg | decInit | decFinish | encInit | encFinish | mixInit | mixStep | mixFinish =>
    rw [payloadLength_of_no_payload (opField_encode _) rfl, encode, List.length_nil]

theorem not_reserved_encode (i : Instr) : ¬ reservedBitsSet (formatOf i.opcode) (encode i).word := by
  cases i with
  | nop | reset | decInit | decFinish | mixInit | mixStep | mixFinish =>
    exact not_reserved_n.2 ⟨rsvdField_packWord .., selField_packWord .., argField_packWord ..⟩
  | rdreg sel => exact not_reserved_r.2 ⟨rsvdField_packWord .., argField_packWord ..⟩
  | wrreg sel v => exact not_reserved_w.2 (rsvdField_packWord ..)
  | decPush p => exact not_reserved_p.2 ⟨rsvdField_packWord .., selField_packWord ..⟩
  | encInit u | encFinish u => exact not_reserved_u.2 ⟨rsvdField_packWord .., argField_packWord ..⟩
  | encPush u p | mixPush q p => exact not_reserved_up.2 (rsvdField_packWord ..)

theorem readOperands_encode (i : Instr) : readOperands (encode i).word (encode i).payload i.opcode = some i := by
  cases i <;> simp [readOperands, encode, Instr.opcode]

/-- Settles O1: the encoding passes the decoder's checks one by one, and its operands are read back. -/
theorem decodeInvertsEncode : Obligations.DecodeInvertsEncode := by
  intro i hwf
  exact decode_eq_instr.2 ⟨encode_payload_length hwf, opField_encode i, not_reserved_encode i, readOperands_encode i⟩

/-! ## Decoding, then encoding -/

/-- A word of opcode `o` whose reserved fields are 0 is its opcode, its `SEL` and its `ARG` (30_encoding R61). -/
theorem word_eq_packWord {w : Word64} {o : Opcode} (hop : opField w = opCode o)
    (hres : ¬ reservedBitsSet (formatOf o) w) : w = packWord (opCode o) (selField w) (argField w) := by
  rw [← hop, packWord_fields (rsvdField_of_not_reserved hres)]

theorem payload_eq_nil {w : Word64} {p : Bytes} {o : Opcode} (hop : opField w = opCode o)
    (hlen : p.length = payloadLength w) (hno : hasPayload o = false) : p = [] :=
  List.eq_nil_of_length_eq_zero (hlen.trans (payloadLength_of_no_payload hop hno))

theorem argField_eq_lengthArg {w : Word64} {p : Bytes} {o : Opcode} (hop : opField w = opCode o)
    (hlen : p.length = payloadLength w) (hpush : hasPayload o = true) : argField w = lengthArg p := by
  rw [lengthArg, hlen, payloadLength_of_push hop hpush, BitVec.ofNat_toNat, BitVec.setWidth_eq]

/-- The operands read from a pair that is a command, packed again, are that pair. -/
theorem encode_of_readOperands {w : Word64} {p : Bytes} {o : Opcode} {i : Instr} (hop : opField w = opCode o)
    (hlen : p.length = payloadLength w) (hres : ¬ reservedBitsSet (formatOf o) w)
    (hread : readOperands w p o = some i) : encode i = ⟨w, p⟩ := by
  have hword := word_eq_packWord hop hres
  cases o with
  | nop | reset | decInit | decFinish | mixInit | mixStep | mixFinish =>
    obtain ⟨-, hsel, harg⟩ := not_reserved_n.1 hres
    obtain rfl := Option.some.inj hread
    rw [hword, hsel, harg, payload_eq_nil hop hlen rfl, encode]
  | rdreg =>
    obtain ⟨-, harg⟩ := not_reserved_r.1 hres
    obtain rfl := Option.some.inj hread
    rw [encode, ← harg, ← hword, payload_eq_nil hop hlen rfl]
  | wrreg =>
    obtain rfl := Option.some.inj hread
    rw [encode, ← hword, payload_eq_nil hop hlen rfl]
  | decPush =>
    obtain ⟨-, hsel⟩ := not_reserved_p.1 hres
    obtain rfl := Option.some.inj hread
    rw [encode, ← argField_eq_lengthArg hop hlen rfl, ← hsel, ← hword]
  | encInit | encFinish =>
    obtain ⟨-, harg⟩ := not_reserved_u.1 hres
    obtain ⟨u, hu, rfl⟩ := Option.map_eq_some_iff.1 hread
    rw [encode, ← encIndexOf_eq_some hu, ← harg, ← hword, payload_eq_nil hop hlen rfl]
  | encPush =>
    obtain ⟨u, hu, rfl⟩ := Option.map_eq_some_iff.1 hread
    rw [encode, ← encIndexOf_eq_some hu, ← argField_eq_lengthArg hop hlen rfl, ← hword]
  | mixPush =>
    obtain ⟨q, hq, rfl⟩ := Option.map_eq_some_iff.1 hread
    rw [encode, ← queueOf_eq_some hq, ← argField_eq_lengthArg hop hlen rfl, ← hword]

/-- Settles O2: the pair passed every check, so it is its operands packed again; and its payload is as long as the 32
bits of `ARG` say. -/
theorem encodeInvertsDecode : Obligations.EncodeInvertsDecode := by
  intro c i h
  obtain ⟨hlen, hop, hres, hread⟩ := decode_eq_instr.1 h
  have hencode : encode i = c := encode_of_readOperands hop hlen hres hread
  refine ⟨wellFormed_iff.2 ?_, hencode⟩
  rw [hencode, hlen]
  exact payloadLength_lt _

/-! ## The order of the checks -/

/-- Settles O4: `OP` is looked up first, the reserved fields are the decoder's first stage, the range of `SEL` is the
only way its second stage can fail. -/
theorem decodeChecksInOrder : Obligations.DecodeChecksInOrder := by
  intro c hlen
  refine ⟨decode_of_no_opcode hlen, fun o hop => ?_⟩
  rw [decode_of_opcode hlen hop]
  refine ⟨decodeAs_of_reserved c.payload, fun hres hindex hsel => ?_, fun hres hsel => ?_⟩
  · rw [decodeAs_of_not_reserved c.payload hres, readOperands_eq_none.2 ⟨hindex, hsel⟩, ofOperands]
  · cases hread : readOperands c.word c.payload o with
    | none =>
      obtain ⟨hindex, hlarge⟩ := readOperands_eq_none.1 hread
      exact absurd (hsel hindex) (by omega)
    | some i => exact ⟨i, decodeAs_eq_instr.2 ⟨hres, hread⟩, readOperands_opcode hread⟩

/-! ## The opcode table -/

/-- A word is the same as another when its four fields are (30_encoding R61). -/
theorem word_eq_iff_fields {v w : Word64} : v = w ↔ opField v = opField w ∧ selField v = selField w ∧
    rsvdField v = rsvdField w ∧ argField v = argField w := by
  constructor
  · rintro rfl
    exact ⟨rfl, rfl, rfl, rfl⟩
  · simp only [opField, selField, rsvdField, argField, ← BitVec.toNat_inj, BitVec.extractLsb'_toNat,
      Nat.shiftRight_eq_div_pow]
    omega

/-- A mask acts on each field by itself. -/
theorem and_eq_iff_fields {w mask v : Word64} : w &&& mask = v ↔
    opField w &&& opField mask = opField v ∧ selField w &&& selField mask = selField v ∧
    rsvdField w &&& rsvdField mask = rsvdField v ∧ argField w &&& argField mask = argField v := by
  simp only [word_eq_iff_fields, opField, selField, rsvdField, argField, BitVec.extractLsb'_and]

/-- The bits of `SEL` that a row of this format tests (30_encoding R64): all where `SEL` must be 0, all but the lowest of
an index, none of a register number. -/
def selMask : Format → BitVec 8
  | .n | .p => BitVec.allOnes 8
  | .u | .up => 0xFE#8
  | .r | .w => 0x00#8

/-- The bits of `ARG` that a row of this format tests (30_encoding R64): all where `ARG` must be 0, else none. -/
def argMask : Format → BitVec 32
  | .n | .u | .r => BitVec.allOnes 32
  | .p | .up | .w => 0#32

/-- A row tests its opcode, `RSVD`, and what the format of its command tests (30_encoding R64). -/
theorem opcodeTable_row : ∀ {r : OpcodeRow}, r ∈ opcodeTable →
    opField r.mask = BitVec.allOnes 8 ∧ selField r.mask = selMask (formatOf r.op) ∧
      rsvdField r.mask = BitVec.allOnes 16 ∧ argField r.mask = argMask (formatOf r.op) ∧
      r.pattern = packWord (opCode r.op) 0 0 := by
  decide

theorem opcodeTable_complete (o : Opcode) : ∃ r ∈ opcodeTable, r.op = o := by
  cases o <;> decide

theorem and_index_mask {sel : BitVec 8} : sel &&& 0xFE#8 = 0#8 ↔ sel.toNat ≤ 1 := by
  revert sel
  decide

/-- The masks of a format test what the decoder tests: its reserved fields and the range of an index. -/
theorem masks_test_format {f : Format} {w : Word64} :
    (selField w &&& selMask f = 0#8 ∧ rsvdField w = 0#16 ∧ argField w &&& argMask f = 0#32) ↔
      ¬ reservedBitsSet f w ∧ (selIsIndex f → (selField w).toNat ≤ 1) := by
  cases f with
  | n => simp [not_reserved_n, selMask, argMask, selIsIndex, -BitVec.reduceAllOnes, and_left_comm]
  | u => simp [not_reserved_u, selMask, argMask, selIsIndex, -BitVec.reduceAllOnes, and_index_mask, and_comm]
  | p => simp [not_reserved_p, selMask, argMask, selIsIndex, -BitVec.reduceAllOnes, and_comm]
  | up => simp [not_reserved_up, selMask, argMask, selIsIndex, and_index_mask, and_comm]
  | r => simp [not_reserved_r, selMask, argMask, selIsIndex, -BitVec.reduceAllOnes]
  | w => simp [not_reserved_w, selMask, argMask, selIsIndex]

/-- What a word that matches a row looks like, field by field (30_encoding R64). -/
theorem row_matches_iff {r : OpcodeRow} (h : r ∈ opcodeTable) {w : Word64} : w &&& r.mask = r.pattern ↔
    opField w = opCode r.op ∧ ¬ reservedBitsSet (formatOf r.op) w ∧
      (selIsIndex (formatOf r.op) → (selField w).toNat ≤ 1) := by
  obtain ⟨hop, hsel, hrsvd, harg, hpattern⟩ := opcodeTable_row h
  rw [and_eq_iff_fields, hop, hsel, hrsvd, harg, hpattern, ← masks_test_format, opField_packWord, selField_packWord,
    rsvdField_packWord, argField_packWord, BitVec.and_allOnes, BitVec.and_allOnes]
  rfl

/-- Which commands decode to opcode `o`: those that pass the checks of R65. -/
theorem decodes_to_opcode_iff {c : Command} {o : Opcode} (hlen : c.payload.length = payloadLength c.word) :
    (∃ i, decode c = .instr i ∧ i.opcode = o) ↔ opField c.word = opCode o ∧
      ¬ reservedBitsSet (formatOf o) c.word ∧ (selIsIndex (formatOf o) → (selField c.word).toNat ≤ 1) := by
  constructor
  · rintro ⟨i, hdecode, rfl⟩
    obtain ⟨-, hop, hres, hread⟩ := decode_eq_instr.1 hdecode
    refine ⟨hop, hres, fun hindex => Nat.le_of_not_lt fun hlarge => ?_⟩
    rw [readOperands_eq_none.2 ⟨hindex, hlarge⟩] at hread
    cases hread
  · rintro ⟨hop, hres, hsel⟩
    obtain ⟨-, hchecks⟩ := decodeChecksInOrder c hlen
    obtain ⟨-, -, hdecodes⟩ := hchecks o (opcodeOf_eq_some.2 hop)
    exact hdecodes hres hsel

/-- Settles O3: the decoder's checks and the row's mask test the same fields. -/
theorem decodeFollowsOpcodeTable : Obligations.DecodeFollowsOpcodeTable := by
  intro c o hlen
  rw [decodes_to_opcode_iff hlen]
  constructor
  · intro hchecks
    obtain ⟨r, hr, rfl⟩ := opcodeTable_complete o
    exact ⟨r, hr, rfl, (row_matches_iff hr).2 hchecks⟩
  · rintro ⟨r, hr, rfl, hmatch⟩
    exact (row_matches_iff hr).1 hmatch

/-! ## Words of the specification -/

/-- Settles O5: the six words that decode are encodings; the opcode of the seventh is reserved. -/
theorem wordsOfTheSpecDecode : Obligations.WordsOfTheSpecDecode :=
  ⟨decodeInvertsEncode .nop rfl, decodeInvertsEncode (.wrreg 0x12#8 2#32) rfl,
    decodeInvertsEncode (.rdreg 0x11#8) rfl, decodeInvertsEncode (.encInit .e1) rfl,
    decodeInvertsEncode (.decPush [0xAA#8, 0xBB#8]) rfl, decodeInvertsEncode (.mixPush .qb [0x7F#8]) rfl,
    decode_of_no_opcode rfl rfl⟩

/-! ## A word the decoder refuses -/

theorem runCommand_of_refused {c : Command} {e : ErrCode} (hdecode : decode c = .refused e) (s : State) :
    runCommand c s = .next (s.refuseWord c.word e) := by
  rw [runCommand, hdecode]

/-- 60_exceptions R211: a refused word sets `CMDERR`, and returns the read value 0 where `OP` is that of `RDREG`. -/
theorem refuseWord_eq (s : State) (w : Word64) (e : ErrCode) : s.refuseWord w e = { s with
    cmdErr := errCode e
    reads := if opField w = 0x02#8 then s.reads ++ [0#64] else s.reads } := by
  have hop : opcodeOf (opField w) = some .rdreg ↔ opField w = 0x02#8 := opcodeOf_eq_some
  by_cases h : opField w = 0x02#8
  · rw [State.refuseWord, if_pos (hop.2 h), if_pos h, State.refuseRead, State.refuse, State.returnRead]
  · rw [State.refuseWord, if_neg (mt hop.1 h), if_neg h, State.refuse]

/-- Settles O7: the entry is taken off the queue, then the word is refused. -/
theorem stepRefusesRejectedWord : Obligations.StepRefusesRejectedWord := by
  intro s c rest e hinput hdecode
  rw [step_of_command hinput, runCommand_of_refused hdecode, refuseWord_eq]

end Sys2Proof.Machine
end

section
/-! Lanes, packings and the wrapped frame (30_encoding R70 to R73): what the lane extractor undoes, and where each part of
a wrapped frame lies. -/

namespace Sys2Proof.Machine

/-! ## Lanes and packings -/

/-- Adding 128 is the remapping too: both are its own inverse (42_buffer R102, 45_wrapper R156). -/
theorem remap_add_128 (b : Byte) : remap (b + 128#8) = b := by
  unfold remap
  bv_omega

/-- Half mode keeps the track in the low bytes (30_encoding R73). -/
theorem laneBytes_packHalf (fill : Byte) (y : Bytes) : laneBytes .low (packHalf fill y) = y := by
  induction y with
  | nil => rfl
  | cons b bs ih => rw [packHalf, laneBytes, remap_add_128, ih]

/-- The mixer puts track A in the high bytes and track B in the low ones (47_mixer R171). -/
theorem laneBytes_mixBlock {a b : Bytes} (h : a.length = b.length) :
    laneBytes .high (mixBlock a b) = a ∧ laneBytes .low (mixBlock a b) = b := by
  fun_induction mixBlock a b with
  | case1 x xs y ys ih =>
    obtain ⟨hhigh, hlow⟩ := ih (Nat.succ.inj h)
    simp only [laneBytes, remap_remap, hhigh, hlow, and_self]
  | case2 b => exact ⟨rfl, (List.eq_nil_of_length_eq_zero h.symm).symm⟩
  | case3 x xs => cases h

/-- Settles O46: both packings are undone sample by sample, as the remapping is its own inverse. -/
theorem lanesUndoPackings : Obligations.LanesUndoPackings :=
  ⟨laneBytes_packHalf, fun _ _ => laneBytes_mixBlock⟩

/-! ## The wrapped frame -/

/-- The part of a sequence between two others of known lengths. -/
theorem slice_append (pre mid post : Bytes) {a b : Nat} (ha : pre.length = a) (hb : a + mid.length = b) :
    slice (pre ++ mid ++ post) a b = mid := by
  subst ha hb
  simp [slice]

theorem slice_wrap_start (cfg : Config) (f : Bytes) : slice (wrap cfg f) 0 8 = cfg.startBytes := by
  have h := slice_append [] cfg.startBytes (f ++ le32 (ck f) ++ cfg.endBytes) (a := 0) (b := 8) rfl (by simp)
  simpa [wrap] using h

theorem slice_wrap_frame (cfg : Config) (f : Bytes) : slice (wrap cfg f) 8 (8 + f.length) = f := by
  have h := slice_append cfg.startBytes f (le32 (ck f) ++ cfg.endBytes) (startBytes_length cfg) rfl
  simpa [wrap] using h

theorem slice_wrap_checksum (cfg : Config) (f : Bytes) :
    slice (wrap cfg f) (8 + f.length) (12 + f.length) = le32 (ck f) :=
  slice_append (cfg.startBytes ++ f) (le32 (ck f)) cfg.endBytes (by simp) (by simp; omega)

theorem slice_wrap_end (cfg : Config) (f : Bytes) :
    slice (wrap cfg f) (12 + f.length) (24 + f.length) = cfg.endBytes := by
  have h := slice_append (cfg.startBytes ++ f ++ le32 (ck f)) cfg.endBytes [] (a := 12 + f.length) (b := 24 + f.length)
    (by simp; omega) (by simp; omega)
  simpa [wrap] using h

/-- The slot is `1024 * BPS_T` bytes, or the wrapped frame where that is longer (45_wrapper R150, R154). -/
theorem slotOf_eq (cfg : Config) (e : Enc) (f : Bytes) :
    slotOf cfg e f = wrap cfg f ++ zeros (1024 * trackBps e - (f.length + 24)) := by
  rw [slotOf, wrap_length, slotBytes, aacBlockSamples]

theorem trackBps_full {e : Enc} (h : e.cfgMode = 1#2) : trackBps e = 2 * e.cfgNch.toNat := if_pos h

theorem trackBps_half_or_mix {e : Enc} (h : e.cfgMode = 2#2 ∨ e.cfgMode = 3#2) : trackBps e = e.cfgNch.toNat := by
  refine if_neg fun hfull => ?_
  rw [hfull] at h
  revert h
  decide

theorem pack_half (cfg : Config) (y : Bytes) : pack cfg 2#2 y = packHalf cfg.halfFill y := rfl

/-- Packing changes nothing in Full and Mix mode (45_wrapper R155, R159). -/
theorem pack_of_not_half (cfg : Config) {mode : BitVec 2} (h : mode ≠ 2#2) (y : Bytes) : pack cfg mode y = y := if_neg h

/-- Each byte plus 128 in the low byte of its sample, the fill in the high one (45_wrapper R156). -/
theorem packHalf_getElem? {fill x : Byte} {y : Bytes} {k : Nat} (h : y[k]? = some x) :
    (packHalf fill y)[2 * k]? = some (x + 128#8) ∧ (packHalf fill y)[2 * k + 1]? = some fill := by
  induction y generalizing k with
  | nil => cases h
  | cons b bs ih =>
    cases k with
    | zero =>
      obtain rfl := Option.some.inj h
      exact ⟨rfl, rfl⟩
    | succ k => exact ih h

/-- Settles O48, part by part: the slices of the wrapped frame, its slot, the packing. -/
theorem wrappedFrameLayout : Obligations.WrappedFrameLayout := by
  intro cfg f
  refine ⟨wrap_length cfg f, slice_wrap_start cfg f, slice_wrap_frame cfg f, ?_, slice_wrap_end cfg f,
    fun e => ⟨slotOf_eq cfg e f, trackBps_full, trackBps_half_or_mix⟩, fun y => ?_⟩
  · rw [slice_wrap_checksum, leNat_le32]
  · rw [pack_half]
    exact ⟨pack_of_not_half cfg (by decide) y, pack_of_not_half cfg (by decide) y, packHalf_length _ y,
      fun k x => packHalf_getElem?⟩

end Sys2Proof.Machine
end

section
/-! The ADTS header (41_adts): each field of R91 lies within one byte or is cut at the byte boundaries, and either way
its value is the byte arithmetic of R92; then the sample-rate lookup of R93. -/

namespace Sys2Proof.Machine

/-! ## Fields and bytes -/

/-- The 8 bits at `k + 8` stand in front of the last byte. -/
theorem extractLsb'_append_byte {n : Nat} (x : BitVec n) (b : Byte) (k : Nat) :
    (x ++ b).extractLsb' (k + 8) 8 = x.extractLsb' k 8 :=
  BitVec.extractLsb'_append_eq_of_le (Nat.le_add_left 8 k)

/-- Byte `k` of a header is its stream bits from `8 * k` on (41_adts R91); byte 0, which takes part in no field, is left
out. -/
theorem streamField_headerOfBytes {h : BitVec 56} {h0 h1 h2 h3 h4 h5 h6 : Byte}
    (hbytes : headerOfBytes [h0, h1, h2, h3, h4, h5, h6] = h) :
    streamField h 8 8 = h1 ∧ streamField h 16 8 = h2 ∧ streamField h 24 8 = h3 ∧ streamField h 32 8 = h4 ∧
      streamField h 40 8 = h5 ∧ streamField h 48 8 = h6 := by
  rw [← hbytes, headerOfBytes_append]
  simp only [streamField, Nat.reduceSub, extractLsb'_append_byte, BitVec.extractLsb'_append_eq_right, and_self]

/-- A field within one byte is cut out of that byte. -/
theorem streamField_within_byte (h : BitVec 56) {first p w : Nat} (hw : p + w ≤ 8) (hfirst : first + 8 ≤ 56) :
    streamField h (first + p) w = (streamField h first 8).extractLsb' (8 - p - w) w := by
  ext i hi
  simp only [streamField, BitVec.getElem_extractLsb', BitVec.getLsbD_extractLsb']
  rw [decide_eq_true (by omega : 8 - p - w + i < 8), Bool.true_and]
  congr 1
  omega

/-- Its value: shift out what follows it, mask what stands before it. -/
theorem streamField_toNat_of_byte {h : BitVec 56} {b : Byte} {first : Nat} (hbyte : streamField h first 8 = b)
    (p w : Nat) (hw : p + w ≤ 8 := by decide) (hfirst : first + 8 ≤ 56 := by decide) :
    (streamField h (first + p) w).toNat = (b.toNat >>> (8 - p - w)) &&& (2 ^ w - 1) := by
  rw [streamField_within_byte h hw hfirst, hbyte, BitVec.extractLsb'_toNat, Nat.and_two_pow_sub_one_eq_mod]

/-- A field at the head of a byte needs no mask. -/
theorem streamField_toNat_of_byte_head {h : BitVec 56} {b : Byte} {first : Nat} (hbyte : streamField h first 8 = b)
    (w : Nat) (hw : w ≤ 8 := by decide) (hfirst : first + 8 ≤ 56 := by decide) :
    (streamField h first w).toNat = b.toNat >>> (8 - w) := by
  have hlt : b.toNat >>> (8 - w) < 2 ^ w := by
    have hshift := BitVec.toNat_ushiftRight_lt b (8 - w) (by omega)
    rwa [show 8 - (8 - w) = w by omega] at hshift
  calc (streamField h (first + 0) w).toNat
      = b.toNat >>> (8 - w) &&& (2 ^ w - 1) := streamField_toNat_of_byte hbyte 0 w (by omega) hfirst
    _ = b.toNat >>> (8 - w) := by rw [Nat.and_two_pow_sub_one_eq_mod, Nat.mod_eq_of_lt hlt]

/-- A field cut in two: the first part shifted up past the second. -/
theorem streamField_toNat_add (h : BitVec 56) (first m n : Nat) (hend : first + m + n ≤ 56 := by decide) :
    (streamField h first (m + n)).toNat =
      (streamField h first m).toNat <<< n ||| (streamField h (first + m) n).toNat := by
  unfold streamField
  rw [← BitVec.toNat_append, BitVec.extractLsb'_append_extractLsb'_eq_extractLsb' (by omega),
    show 56 - first - (m + n) = 56 - (first + m) - n by omega]

/-- A field is the word of its width with its value. -/
theorem eq_ofNat_of_toNat_eq {w : Nat} {x : BitVec w} {n : Nat} (h : x.toNat = n) : x = BitVec.ofNat w n := by
  rw [← h, BitVec.ofNat_toNat, BitVec.setWidth_eq]

/-! ## The fields across byte boundaries -/

/-- 41_adts R92, `channel_count`: the last bit of byte 2 and the first two of byte 3. -/
theorem channelCountOf_toNat {h : BitVec 56} {h2 h3 : Byte} (hb2 : streamField h 16 8 = h2)
    (hb3 : streamField h 24 8 = h3) :
    (channelCountOf h).toNat = ((h2.toNat &&& 1) <<< 2) ||| (h3.toNat >>> 6) :=
  calc (streamField h 23 (1 + 2)).toNat
      = (streamField h 23 1).toNat <<< 2 ||| (streamField h 24 2).toNat := streamField_toNat_add h 23 1 2
    _ = ((h2.toNat &&& 1) <<< 2) ||| (h3.toNat >>> 6) := by
      rw [streamField_toNat_of_byte hb2 7 1, streamField_toNat_of_byte_head hb3 2]
      rfl

/-- 41_adts R92, `frame_length`: the last two bits of byte 3, all of byte 4, the first three bits of byte 5. -/
theorem frameLengthOf_toNat {h : BitVec 56} {h3 h4 h5 : Byte} (hb3 : streamField h 24 8 = h3)
    (hb4 : streamField h 32 8 = h4) (hb5 : streamField h 40 8 = h5) :
    (frameLengthOf h).toNat = ((h3.toNat &&& 3) <<< 11) ||| (h4.toNat <<< 3) ||| (h5.toNat >>> 5) :=
  calc (streamField h 30 (2 + 8 + 3)).toNat
      = (streamField h 30 (2 + 8)).toNat <<< 3 ||| (streamField h 40 3).toNat := streamField_toNat_add h 30 (2 + 8) 3
    _ = ((streamField h 30 2).toNat <<< 8 ||| (streamField h 32 8).toNat) <<< 3 ||| (streamField h 40 3).toNat := by
        rw [streamField_toNat_add h 30 2 8]
    _ = ((h3.toNat &&& 3) <<< 11) ||| (h4.toNat <<< 3) ||| (h5.toNat >>> 5) := by
      rw [streamField_toNat_of_byte hb3 6 2, hb4, streamField_toNat_of_byte_head hb5 3, Nat.shiftLeft_or_distrib,
        ← Nat.shiftLeft_add]
      rfl

/-- 41_adts R92, `buffer_fullness`: the last five bits of byte 5 and the first six of byte 6. -/
theorem bufferFullness_toNat {h : BitVec 56} {h5 h6 : Byte} (hb5 : streamField h 40 8 = h5)
    (hb6 : streamField h 48 8 = h6) :
    (streamField h 43 11).toNat = ((h5.toNat &&& 0x1F) <<< 6) ||| (h6.toNat >>> 2) :=
  calc (streamField h 43 (5 + 6)).toNat
      = (streamField h 43 5).toNat <<< 6 ||| (streamField h 48 6).toNat := streamField_toNat_add h 43 5 6
    _ = ((h5.toNat &&& 0x1F) <<< 6) ||| (h6.toNat >>> 2) := by
      rw [streamField_toNat_of_byte hb5 3 5, streamField_toNat_of_byte_head hb6 6]
      rfl

/-! ## The header and the lookup -/

/-- 41_adts R92 follows from R91, field by field. -/
theorem parse_headerOfBytes (cfg : Config) (h0 h1 h2 h3 h4 h5 h6 : Byte) :
    parse cfg (headerOfBytes [h0, h1, h2, h3, h4, h5, h6]) = parseByteArithmetic cfg h0 h1 h2 h3 h4 h5 h6 := by
  generalize hbytes : headerOfBytes [h0, h1, h2, h3, h4, h5, h6] = h
  obtain ⟨hb1, hb2, hb3, hb4, hb5, hb6⟩ := streamField_headerOfBytes hbytes
  rw [parse,
    eq_ofNat_of_toNat_eq (streamField_toNat_of_byte hb1 4 1),
    eq_ofNat_of_toNat_eq (streamField_toNat_of_byte hb1 7 1),
    eq_ofNat_of_toNat_eq (streamField_toNat_of_byte_head hb2 2),
    eq_ofNat_of_toNat_eq (streamField_toNat_of_byte hb2 2 4),
    eq_ofNat_of_toNat_eq (streamField_toNat_of_byte hb2 6 1),
    eq_ofNat_of_toNat_eq (channelCountOf_toNat hb2 hb3),
    eq_ofNat_of_toNat_eq (streamField_toNat_of_byte hb3 2 1),
    eq_ofNat_of_toNat_eq (streamField_toNat_of_byte hb3 3 1),
    eq_ofNat_of_toNat_eq (streamField_toNat_of_byte hb3 4 1),
    eq_ofNat_of_toNat_eq (streamField_toNat_of_byte hb3 5 1),
    eq_ofNat_of_toNat_eq (frameLengthOf_toNat hb3 hb4 hb5),
    eq_ofNat_of_toNat_eq (bufferFullness_toNat hb5 hb6),
    eq_ofNat_of_toNat_eq (streamField_toNat_of_byte hb6 6 2)]
  rfl

/-- 41_adts R93: the thirteen entries of the table. -/
theorem sampleRateOf_of_lt (cfg : Config) {i : BitVec 4} (h : i.toNat < 13) :
    sampleRateOf cfg i = cfg.srTable[i.toNat]'h := by
  have hlen : i.toNat < cfg.srTable.toList.length := cfg.srTable.length_toList.symm ▸ h
  rw [sampleRateOf, List.getD_eq_getElem _ _ hlen]
  rfl

/-- 41_adts R93: the indices above the table. -/
theorem sampleRateOf_of_ge (cfg : Config) {i : BitVec 4} (h : 13 ≤ i.toNat) : sampleRateOf cfg i = 0 :=
  List.getD_eq_default _ _ (cfg.srTable.length_toList.symm ▸ h)

/-- Settles O44: the layouts agree field by field, and the lookup is split at the end of the table. -/
theorem headerFieldsByByteArithmetic : Obligations.HeaderFieldsByByteArithmetic :=
  ⟨parse_headerOfBytes, fun cfg _ => sampleRateOf_of_lt cfg, fun cfg _ => sampleRateOf_of_ge cfg⟩

end Sys2Proof.Machine
end

section
/-! The search and the first append of a push: what `find` answers in terms of occurrences (42_buffer R108), and what a
push does that `BUF_CAP` does not let in (42_buffer R101, 47_mixer R170, 48_commands R196). -/

namespace Sys2Proof.Machine

/-! ## The search -/

/-- A non-empty pattern occurs where the haystack has bytes left and they begin with it. -/
theorem occursAt_iff {h p : Bytes} {i : Nat} (hp : p ≠ []) : OccursAt p h i ↔ i < h.length ∧ p <+: h.drop i := by
  have hpos : 0 < p.length := List.length_pos_iff.2 hp
  constructor
  · rintro ⟨hfits, htake⟩
    exact ⟨by omega, List.prefix_iff_eq_take.2 htake.symm⟩
  · rintro ⟨_, hpre⟩
    have hlen := hpre.length_le
    rw [List.length_drop] at hlen
    exact ⟨by omega, (List.prefix_iff_eq_take.1 hpre).symm⟩

/-- What `find` finds is the least occurrence from `start` on (42_buffer R108). -/
theorem find_least {h p : Bytes} {start i : Nat} (hp : p ≠ []) (hfind : find h p start = some i) :
    start ≤ i ∧ OccursAt p h i ∧ ∀ j, start ≤ j → j < i → ¬ OccursAt p h j := by
  obtain ⟨hstart, hpre, hlt, hleast⟩ := find_some hfind
  exact ⟨hstart, (occursAt_iff hp).2 ⟨hlt, hpre⟩, fun j hj hji hocc => hleast j hj hji ((occursAt_iff hp).1 hocc).2⟩

/-- `find` misses no occurrence: `NONE` says that there is none from `start` on (42_buffer R108). -/
theorem find_eq_none_iff {h p : Bytes} {start : Nat} (hp : p ≠ []) :
    find h p start = none ↔ ∀ j, start ≤ j → ¬ OccursAt p h j := by
  constructor
  · intro hfind j hj hocc
    obtain ⟨hlt, hpre⟩ := (occursAt_iff hp).1 hocc
    exact find_none hfind j hj hlt hpre
  · intro hnowhere
    cases hfind : find h p start with
    | none => rfl
    | some i =>
      obtain ⟨hstart, hocc, _⟩ := find_least hp hfind
      exact absurd hocc (hnowhere i hstart)

/-- The least occurrence is the one `find` answers: of two least ones neither lies below the other (42_buffer R108). -/
theorem find_eq_some_iff {h p : Bytes} {start i : Nat} (hp : p ≠ []) :
    find h p start = some i ↔ start ≤ i ∧ OccursAt p h i ∧ ∀ j, start ≤ j → j < i → ¬ OccursAt p h j := by
  refine ⟨find_least hp, ?_⟩
  rintro ⟨hstart, hocc, hleast⟩
  cases hfind : find h p start with
  | none => exact absurd hocc ((find_eq_none_iff hp).1 hfind i hstart)
  | some k =>
    obtain ⟨hstart', hocc', hleast'⟩ := find_least hp hfind
    have hki : ¬ k < i := fun hlt => hleast k hstart' hlt hocc'
    have hik : ¬ i < k := fun hlt => hleast' i hstart hlt hocc
    rw [show k = i by omega]

/-- Settles O45: the least occurrence, and where there is none. -/
theorem findAnswersTheLeastOccurrence : Obligations.FindAnswersTheLeastOccurrence :=
  fun _ _ _ hp => ⟨fun _ => find_eq_some_iff hp, find_eq_none_iff hp⟩

/-! ## The first append of a push -/

/-- `APPEND` tests the capacity before it changes anything (42_buffer R101). -/
theorem append_overCap {cfg : Config} {b : Buffer} {s : Bytes}
    (hover : overCap cfg (b.window.length + s.length) = true) : b.append cfg s = .raised .bufOvf b := if_pos hover

/-- A lane has half as many bytes as the payload it is taken from (42_buffer R102). -/
theorem appendPacked_overCap {cfg : Config} {b : Buffer} {s : Bytes} (lane : Lane)
    (hover : overCap cfg (b.window.length + s.length / 2) = true) :
    b.appendPacked cfg lane s = .raised .bufOvf b := append_overCap (by rwa [laneBytes_length])

/-- In modes `Unknown` and `Full` the payload goes first to the raw buffer (43_detector R121, 48_commands R185). -/
theorem takePayload_raw_overCap {cfg : Config} {d : Dec} {p : Bytes} (hmode : d.mode = .unknown ∨ d.mode = .full)
    (hover : overCap cfg (d.raw.window.length + p.length) = true) : takePayload cfg d p = .raised .bufOvf d := by
  have hraw : d.onRaw (fun b => b.append cfg p) = .raised .bufOvf d := by rw [Dec.onRaw, append_overCap hover]; rfl
  rcases hmode with hmode | hmode
  · simp only [takePayload, hmode, detect, hraw, andThen_raised]
  · simp only [takePayload, hmode, hraw]

/-- In modes `Half` and `Mix` its low lane goes first to the low sub-track (48_commands R185). -/
theorem takePayload_lo_overCap {cfg : Config} {d : Dec} {p : Bytes} (hmode : d.mode = .half ∨ d.mode = .mix)
    (hover : overCap cfg (d.lo.window.length + p.length / 2) = true) : takePayload cfg d p = .raised .bufOvf d := by
  have hlo : d.onLo (fun b => b.appendPacked cfg .low p) = .raised .bufOvf d := by
    rw [Dec.onLo, appendPacked_overCap .low hover]; rfl
  rcases hmode with hmode | hmode
  · simp only [takePayload, hmode, hlo]
  · simp only [takePayload, hmode, hlo, andThen_raised]

/-- A payload that is not taken is not followed by an extraction, so the ports stay as well (48_commands R196). -/
theorem decPushBody_of_raised {cfg : Config} {d : DecIO} {p : Bytes} {f : UnitFault}
    (hraised : takePayload cfg d.dec p = .raised f d.dec) : decPushBody cfg p d = .raised f d := by
  rw [decPushBody, hraised]; rfl

/-- A payload that the accumulator does not take starts no round of the feed loop (45_wrapper R151). -/
theorem encFeed_overCap {cfg : Config} {io : EncIO} {p : Bytes}
    (hover : overCap cfg (io.enc.acc.window.length + p.length) = true) : encFeed cfg io p = .raised .bufOvf io := by
  rw [encFeed, EncIO.onAcc, append_overCap hover]; rfl

/-- `QPUSH` above the capacity, to either queue (47_mixer R170). -/
theorem qpush_overCap {cfg : Config} {q : QueueName} {p : Bytes} {m : MixIO}
    (hover : overCap cfg ((m.mix.queue q).length + p.length) = true) : qpush cfg q p m = .raised .bufOvf m := by
  rcases qpush_cases cfg q p m with ⟨_, hraised⟩ | ⟨hfits, _⟩
  · exact hraised
  · rw [hover] at hfits
    contradiction

/-- Settles O24, buffer by buffer: the first append raises and nothing runs after it. -/
theorem pushPastCapacityChangesNothing : Obligations.PushPastCapacityChangesNothing := by
  intro cfg p
  refine ⟨?raw, ?lo, ?acc, ?qa, ?qb⟩
  case raw => exact fun d hmode hover => decPushBody_of_raised (takePayload_raw_overCap hmode hover)
  case lo => exact fun d hmode hover => decPushBody_of_raised (takePayload_lo_overCap hmode hover)
  case acc => exact fun io hover => encFeed_overCap hover
  case qa => exact fun m hover => qpush_overCap (q := .qa) hover
  case qb => exact fun m hover => qpush_overCap (q := .qb) hover

end Sys2Proof.Machine
end

section
/-! A push in mode `Unknown` (43_detector R121 to R125, 48_commands R185): what the detector decides where nothing
overflows, and why a decided push is a push of nothing in the state decided for. -/

namespace Sys2Proof.Machine

/-! ## A push of nothing -/

/-- `APPEND` of no bytes to a window within `BUF_CAP` (42_buffer R100, R101). -/
theorem append_nil_fits {cfg : Config} {b : Buffer} (h : overCap cfg b.window.length = false) :
    b.append cfg [] = .go b := by
  have hcount : b.inSamples.toNat + ([] : Bytes).length / b.bps.toNat < 2 ^ 64 := by simp [b.inSamples.isLt]
  rw [append_fits (by simpa using h) hcount]
  simp

/-- With the mode decided, taking no payload changes nothing where the active windows are within `BUF_CAP`
(48_commands R185). -/
theorem takePayload_nil {cfg : Config} {d : Dec} (hmode : d.mode ≠ .unknown)
    (hraw : d.mode = .full → overCap cfg d.raw.window.length = false)
    (hlo : d.mode = .half ∨ d.mode = .mix → overCap cfg d.lo.window.length = false)
    (hhi : d.mode = .mix → overCap cfg d.hi.window.length = false) : takePayload cfg d [] = .go d := by
  unfold takePayload Dec.onRaw Dec.onLo Dec.onHi Buffer.appendPacked
  cases hm : d.mode with
  | unknown => exact absurd hm hmode
  | full => simp [append_nil_fits (hraw hm), ← hm]
  | half => simp [laneBytes, append_nil_fits (hlo (.inl hm)), ← hm]
  | mix => simp [laneBytes, append_nil_fits (hlo (.inr hm)), append_nil_fits (hhi hm), ← hm]

/-! ## `DEC_PUSH` after its payload is taken -/

/-- While the unit is `Active` its push runs (48_commands R181). -/
theorem exec_decPush_active {s : State} (p : Bytes) (hactive : s.dec.phase = .active) :
    exec (.decPush p) s = .next (State.settle .dec (s.onDec (decPushBody Config.build p))) :=
  congrArg Host.Outcome.next (whenActive_active (u := .dec) hactive)

/-- A payload taken by an `Active` unit is followed by the extraction, which sees nothing but what was left (48_commands
R185). -/
theorem exec_decPush_of_taken {s : State} {p : Bytes} {x : Dec} (hactive : s.dec.phase = .active)
    (htaken : takePayload Config.build s.dec p = .go x) :
    exec (.decPush p) s = .next (State.settle .dec (({ s with dec := x }).onDec (extractAll Config.build))) := by
  have hbody : s.onDec (decPushBody Config.build p) = ({ s with dec := x }).onDec (extractAll Config.build) := by
    simp only [State.onDec, decPushBody, htaken, map_go, andThen_go]
  rw [exec_decPush_active p hactive, hbody]

/-- A payload that is not taken halts the unit as it was (48_commands R196, 60_exceptions R212). -/
theorem exec_decPush_of_raised {s : State} {p : Bytes} {f : UnitFault} (hactive : s.dec.phase = .active)
    (hraised : takePayload Config.build s.dec p = .raised f s.dec) :
    exec (.decPush p) s = .next { s with dec := { s.dec with phase := .halted, err := faultCode f } } := by
  rw [exec_decPush_active p hactive, State.onDec, decPushBody_of_raised hraised]
  rfl

/-- A push that takes its payload to `x` is a push of nothing in `x`, where `x` takes no payload as it is. -/
theorem exec_decPush_eq_nil {s : State} {p : Bytes} {x : Dec} (hactive : s.dec.phase = .active) (hx : x.phase = .active)
    (htaken : takePayload Config.build s.dec p = .go x) (hnil : takePayload Config.build x [] = .go x) :
    exec (.decPush p) s = exec (.decPush []) { s with dec := x } :=
  (exec_decPush_of_taken hactive htaken).trans (exec_decPush_of_taken (s := { s with dec := x }) hx hnil).symm

/-- With the mode still `Unknown` no track is active, so nothing is extracted (10_state R23, 43_detector R124). -/
theorem exec_decPush_of_undecided {s : State} {p : Bytes} {x : Dec} (hactive : s.dec.phase = .active)
    (htaken : takePayload Config.build s.dec p = .go x) (hx : x.mode = .unknown) :
    exec (.decPush p) s = .next { s with dec := x } := by
  rw [exec_decPush_of_taken hactive htaken, State.onDec, extractAll, DecIO.onTracks]
  simp only [hx]
  rfl

/-! ## The detector's decision -/

/-- `DEC` as the detector leaves it where the sub-tracks fit (43_detector R121); tied to the detector by
`takePayload_unknown`. -/
def decision (cfg : Config) (d : Dec) : Dec :=
  if showsStart cfg d.raw.window then { d with mode := .full }
  else if (find d.raw.window cfg.probeBytes 0).isSome then halfOf d
  else keepIfMix cfg (lanesOf d)

section Decision

variable {cfg : Config} {d : Dec}

/-- Step 1 (43_detector R121). -/
theorem decision_full (hstart : showsStart cfg d.raw.window = true) : decision cfg d = { d with mode := .full } :=
  if_pos hstart

/-- Step 2 (43_detector R122). -/
theorem decision_half (hstart : ¬ showsStart cfg d.raw.window = true)
    (hprobe : (find d.raw.window cfg.probeBytes 0).isSome = true) : decision cfg d = halfOf d := by
  rw [decision, if_neg hstart, if_pos hprobe]

/-- Step 3 (43_detector R123). -/
theorem decision_mix (hstart : ¬ showsStart cfg d.raw.window = true)
    (hprobe : ¬ (find d.raw.window cfg.probeBytes 0).isSome = true)
    (hlanes : showsStart cfg (laneBytes .low d.raw.window) = true ∧ showsStart cfg (laneBytes .high d.raw.window) = true) :
    decision cfg d = { lanesOf d with mode := .mix, raw := d.raw.clear } := by
  rw [decision, if_neg hstart, if_neg hprobe]
  exact keepIfMix_both (Bool.and_eq_true_iff.2 hlanes)

/-- Step 4 (43_detector R124). -/
theorem decision_undecided (hstart : ¬ showsStart cfg d.raw.window = true)
    (hprobe : ¬ (find d.raw.window cfg.probeBytes 0).isSome = true)
    (hlanes : ¬ (showsStart cfg (laneBytes .low d.raw.window) = true ∧
      showsStart cfg (laneBytes .high d.raw.window) = true)) :
    decision cfg d = { d with lo := d.lo.clear, hi := d.hi.clear } := by
  rw [decision, if_neg hstart, if_neg hprobe]
  exact keepIfMix_notBoth (Bool.eq_false_iff.2 (mt Bool.and_eq_true_iff.1 hlanes))

/-- A payload in mode `Unknown` that fits, with counts that fit: appended, then decided on (43_detector R121). -/
theorem takePayload_unknown {p : Bytes} (hunknown : d.mode = .unknown)
    (hcap : overCap cfg (d.raw.fed p).window.length = false)
    (hin : d.raw.inSamples.toNat + p.length / d.raw.bps.toNat < 2 ^ 64)
    (hlo : (d.raw.fed p).window.length / 2 / d.lo.bps.toNat < 2 ^ 64)
    (hhi : (d.raw.fed p).window.length / 2 / d.hi.bps.toNat < 2 ^ 64) :
    takePayload cfg d p = .go (decision cfg { d with raw := d.raw.fed p }) := by
  have happend : d.raw.append cfg p = .go (d.raw.fed p) := append_fits (by simpa [Buffer.fed] using hcap) hin
  have hhalf : overCap cfg ((d.raw.fed p).window.length / 2) = false := overCap_mono (Nat.div_le_self _ _) hcap
  calc takePayload cfg d p
    _ = detect cfg d p := by simp only [takePayload, hunknown]
    _ = classify cfg { d with raw := d.raw.fed p } := by simp only [detect, Dec.onRaw, happend, map_go, andThen_go]
    _ = .go (decision cfg { d with raw := d.raw.fed p }) := classify_fits hhalf hlo hhi

end Decision

/-- Settles O32: the capacity test, then the detector's four steps in their order; the decided steps end as a push of
nothing, the last one emits nothing. -/
theorem decPushDetectsTheFormat : Obligations.DecPushDetectsTheFormat := by
  rintro s p w d hactive hunknown rfl rfl hin hlo hhi
  by_cases hover : overCap Config.build (s.dec.raw.window ++ p).length = true
  · rw [if_pos hover]
    exact exec_decPush_of_raised hactive (takePayload_raw_overCap (.inl hunknown) (List.length_append ▸ hover))
  rw [if_neg hover]
  have hcap : overCap Config.build (s.dec.raw.fed p).window.length = false := Bool.eq_false_iff.2 hover
  have hlane (lane : Lane) : overCap Config.build (laneBytes lane (s.dec.raw.fed p).window).length = false :=
    overCap_mono (by rw [laneBytes_length]; omega) hcap
  have htaken {x : Dec} (hx : decision Config.build { s.dec with raw := s.dec.raw.fed p } = x) :
      takePayload Config.build s.dec p = .go x := hx ▸ takePayload_unknown hunknown hcap hin hlo hhi
  split_ifs with hstart hprobe hlanes
  · exact exec_decPush_eq_nil hactive hactive (htaken (decision_full hstart))
      (takePayload_nil nofun (fun _ => hcap) nofun nofun)
  · exact exec_decPush_eq_nil hactive hactive (htaken (decision_half hstart hprobe))
      (takePayload_nil nofun nofun (fun _ => hlane .low) nofun)
  · exact exec_decPush_eq_nil hactive hactive (htaken (decision_mix hstart hprobe hlanes))
      (takePayload_nil nofun nofun (fun _ => hlane .low) (fun _ => hlane .high))
  · exact exec_decPush_of_undecided hactive (htaken (decision_undecided hstart hprobe hlanes)) hunknown

end Sys2Proof.Machine
end

section
/-! The checksum (44_extractor R130, R145): both halves fold a commutative operation over the words, so the order of the
words does not count, and a changed byte, which changes exactly one word, changes both. -/

namespace Sys2Proof.Machine

/-! ## The order of the words -/

theorem ckSum_perm {ws ws' : List (BitVec 16)} (h : ws.Perm ws') : ckSum ws = ckSum ws' := h.foldl_op_eq

theorem ckXor_perm {ws ws' : List (BitVec 16)} (h : ws.Perm ws') : ckXor ws = ckXor ws' := h.foldl_op_eq

/-- Settles O40: neither half depends on the order. -/
theorem checksumIgnoresWordOrder : Obligations.ChecksumIgnoresWordOrder := by
  intro b b' h
  rw [ck, ck, ckSum_perm h, ckXor_perm h]

/-! ## A changed byte -/

theorem ckSum_cons (w : BitVec 16) (ws : List (BitVec 16)) : ckSum (w :: ws) = w + ckSum ws := by
  rw [ckSum, List.foldl_cons, BitVec.add_comm, List.foldl_assoc]
  rfl

theorem ckXor_cons (w : BitVec 16) (ws : List (BitVec 16)) : ckXor (w :: ws) = w ^^^ ckXor ws := by
  rw [ckXor, List.foldl_cons, BitVec.xor_comm, List.foldl_assoc]
  rfl

/-- A changed word changes the sum: the other words are the same, whatever stands before and after it. -/
theorem ckSum_ne_of_word_ne {v v' : BitVec 16} (us ws : List (BitVec 16)) (h : v' ≠ v) :
    ckSum (us ++ v' :: ws) ≠ ckSum (us ++ v :: ws) := by
  rwa [ckSum_perm List.perm_middle, ckSum_perm List.perm_middle, ckSum_cons, ckSum_cons, Ne, BitVec.add_left_inj]

/-- A changed word changes the exclusive or. -/
theorem ckXor_ne_of_word_ne {v v' : BitVec 16} (us ws : List (BitVec 16)) (h : v' ≠ v) :
    ckXor (us ++ v' :: ws) ≠ ckXor (us ++ v :: ws) := by
  rwa [ckXor_perm List.perm_middle, ckXor_perm List.perm_middle, ckXor_cons, ckXor_cons, Ne, BitVec.xor_left_inj]

/-- A changed byte changes exactly one word: the low or the high byte of a pair, or the odd last byte (R130, R145). -/
theorem ckWords_set_of_ne {b : Bytes} {i : Nat} {x y : Byte} (hx : b[i]? = some x) (hne : y ≠ x) :
    ∃ us v v' ws, ckWords b = us ++ v :: ws ∧ ckWords (b.set i y) = us ++ v' :: ws ∧ v' ≠ v := by
  fun_induction ckWords b generalizing i with
  | case1 b0 b1 rest ih =>
    match i with
    | 0 =>
      obtain rfl : b0 = x := by simpa using hx
      exact ⟨[], b1 ++ b0, b1 ++ y, ckWords rest, rfl, rfl, mt (BitVec.append_right_inj b1).1 hne⟩
    | 1 =>
      obtain rfl : b1 = x := by simpa using hx
      exact ⟨[], b1 ++ b0, y ++ b0, ckWords rest, rfl, rfl, mt (BitVec.append_left_inj b0).1 hne⟩
    | j + 2 =>
      obtain ⟨us, v, v', ws, hold, hnew, hv⟩ := ih (i := j) (by simpa using hx)
      exact ⟨(b1 ++ b0) :: us, v, v', ws, by rw [hold]; rfl, by
        rw [List.set_cons_succ, List.set_cons_succ, ckWords, hnew]; rfl, hv⟩
  | case2 b0 =>
    obtain ⟨rfl, rfl⟩ : i = 0 ∧ b0 = x := by simpa [List.getElem?_singleton] using hx
    exact ⟨[], b0.setWidth 16, y.setWidth 16, [], rfl, rfl, by bv_omega⟩
  | case3 => simp at hx

/-- A flipped bit changes its byte. -/
theorem xor_bit_ne {k : Nat} (x : Byte) (hk : k < 8) : x ^^^ (1#8 <<< k) ≠ x := by
  have hbit : 1#8 <<< k ≠ 0#8 := by interval_cases k <;> decide
  intro h
  exact hbit ((BitVec.xor_right_inj x).1 (h.trans BitVec.xor_zero.symm))

/-- Settles O39: the flip changes one byte, the byte one word, and the word both halves. -/
theorem oneBitFlipChangesBothChecksums : Obligations.OneBitFlipChangesBothChecksums := by
  intro b i k x hx hk
  obtain ⟨us, v, v', ws, hold, hnew, hne⟩ := ckWords_set_of_ne hx (xor_bit_ne x hk)
  rw [hold, hnew]
  exact ⟨ckSum_ne_of_word_ne us ws hne, ckXor_ne_of_word_ne us ws hne⟩

end Sys2Proof.Machine
end

section
/-! The drift loop (44_extractor R139, 46_silence R165 to R167): `silenceCount` is the only count that reaches the goal and
is needed up to its last frame, and that is the count of frames the loop makes. -/

namespace Sys2Proof.Machine

/-! ## The count -/

theorem goal_le_of_silenceCount (out : Nat) (goal : Int) : goal ≤ out + 1024 * silenceCount out goal + 512 := by
  unfold silenceCount
  omega

theorem lt_goal_of_lt_silenceCount {out j : Nat} {goal : Int} (h : j < silenceCount out goal) :
    (out + 1024 * j + 512 : Int) < goal := by
  unfold silenceCount at h
  omega

/-- The loop never brings a track ahead that was not (R139: `OUT_SAMPLES <= fs + 512` after the loop). -/
theorem silenceCount_not_ahead {out : Nat} {goal : Int} (h : (out : Int) ≤ goal + 512) :
    (out + 1024 * silenceCount out goal : Int) ≤ goal + 512 := by
  unfold silenceCount
  omega

/-- A count that reaches the goal, each of its frames still due when it is made, is that of the formula. -/
theorem eq_silenceCount {out k : Nat} {goal : Int} (hreach : goal ≤ out + 1024 * k + 512)
    (hneeded : ∀ j < k, (out + 1024 * j + 512 : Int) < goal) : k = silenceCount out goal := by
  apply Nat.le_antisymm
  · by_contra hmore
    have := hneeded _ (not_le.1 hmore)
    have := goal_le_of_silenceCount out goal
    omega
  · by_contra hfewer
    have := lt_goal_of_lt_silenceCount (not_le.1 hfewer)
    omega

/-! ## The loop -/

/-- The drift loop where the counter fits: it cannot raise, and what it makes is the least count (R139). -/
theorem driftTo_fits {cfg : Config} {goal : Int} {t : Track} {n : Nat}
    (hn : n = silenceCount t.buf.outSamples.toNat goal) (hfits : t.buf.outSamples.toNat + 1024 * n < 2 ^ 64) :
    driftTo cfg goal t = .go ⟨t.buf.emitted n, t.port ++ templates cfg (channelCountOf t.buf.hdr) n⟩ := by
  subst hn
  cases hdrift : driftTo cfg goal t with
  | go t' =>
    obtain ⟨k, out', rfl, hout, hreach, hneeded⟩ := driftTo_go hdrift
    obtain rfl := eq_silenceCount (by omega) hneeded
    rw [Buffer.emitted, ← hout, BitVec.ofNat_toNat, BitVec.setWidth_eq]
    rfl
  | raised f t' =>
    obtain ⟨_, _, k, out', _, hout, hdue, hover⟩ := driftTo_raised hdrift
    have := goal_le_of_silenceCount t.buf.outSamples.toNat goal
    omega

/-- Settles O41: the count, its three bounds, and the template table by computation. -/
theorem driftLoopMakesTheLeastSilence : Obligations.DriftLoopMakesTheLeastSilence := by
  refine ⟨?loop, ?bounds, ?repeated, ?table⟩
  case loop => exact fun cfg goal t n => driftTo_fits
  case bounds =>
    exact fun out goal => ⟨goal_le_of_silenceCount out goal, fun j => lt_goal_of_lt_silenceCount, silenceCount_not_ahead⟩
  case repeated => exact fun cfg c n => rfl
  case table =>
    intro cfg
    refine ⟨rfl, rfl, rfl, rfl, ?_⟩
    simp [template]

end Sys2Proof.Machine
end

section
/-! One extraction attempt (44_extractor R131 to R140): where the resynchronisation scan ends, what the tests answer in
terms of the window, and from these what an attempt does with a good frame, a bad one and none; then the decode loop
(R141). -/

namespace Sys2Proof.Machine

/-! ## The resynchronisation scan -/

/-- Two occurrences of a pattern without a border do not overlap: what they shared would be a border (00_scope R4 (b)). -/
theorem occursAt_apart {p h : Bytes} {i j : Nat} (hborder : noBorder p) (hi : OccursAt p h i) (hj : OccursAt p h j)
    (hij : i < j) : i + p.length ≤ j := by
  by_contra hover
  obtain ⟨d, rfl⟩ := Nat.exists_eq_add_of_lt hij
  have hprefix : p.take (p.length - (d + 1)) = (h.drop (i + d + 1)).take (p.length - (d + 1)) :=
    calc p.take (p.length - (d + 1))
      _ = ((h.drop (i + d + 1)).take p.length).take (p.length - (d + 1)) := congrArg (List.take _) hj.2.symm
      _ = _ := by rw [List.take_take, Nat.min_eq_left (Nat.sub_le _ _)]
  have hsuffix : p.drop (d + 1) = (h.drop (i + d + 1)).take (p.length - (d + 1)) :=
    calc p.drop (d + 1)
      _ = ((h.drop i).take p.length).drop (d + 1) := congrArg (List.drop _) hi.2.symm
      _ = _ := by rw [List.drop_take, List.drop_drop, ← Nat.add_assoc]
  refine hborder (p.length - (d + 1)) (by omega) (by omega) ?_
  rw [show p.length - (p.length - (d + 1)) = d + 1 by omega, hprefix, hsuffix]

theorem startBytes_ne_nil (cfg : Config) : cfg.startBytes ≠ [] :=
  List.ne_nil_of_length_pos (by rw [startBytes_length]; decide)

/-- With rounds enough to reach `pf`, the scan ends at the latest start-marker whole before `pf`, and the header it has
recorded last is that marker's (R134). -/
theorem resyncRounds_latest {cfg : Config} {w : Bytes} {pf fuel : Nat} {m : Marked} (hborder : noBorder cfg.startBytes)
    (hfuel : pf ≤ m.ps + fuel) (hocc : OccursAt cfg.startBytes (w.take pf) m.ps)
    (hhdr : m.buf.hdr = headerOfBytes (headerAt w m.ps)) :
    OccursAt cfg.startBytes (w.take pf) (resyncRounds cfg w pf fuel m).ps ∧
      (resyncRounds cfg w pf fuel m).buf.hdr = headerOfBytes (headerAt w (resyncRounds cfg w pf fuel m).ps) ∧
      ∀ q, OccursAt cfg.startBytes (w.take pf) q → q ≤ (resyncRounds cfg w pf fuel m).ps := by
  induction fuel generalizing m with
  | zero =>
    have hwhole := hocc.1
    rw [startBytes_length, List.length_take] at hwhole
    omega
  | succ fuel ih =>
    rw [resyncRounds]
    cases hfind : find (w.take pf) cfg.startBytes (m.ps + 8) with
    | none =>
      refine ⟨hocc, hhdr, fun q hq => ?_⟩
      by_contra hlater
      have hapart := occursAt_apart hborder hocc hq (not_le.1 hlater)
      rw [startBytes_length] at hapart
      exact (find_eq_none_iff (startBytes_ne_nil cfg)).1 hfind q hapart hq
    | some q =>
      obtain ⟨hstart, hq, _⟩ := find_least (startBytes_ne_nil cfg) hfind
      exact ih (m := ⟨q, _⟩) (by simp only; omega) hq rfl

/-- Settles O36: `pf` rounds are enough from any start-marker, and only `HDR` changes. -/
theorem resyncEndsAtTheLatestMarker : Obligations.ResyncEndsAtTheLatestMarker := by
  intro cfg w b ps pf hborder hpf hocc hhdr
  obtain ⟨hforward, _, hbuf⟩ := resyncRounds_spec cfg w pf pf ⟨ps, b⟩ (by omega)
  obtain ⟨hend, hend_hdr, hlatest⟩ :=
    resyncRounds_latest (m := ⟨ps, b⟩) hborder (Nat.le_add_left pf ps) hocc hhdr
  refine ⟨(resyncRounds cfg w pf pf ⟨ps, b⟩).ps, ?_, hforward, hend, hlatest⟩
  calc resync cfg w pf ⟨ps, b⟩
    _ = ⟨(resyncRounds cfg w pf pf ⟨ps, b⟩).ps, (resyncRounds cfg w pf pf ⟨ps, b⟩).buf⟩ := rfl
    _ = _ := by rw [hbuf, hend_hdr]; rfl

/-! ## The tests of a frame -/

/-- The block runs up to the checksum field (R135). -/
theorem blockOf_eq_slice {w : Bytes} {ps pf : Nat} (h : ps + 12 ≤ pf) : blockOf w ps pf = slice w (ps + 8) (pf - 4) := by
  rw [blockOf, blockSize, show ps + 8 + ((pf : Int) - ps - 8 - 4).toNat = pf - 4 by omega]

/-- The frame test in terms of the window: no room for a block, a wrong checksum, or a wrong length (R135, R136). -/
theorem corrupt_iff {w : Bytes} {hdr : BitVec 56} {ps pf : Nat} :
    corrupt w hdr ps pf = true ↔
      pf < ps + 12 ∨ leNat (slice w (pf - 4) pf) ≠ (ck (slice w (ps + 8) (pf - 4))).toNat ∨
        pf ≠ ps + 12 + (frameLengthOf hdr).toNat := by
  unfold corrupt
  by_cases hroom : pf < ps + 12
  · have hneg : blockSize ps pf < 0 := by unfold blockSize; omega
    simp [hneg, hroom]
  · have hnonneg : ¬ blockSize ps pf < 0 := by unfold blockSize; omega
    have hlen : blockSize ps pf = ((frameLengthOf hdr).toNat : Int) ↔ pf = ps + 12 + (frameLengthOf hdr).toNat := by
      unfold blockSize; omega
    rw [if_neg hnonneg, blockOf_eq_slice (not_lt.1 hroom), storedCk, Bool.or_eq_true, decide_eq_true_iff,
      decide_eq_true_iff, Ne, Ne, hlen, eq_comm (a := (ck _).toNat)]
    exact (or_iff_right hroom).symm

/-- The stale test is strict: a frame exactly 512 samples late is kept (R138). -/
theorem stale_iff {b : Buffer} {ps : Nat} : stale b ps = true ↔ frameStart b ps + 512 < b.outSamples.toNat :=
  decide_eq_true_iff

/-- A corrupt or a stale frame is consumed, and that is all (R136, R138). -/
theorem judgeFrame_dropped {cfg : Config} {t : Track} {ps pf : Nat}
    (h : corrupt t.buf.window t.buf.hdr ps pf = true ∨ stale t.buf ps = true) :
    judgeFrame cfg t ps pf = .produced (t.consume (pf + 12)) := by
  rw [judgeFrame]
  split_ifs with hcorrupt hstale
  · rfl
  · rfl
  · exact absurd h (not_or.2 ⟨hcorrupt, hstale⟩)

/-- Advancing past `n` frames where the counter fits (10_state R19). -/
theorem emitted_advance {b : Buffer} {n : Nat} (hfits : b.outSamples.toNat + 1024 * (n + 1) < 2 ^ 64) :
    (b.emitted n).advance = .go (b.emitted (n + 1)) := by
  have hout : (b.emitted n).outSamples.toNat = b.outSamples.toNat + 1024 * n := by
    rw [Buffer.emitted, BitVec.toNat_ofNat, Nat.mod_eq_of_lt (by omega)]
  have hnext : (b.emitted n).outSamples.toNat + 1024 = b.outSamples.toNat + 1024 * (n + 1) := by
    rw [hout, Nat.mul_succ, Nat.add_assoc]
  have hroom : (b.emitted n).outSamples.toNat + 1024 < 2 ^ 64 := hnext.trans_lt hfits
  rw [advance_fits hroom, hnext]
  rfl

/-- Emission where the counter fits: the silence that is due, the frame, and the window consumed (R139, R140). -/
theorem emitFrame_fits {cfg : Config} {t : Track} {ps pf n : Nat}
    (hn : n = silenceCount t.buf.outSamples.toNat (frameStart t.buf ps))
    (hfits : t.buf.outSamples.toNat + 1024 * (n + 1) < 2 ^ 64) :
    emitFrame cfg t ps pf = .produced
      ⟨(t.buf.emitted (n + 1)).consume (pf + 12),
        t.port ++ templates cfg (channelCountOf t.buf.hdr) n ++ blockOf t.buf.window ps pf⟩ := by
  simp only [emitFrame, driftTo_fits hn (by omega), andThen_go, Track.advance, emit_buf, emitted_advance hfits, map_go]
  rfl

/-- A frame that passes both tests is emitted (R136, R138 to R140). -/
theorem judgeFrame_good {cfg : Config} {t : Track} {ps pf n : Nat} (hlen : pf = ps + 12 + (frameLengthOf t.buf.hdr).toNat)
    (hck : leNat (slice t.buf.window (pf - 4) pf) = (ck (slice t.buf.window (ps + 8) (pf - 4))).toNat)
    (hfresh : (t.buf.outSamples.toNat : Int) ≤ frameStart t.buf ps + 512)
    (hn : n = silenceCount t.buf.outSamples.toNat (frameStart t.buf ps))
    (hfits : t.buf.outSamples.toNat + 1024 * (n + 1) < 2 ^ 64) :
    judgeFrame cfg t ps pf = .produced
      ⟨(t.buf.emitted (n + 1)).consume (pf + 12),
        t.port ++ templates cfg (channelCountOf t.buf.hdr) n ++ slice t.buf.window (ps + 8) (pf - 4)⟩ := by
  have hroom : ps + 12 ≤ pf := by omega
  have hcorrupt : ¬ corrupt t.buf.window t.buf.hdr ps pf = true := by
    rw [corrupt_iff, not_or, not_or, not_not, not_not]
    exact ⟨not_lt.2 hroom, hck, hlen⟩
  have hstale : ¬ stale t.buf ps = true := mt stale_iff.1 (not_lt.2 hfresh)
  rw [judgeFrame, if_neg hcorrupt, if_neg hstale, emitFrame_fits hn hfits, blockOf_eq_slice hroom]

/-! ## One attempt -/

/-- An attempt with both markers in the window: the judgement at the marker where the scan ends (R134 to R140). -/
theorem extractOne_of_markers {cfg : Config} {t : Track} {m : Marked} {ps pf : Nat}
    (hstart : find t.buf.window cfg.startBytes 0 = some ps) (hend : find t.buf.window cfg.endBytes (ps + 15) = some pf)
    (hm : m = resync cfg t.buf.window pf ⟨ps, t.buf.recordHeader (headerAt t.buf.window ps)⟩) :
    extractOne cfg t = judgeFrame cfg ⟨{ t.buf with hdr := m.buf.hdr }, t.port⟩ m.ps pf := by
  have hafter := (find_some hend).1
  have hwhole := find_fits hend
  rcases extractOne_cases cfg t with
    ⟨hnone, _⟩ | ⟨ps', hps, ⟨hshort, _⟩ | ⟨_, hnone, _⟩ | ⟨_, pf', hpf, _, _, m', hm', hbuf, _, _, hresult⟩⟩
  · simp [hstart] at hnone
  · obtain rfl : ps = ps' := by simpa [hstart] using hps
    omega
  · obtain rfl : ps = ps' := by simpa [hstart] using hps
    simp [hend] at hnone
  · obtain rfl : ps = ps' := by simpa [hstart] using hps
    obtain rfl : pf = pf' := by simpa [hend] using hpf
    obtain rfl : m = m' := hm.trans hm'.symm
    rw [hresult, ← hbuf]

/-- An attempt that finds no end-marker records the header and waits (R133). -/
theorem extractOne_of_unclosed {cfg : Config} {t : Track} {ps : Nat} (hstart : find t.buf.window cfg.startBytes 0 = some ps)
    (hresident : ps + 15 ≤ t.buf.window.length) (hend : find t.buf.window cfg.endBytes (ps + 15) = none) :
    extractOne cfg t = .noFrame { t with buf := t.buf.recordHeader (headerAt t.buf.window ps) } := by
  simp [extractOne, hstart, hend, not_lt.2 hresident]

/-- Settles O35: without a start-marker or its header nothing changed, and without an end-marker the same header is
recorded again. -/
theorem noFrameIsAFixedPoint : Obligations.NoFrameIsAFixedPoint := by
  intro cfg t t' h
  rcases extractOne_cases cfg t with
    ⟨_, hresult⟩ | ⟨ps, hstart, ⟨_, hresult⟩ | ⟨hresident, hend, hresult⟩ | ⟨_, pf, _, _, _, m, _, _, _, _, hresult⟩⟩
  case inr.inr.inr => exact absurd (hresult ▸ h) ((judgeFrame_grows cfg _ m.ps pf).2.2 t')
  all_goals obtain rfl := Attempt.noFrame.inj (hresult.symm.trans h)
  · exact h
  · exact h
  · exact extractOne_of_unclosed (t := { t with buf := t.buf.recordHeader _ }) hstart hresident hend

/-- Settles O38: each of the four causes fails one of the two tests, at the marker where the scan ends. -/
theorem corruptOrStaleFrameIsDropped : Obligations.CorruptOrStaleFrameIsDropped := by
  rintro cfg t w m ps pf rfl hstart hend hm hcause
  refine (extractOne_of_markers hstart hend hm).trans (judgeFrame_dropped ?_)
  rw [corrupt_iff, stale_iff, or_assoc, or_assoc]
  exact hcause

/-- Settles O37: the judgement of a good frame, at the marker where the scan ends. -/
theorem goodFrameIsEmitted : Obligations.GoodFrameIsEmitted := by
  rintro cfg t w blk m ps pf n fs rfl hstart hend hm rfl hlen hck rfl hfresh hn hfits
  rw [extractOne_of_markers hstart hend hm,
    judgeFrame_good (t := ⟨{ t.buf with hdr := m.buf.hdr }, t.port⟩) hlen hck hfresh hn hfits, Buffer.emitted,
    Buffer.consume]

/-! ## The decode loop -/

theorem extractOne_shortens {cfg : Config} {t t1 : Track} (h : extractOne cfg t = .produced t1) :
    t1.buf.window.length < t.buf.window.length := by
  obtain ⟨n, hn, hle, hwindow⟩ := extractOne_produced h
  rw [hwindow, List.length_drop]
  omega

/-- Any two bounds above the window's length give the same loop: each `Produced` shortens the window, so neither bound is
reached (R141, R144, log 10). -/
theorem extractRounds_eq_of_lt {cfg : Config} {fuel fuel' : Nat} {t : Track} (hfuel : t.buf.window.length < fuel)
    (hfuel' : t.buf.window.length < fuel') : extractRounds cfg fuel t = extractRounds cfg fuel' t := by
  induction fuel generalizing fuel' t with
  | zero => omega
  | succ fuel ih =>
    obtain ⟨fuel', rfl⟩ : ∃ k, fuel' = k + 1 := ⟨fuel' - 1, by omega⟩
    rw [extractRounds, extractRounds]
    cases hattempt : extractOne cfg t with
    | produced t1 =>
      have hshorter := extractOne_shortens hattempt
      exact ih (by omega) (by omega)
    | noFrame t1 => rfl
    | raised f t1 => rfl

/-- Settles O34: after one attempt the rounds that are left are still enough for the window that is left. -/
theorem decodeLoopRunsToNoFrame : Obligations.DecodeLoopRunsToNoFrame := by
  intro cfg t
  conv_lhs => rw [extractTrack, extractRounds]
  cases hattempt : extractOne cfg t with
  | produced t1 => exact extractRounds_eq_of_lt (extractOne_shortens hattempt) (Nat.lt_succ_self _)
  | noFrame t1 => rfl
  | raised f t1 => rfl

end Sys2Proof.Machine
end

section
/-! The feed loop of an encoder (45_wrapper R151): one equation for each way a round can go, so that no proof counts
rounds; then what a push does that completes no frame. -/

namespace Sys2Proof.Machine

/-! ## The loop without its bound -/

/-- A round that goes on takes the frame's bytes off the window. -/
theorem feedFrame_shortens {cfg : Config} {io io' : EncIO} {len : Nat} (hpos : 0 < len)
    (hle : len ≤ io.enc.acc.window.length) (h : feedFrame cfg io len = .go io') :
    io'.enc.acc.window.length < io.enc.acc.window.length := by
  rcases feedFrame_cases cfg io len with ⟨x, _, hwindow, hgo⟩ | ⟨x, _, hraised⟩
  · obtain rfl := Flow.go.inj (hgo.symm.trans h)
    rw [encConsume_window, hwindow, List.length_drop]
    omega
  · simp [hraised] at h

/-- Any two bounds above the window's length give the same loop: each round that goes on shortens the window (70_reset
R245, log 10). -/
theorem feedRounds_eq_of_lt {cfg : Config} {fuel fuel' : Nat} {io : EncIO} (hfuel : io.enc.acc.window.length < fuel)
    (hfuel' : io.enc.acc.window.length < fuel') : feedRounds cfg fuel io = feedRounds cfg fuel' io := by
  induction fuel generalizing fuel' io with
  | zero => omega
  | succ fuel ih =>
    obtain ⟨fuel', rfl⟩ : ∃ k, fuel' = k + 1 := ⟨fuel' - 1, by omega⟩
    rw [feedRounds, feedRounds, show adtsLen = 7 from rfl]
    split_ifs with hshort hmalformed hincomplete
    · rfl
    · rfl
    · rfl
    · cases hframe : feedFrame cfg io.recordHead io.recordHead.headLength with
      | raised f x => rfl
      | go x =>
        have hshorter : x.enc.acc.window.length < io.enc.acc.window.length :=
          feedFrame_shortens (io := io.recordHead) (by omega) (not_lt.1 hincomplete) hframe
        exact ih (by omega) (by omega)

section Round

variable {cfg : Config} {io : EncIO}

/-- The loop as its rule writes it, with no bound on the rounds (45_wrapper R151). -/
theorem feedLoop_eq : feedLoop cfg io =
    if io.enc.acc.window.length < 7 then .go io
    else if io.recordHead.headLength < 7 then .raised .esMalformed io.recordHead
    else if io.enc.acc.window.length < io.recordHead.headLength then .go io.recordHead
    else (feedFrame cfg io.recordHead io.recordHead.headLength).andThen (feedLoop cfg) := by
  conv_lhs => rw [feedLoop, feedRounds, show adtsLen = 7 from rfl]
  refine if_congr Iff.rfl rfl (ite_congr rfl (fun _ => rfl) fun hlen => ite_congr rfl (fun _ => rfl) fun hwhole => ?_)
  cases hframe : feedFrame cfg io.recordHead io.recordHead.headLength with
  | raised f x => rfl
  | go x =>
    have hshorter : x.enc.acc.window.length < io.enc.acc.window.length :=
      feedFrame_shortens (io := io.recordHead) (by omega) (not_lt.1 hwhole) hframe
    exact feedRounds_eq_of_lt hshorter (Nat.lt_succ_self _)

/-- Below 7 bytes the loop ends at once. -/
theorem feedLoop_short (hshort : io.enc.acc.window.length < 7) : feedLoop cfg io = .go io := by
  rw [feedLoop_eq, if_pos hshort]

/-- A header that gives less than its own length (60_exceptions R213). -/
theorem feedLoop_malformed (hheader : 7 ≤ io.enc.acc.window.length) (hlen : io.recordHead.headLength < 7) :
    feedLoop cfg io = .raised .esMalformed io.recordHead := by
  rw [feedLoop_eq, if_neg (not_lt.2 hheader), if_pos hlen]

/-- A frame that is not whole yet waits, with its header recorded. -/
theorem feedLoop_incomplete (hheader : 7 ≤ io.enc.acc.window.length) (hlen : 7 ≤ io.recordHead.headLength)
    (hwait : io.enc.acc.window.length < io.recordHead.headLength) : feedLoop cfg io = .go io.recordHead := by
  rw [feedLoop_eq, if_neg (not_lt.2 hheader), if_neg (not_lt.2 hlen), if_pos hwait]

/-- A whole frame is wrapped, and the loop goes on with the rest. -/
theorem feedLoop_whole (hlen : 7 ≤ io.recordHead.headLength)
    (hwhole : io.recordHead.headLength ≤ io.enc.acc.window.length) :
    feedLoop cfg io = (feedFrame cfg io.recordHead io.recordHead.headLength).andThen (feedLoop cfg) := by
  rw [feedLoop_eq, if_neg (not_lt.2 (hlen.trans hwhole)), if_neg (not_lt.2 hlen), if_neg (not_lt.2 hwhole)]

/-- The loop records the header at the head itself, so recording it before changes nothing. -/
theorem feedLoop_recordHead (hheader : 7 ≤ io.enc.acc.window.length) :
    feedLoop cfg io.recordHead = feedLoop cfg io := by
  rw [feedLoop_eq, feedLoop_eq (io := io), recordHead_window, if_neg (not_lt.2 hheader), if_neg (not_lt.2 hheader)]
  rfl

end Round

/-! ## A push -/

/-- An encoder with a payload appended to its accumulator (42_buffer R100). -/
def EncIO.fed (io : EncIO) (p : Bytes) : EncIO := { io with enc := { io.enc with acc := io.enc.acc.fed p } }

@[simp] theorem encFed_eout (io : EncIO) (p : Bytes) : (io.fed p).eout = io.eout := rfl
@[simp] theorem encFed_window (io : EncIO) (p : Bytes) : (io.fed p).enc.acc.window = io.enc.acc.window ++ p := rfl

/-- A push that fits is the loop over the extended accumulator. -/
theorem encFeed_fits {cfg : Config} {io : EncIO} {p : Bytes}
    (hcap : overCap cfg (io.enc.acc.window.length + p.length) = false)
    (hin : io.enc.acc.inSamples.toNat + p.length / io.enc.acc.bps.toNat < 2 ^ 64) :
    encFeed cfg io p = feedLoop cfg (io.fed p) := by
  rw [encFeed, EncIO.onAcc, append_fits hcap hin]
  rfl

section Push

variable {s : State} {u : EncIndex} {p : Bytes}

/-- While the unit is `Active` its push runs (48_commands R181, R189). -/
theorem exec_encPush_active (p : Bytes) (hactive : (s.enc u).phase = .active) :
    exec (.encPush u p) s = .next (State.settle (.enc u) (s.onEnc u (fun io => encFeed Config.build io p))) :=
  congrArg Host.Outcome.next (whenActive_active (u := .enc u) hactive)

/-- A push that goes on leaves the encoder and its port as the feed left them (48_commands R189). -/
theorem exec_encPush_of_go {io : EncIO} (hactive : (s.enc u).phase = .active)
    (hgo : encFeed Config.build (s.encIO u) p = .go io) :
    exec (.encPush u p) s = .next { s.setEnc u io.enc with ports := s.ports.setEout u io.eout } := by
  have hgo : encFeed Config.build ⟨s.enc u, s.ports.eout u⟩ p = .go io := hgo
  rw [exec_encPush_active p hactive, State.onEnc, hgo]
  rfl

/-- A push that raises halts the unit on top of what the feed did before (48_commands R196, 60_exceptions R212). -/
theorem exec_encPush_of_raised {io : EncIO} {f : UnitFault} (hactive : (s.enc u).phase = .active)
    (hraised : encFeed Config.build (s.encIO u) p = .raised f io) :
    exec (.encPush u p) s = .next { s.setEnc u { io.enc with phase := .halted, err := faultCode f } with
      ports := s.ports.setEout u io.eout } := by
  have hraised : encFeed Config.build ⟨s.enc u, s.ports.eout u⟩ p = .raised f io := hraised
  rw [exec_encPush_active p hactive, State.onEnc, hraised]
  cases u <;> rfl

/-- A push past `BUF_CAP` halts the unit and changes nothing else (42_buffer R101). -/
theorem exec_encPush_overCap (hactive : (s.enc u).phase = .active)
    (hover : overCap Config.build ((s.enc u).acc.window.length + p.length) = true) :
    exec (.encPush u p) s = .next (s.setEnc u { s.enc u with phase := .halted, err := 0x11#8 }) := by
  rw [exec_encPush_of_raised hactive (encFeed_overCap (io := s.encIO u) hover)]
  cases u <;> rfl

end Push

/-- Settles O50: the capacity test, then the three ways the loop ends without a frame. -/
theorem encPushWithoutAFrame : Obligations.EncPushWithoutAFrame := by
  rintro s u p w h hactive rfl rfl hin
  rw [List.length_append]
  by_cases hover : overCap Config.build ((s.enc u).acc.window.length + p.length) = true
  · rw [if_pos hover]
    exact exec_encPush_overCap hactive hover
  rw [if_neg hover]
  have hfeed : encFeed Config.build (s.encIO u) p = feedLoop Config.build ((s.encIO u).fed p) :=
    encFeed_fits (Bool.eq_false_iff.2 hover) hin
  have hwindow : ((s.encIO u).fed p).enc.acc.window.length = (s.enc u).acc.window.length + p.length :=
    List.length_append
  refine ⟨?short, ?incomplete, ?malformed⟩
  case short =>
    intro hshort
    rw [exec_encPush_of_go hactive (hfeed.trans (feedLoop_short (hwindow.trans_lt hshort)))]
    cases u <;> rfl
  case incomplete =>
    intro hheader hlen hwait
    rw [exec_encPush_of_go hactive
      (hfeed.trans (feedLoop_incomplete (hwindow ▸ hheader) hlen (hwindow.trans_lt hwait)))]
    cases u <;> rfl
  case malformed =>
    intro hheader hlen
    rw [exec_encPush_of_raised hactive (hfeed.trans (feedLoop_malformed (hwindow ▸ hheader) hlen))]
    cases u <;> rfl

end Sys2Proof.Machine
end

section
/-! Where a stream is cut into payloads does not count (45_wrapper R151): every operation of the feed loop looks at the
head of the accumulator and leaves its tail alone, so bytes appended before it has run are there after it as well. -/

namespace Sys2Proof.Machine

/-! ## Appending before or after an operation -/

/-- A sequence commutes with a map where its parts do. -/
theorem map_andThen {σ : Type} {g : σ → σ} {r : Flow σ} {k : σ → Flow σ} (h : ∀ x, r = .go x → k (g x) = (k x).map g) :
    (r.map g).andThen k = (r.andThen k).map g := by
  cases r with
  | go x => exact h x rfl
  | raised f x => rfl

section Append

variable (cfg : Config) (q : Bytes) (io : EncIO)

theorem advance_fed (b : Buffer) : (b.fed q).advance = b.advance.map (·.fed q) := by
  have hout : (b.fed q).outSamples = b.outSamples := rfl
  unfold Buffer.advance
  rw [hout]
  cases addCounter b.outSamples aacBlockSamples with
  | none => rfl
  | some n => rw [map_go]; rfl

theorem accAdvance_fed : (io.fed q).onAcc Buffer.advance = (io.onAcc Buffer.advance).map (·.fed q) := by
  rw [EncIO.onAcc, EncIO.onAcc, show (io.fed q).enc.acc = io.enc.acc.fed q from rfl, advance_fed]
  cases io.enc.acc.advance <;> rfl

theorem wrapEmit_fed (f : Bytes) : wrapEmit cfg (io.fed q) f = (wrapEmit cfg io f).map (·.fed q) :=
  accAdvance_fed q (io.emit (pack cfg io.enc.cfgMode (slotOf cfg io.enc f)))

theorem delayFrame_fed (c : BitVec 3) : delayFrame cfg c (io.fed q) = (delayFrame cfg c io).map (·.fed q) := by
  unfold delayFrame
  split
  · exact accAdvance_fed q io
  · exact wrapEmit_fed cfg q io _

theorem delayRounds_fed (c : BitVec 3) (n : Nat) :
    delayRounds cfg c n (io.fed q) = (delayRounds cfg c n io).map (·.fed q) := by
  induction n generalizing io with
  | zero => rfl
  | succ n ih => rw [delayRounds, delayRounds, delayFrame_fed, map_andThen fun x _ => ih x]

theorem delayOnce_fed (c : BitVec 3) : delayOnce cfg c (io.fed q) = (delayOnce cfg c io).map (·.fed q) := by
  unfold delayOnce
  rw [show (io.fed q).enc.delayDone = io.enc.delayDone from rfl]
  split
  · rfl
  · rw [← map_andThen fun x _ => rfl]
    exact congrArg (Flow.andThen · _) (delayRounds_fed cfg q io c _)

/-- The round's body takes the frame from the head, so it commutes where the frame is whole. -/
theorem feedFrame_fed {len : Nat} (hwhole : len ≤ io.enc.acc.window.length) :
    feedFrame cfg (io.fed q) len = (feedFrame cfg io len).map (·.fed q) := by
  have hhead : (io.fed q).enc.acc.window.take len = io.enc.acc.window.take len := List.take_append_of_le_length hwhole
  have hstep := encStep_andThen (delayOnce_step cfg (channelCountOf io.enc.acc.hdr) io)
    (fun x _ => wrapEmit_step cfg x (io.enc.acc.window.take len))
  have hemit := map_andThen (r := delayOnce cfg (channelCountOf io.enc.acc.hdr) io)
    (k := fun x => wrapEmit cfg x (io.enc.acc.window.take len)) (fun x _ => wrapEmit_fed cfg q x _)
  rw [feedFrame, feedFrame, hhead, show (io.fed q).enc.acc.hdr = io.enc.acc.hdr from rfl, delayOnce_fed, hemit]
  refine map_andThen fun x hx => ?_
  have hwindow : x.enc.acc.window = io.enc.acc.window := by rw [hx] at hstep; exact hstep.window
  have htail : (x.enc.acc.window ++ q).drop len = x.enc.acc.window.drop len ++ q :=
    List.drop_append_of_le_length (hwindow ▸ hwhole)
  simp only [EncIO.fed, EncIO.consume, Buffer.consume, Buffer.fed, htail, map_go]

/-- The header at the head is the same with more bytes behind it. -/
theorem recordHead_fed (hheader : 7 ≤ io.enc.acc.window.length) : (io.fed q).recordHead = io.recordHead.fed q := by
  have hhead : (io.enc.acc.window ++ q).take 7 = io.enc.acc.window.take 7 := List.take_append_of_le_length hheader
  simp only [EncIO.recordHead, EncIO.fed, Buffer.fed, Buffer.recordHeader, adtsLen, hhead]

end Append

/-! ## The loop -/

/-- Where the loop goes on, bytes that come after it might as well have been there before it. -/
theorem feedLoop_fed {cfg : Config} {io io1 : EncIO} (q : Bytes) (h : feedLoop cfg io = .go io1) :
    feedLoop cfg (io.fed q) = feedLoop cfg (io1.fed q) := by
  induction hn : io.enc.acc.window.length using Nat.strong_induction_on generalizing io with
  | _ n ih =>
  rw [feedLoop_eq] at h
  split_ifs at h with hshort hmalformed hincomplete
  · obtain rfl := Flow.go.inj h
    rfl
  · obtain rfl := Flow.go.inj h
    rw [← recordHead_fed q io (not_lt.1 hshort), feedLoop_recordHead]
    rw [encFed_window, List.length_append]
    omega
  · obtain ⟨x, hframe, hrest⟩ := andThen_eq_go.1 h
    have hwhole := not_lt.1 hincomplete
    have hhead := recordHead_fed q io (not_lt.1 hshort)
    have hlen : (io.fed q).recordHead.headLength = io.recordHead.headLength := by rw [hhead]; rfl
    have hshorter : x.enc.acc.window.length < io.enc.acc.window.length :=
      feedFrame_shortens (io := io.recordHead) (by omega) hwhole hframe
    have hwhole' : io.recordHead.headLength ≤ (io.fed q).enc.acc.window.length :=
      hwhole.trans (List.length_append ▸ Nat.le_add_right _ _)
    calc feedLoop cfg (io.fed q)
      _ = (feedFrame cfg (io.recordHead.fed q) io.recordHead.headLength).andThen (feedLoop cfg) := by
        rw [feedLoop_whole (hlen ▸ not_lt.1 hmalformed) (hlen ▸ hwhole'), hlen, hhead]
      _ = feedLoop cfg (x.fed q) := by rw [feedFrame_fed cfg q io.recordHead hwhole, hframe, map_go, andThen_go]
      _ = feedLoop cfg (io1.fed q) := ih _ (hn ▸ hshorter) hrest rfl

/-! ## The push -/

/-- The loop going on only grows the encoder. -/
theorem grows_of_feedLoop {cfg : Config} {io io1 : EncIO} (h : feedLoop cfg io = .go io1) : io.Grows io1 := by
  have hgrows := (feedRounds_grows cfg (io.enc.acc.window.length + 1) io).1
  rw [feedLoop] at h
  rwa [h] at hgrows

/-- A push that goes on took its payload. -/
theorem encFeed_eq_go {cfg : Config} {io io1 : EncIO} {p : Bytes} (h : encFeed cfg io p = .go io1) :
    io.enc.acc.inSamples.toNat + p.length / io.enc.acc.bps.toNat < 2 ^ 64 ∧ feedLoop cfg (io.fed p) = .go io1 := by
  rcases append_cases cfg io.enc.acc p with ⟨_, happend⟩ | ⟨hcap, n, hn, _⟩ | ⟨_, _, happend⟩
  · simp [encFeed, EncIO.onAcc, happend] at h
  · have hin : io.enc.acc.inSamples.toNat + p.length / io.enc.acc.bps.toNat < 2 ^ 64 := hn ▸ n.isLt
    exact ⟨hin, encFeed_fits hcap hin ▸ h⟩
  · simp [encFeed, EncIO.onAcc, happend] at h

/-- With one byte a sample the count does not depend on the cut. -/
theorem encFed_append {io : EncIO} (hbps : io.enc.acc.bps = 1#16) (p q : Bytes) :
    (io.fed p).fed q = io.fed (p ++ q) := by
  have hcount : BitVec.ofNat 64 ((BitVec.ofNat 64 (io.enc.acc.inSamples.toNat + p.length)).toNat + q.length) =
      BitVec.ofNat 64 (io.enc.acc.inSamples.toNat + (p.length + q.length)) := by
    apply BitVec.eq_of_toNat_eq
    simp [Nat.add_assoc]
  simp [EncIO.fed, Buffer.fed, hbps, ← hcount]

/-- Settles O53: the second payload, appended where the first push has ended, might as well have been appended before it
ran. -/
theorem encodingIgnoresPayloadCuts : Obligations.EncodingIgnoresPayloadCuts := by
  intro cfg io io1 io2 p q hbps hcap hp hq
  obtain ⟨hinp, hp⟩ := encFeed_eq_go hp
  obtain ⟨hinq, hq⟩ := encFeed_eq_go hq
  have hgrows : (io.fed p).Grows io1 := grows_of_feedLoop hp
  have hin : io1.enc.acc.inSamples.toNat = io.enc.acc.inSamples.toNat + p.length / io.enc.acc.bps.toNat := by
    rw [hgrows.inSamples]
    exact Nat.mod_eq_of_lt hinp
  have hbps1 : io1.enc.acc.bps = 1#16 := hgrows.bps.trans hbps
  have hboth : io.enc.acc.inSamples.toNat + (p ++ q).length / io.enc.acc.bps.toNat < 2 ^ 64 := by
    rw [hin, hbps1] at hinq
    simpa [hbps, Nat.add_assoc] using hinq
  calc encFeed cfg io (p ++ q)
    _ = feedLoop cfg ((io.fed p).fed q) := by
      rw [encFeed_fits (by rwa [List.length_append, ← Nat.add_assoc]) hboth, encFed_append hbps]
    _ = feedLoop cfg (io1.fed q) := feedLoop_fed q hp
    _ = .go io2 := hq

end Sys2Proof.Machine
end

section
/-! Whole frames pushed to an encoder (45_wrapper R151 to R159): what the wrapper's operations add to the port and to
`OUT_SAMPLES` where the counter fits, then the feed loop frame by frame, with and without the delay before the first. -/

namespace Sys2Proof.Machine

/-! ## The counter -/

theorem emitted_outSamples {b : Buffer} {n : Nat} (hfits : b.outSamples.toNat + 1024 * n < 2 ^ 64) :
    (b.emitted n).outSamples.toNat = b.outSamples.toNat + 1024 * n := Nat.mod_eq_of_lt hfits

theorem emitted_zero (b : Buffer) : b.emitted 0 = b := by simp [Buffer.emitted]

theorem emitted_emitted (b : Buffer) (m n : Nat) : (b.emitted m).emitted n = b.emitted (m + n) := by
  have hcount : BitVec.ofNat 64 ((BitVec.ofNat 64 (b.outSamples.toNat + 1024 * m)).toNat + 1024 * n) =
      BitVec.ofNat 64 (b.outSamples.toNat + 1024 * (m + n)) := by
    apply BitVec.eq_of_toNat_eq
    simp [Nat.mul_add, Nat.add_assoc]
  simp only [Buffer.emitted, hcount]

/-! ## Slots sent -/

/-- The packed slot of a frame, as it leaves on the port (45_wrapper R153). -/
def packedSlot (cfg : Config) (e : Enc) (f : Bytes) : Bytes := pack cfg e.cfgMode (slotOf cfg e f)

/-- One silence frame of the delay as it leaves on the port: nothing where its template is empty (45_wrapper R157). -/
def silenceSlot (cfg : Config) (c : BitVec 3) (e : Enc) : Bytes :=
  if template cfg c = [] then [] else packedSlot cfg e (template cfg c)

/-- The silence frames of a delay (45_wrapper R157). -/
def silenceSlots (cfg : Config) (c : BitVec 3) (n : Nat) (e : Enc) : Bytes :=
  (List.replicate n (silenceSlot cfg c e)).flatten

/-- An encoder that has sent `x` on its port and advanced by `n` frames. -/
def EncIO.sent (io : EncIO) (n : Nat) (x : Bytes) : EncIO :=
  ⟨{ io.enc with acc := io.enc.acc.emitted n }, io.eout ++ x⟩

/-- An encoder whose delay is done (45_wrapper R151). -/
def EncIO.delayed (io : EncIO) : EncIO := { io with enc := { io.enc with delayDone := true } }

section Fields

variable (cfg : Config) (io : EncIO) (n : Nat) (x : Bytes)

@[simp] theorem sent_window : (io.sent n x).enc.acc.window = io.enc.acc.window := rfl
@[simp] theorem sent_delayDone : (io.sent n x).enc.delayDone = io.enc.delayDone := rfl
@[simp] theorem delayed_window : io.delayed.enc.acc.window = io.enc.acc.window := rfl
@[simp] theorem delayed_outSamples : io.delayed.enc.acc.outSamples = io.enc.acc.outSamples := rfl
@[simp] theorem recordHead_delayDone : io.recordHead.enc.delayDone = io.enc.delayDone := rfl
@[simp] theorem encConsume_delayDone : (io.consume n).enc.delayDone = io.enc.delayDone := rfl
@[simp] theorem encConsume_outSamples : (io.consume n).enc.acc.outSamples = io.enc.acc.outSamples := rfl

/-- A slot depends on the encoder's mode and channel count alone (45_wrapper R150). -/
theorem packedSlot_congr {e e' : Enc} (hmode : e'.cfgMode = e.cfgMode) (hnch : e'.cfgNch = e.cfgNch) :
    packedSlot cfg e' = packedSlot cfg e := by
  funext f
  simp only [packedSlot, slotOf, slotBytes, trackBps, hmode, hnch]

@[simp] theorem packedSlot_fed : packedSlot cfg (io.fed x).enc = packedSlot cfg io.enc := packedSlot_congr cfg rfl rfl
@[simp] theorem packedSlot_sent : packedSlot cfg (io.sent n x).enc = packedSlot cfg io.enc :=
  packedSlot_congr cfg rfl rfl
@[simp] theorem packedSlot_delayed : packedSlot cfg io.delayed.enc = packedSlot cfg io.enc :=
  packedSlot_congr cfg rfl rfl
@[simp] theorem packedSlot_recordHead : packedSlot cfg io.recordHead.enc = packedSlot cfg io.enc :=
  packedSlot_congr cfg rfl rfl
@[simp] theorem packedSlot_consume : packedSlot cfg (io.consume n).enc = packedSlot cfg io.enc :=
  packedSlot_congr cfg rfl rfl

@[simp] theorem silenceSlots_sent (c : BitVec 3) (m : Nat) :
    silenceSlots cfg c m (io.sent n x).enc = silenceSlots cfg c m io.enc := by
  rw [silenceSlots, silenceSlots, silenceSlot, silenceSlot, packedSlot_sent]

@[simp] theorem silenceSlots_recordHead (c : BitVec 3) (m : Nat) :
    silenceSlots cfg c m io.recordHead.enc = silenceSlots cfg c m io.enc := by
  rw [silenceSlots, silenceSlots, silenceSlot, silenceSlot, packedSlot_recordHead]

theorem delayed_sent : io.delayed.sent n x = (io.sent n x).delayed := rfl

theorem sent_sent (m : Nat) (y : Bytes) : (io.sent n x).sent m y = io.sent (n + m) (x ++ y) := by
  simp only [EncIO.sent, emitted_emitted, List.append_assoc]

/-- What is left of the counter after `n` frames. -/
theorem sent_room {io : EncIO} {n m : Nat} (x : Bytes)
    (hfits : io.enc.acc.outSamples.toNat + 1024 * n + 1024 * m < 2 ^ 64) :
    (io.sent n x).enc.acc.outSamples.toNat + 1024 * m < 2 ^ 64 := by
  have hout : (io.sent n x).enc.acc.outSamples.toNat = io.enc.acc.outSamples.toNat + 1024 * n :=
    emitted_outSamples (by omega)
  rwa [hout]

end Fields

section Fits

variable {cfg : Config} {io : EncIO}

theorem accAdvance_fits (hfits : io.enc.acc.outSamples.toNat + 1024 < 2 ^ 64) :
    io.onAcc Buffer.advance = .go (io.sent 1 []) := by
  rw [EncIO.onAcc, advance_fits hfits, EncIO.sent, List.append_nil]
  rfl

theorem wrapEmit_eq_sent {f : Bytes} (hfits : io.enc.acc.outSamples.toNat + 1024 < 2 ^ 64) :
    wrapEmit cfg io f = .go (io.sent 1 (packedSlot cfg io.enc f)) := wrapEmit_fits hfits

/-- One silence frame of the delay (45_wrapper R157). -/
theorem delayFrame_fits {c : BitVec 3} (hfits : io.enc.acc.outSamples.toNat + 1024 < 2 ^ 64) :
    delayFrame cfg c io = .go (io.sent 1 (silenceSlot cfg c io.enc)) := by
  unfold delayFrame silenceSlot
  split
  · exact accAdvance_fits hfits
  · exact wrapEmit_eq_sent hfits

/-- The silence frames of the delay (45_wrapper R157). -/
theorem delayRounds_fits {c : BitVec 3} {n : Nat} (hfits : io.enc.acc.outSamples.toNat + 1024 * n < 2 ^ 64) :
    delayRounds cfg c n io = .go (io.sent n (silenceSlots cfg c n io.enc)) := by
  induction n generalizing io with
  | zero => simp [delayRounds, silenceSlots, EncIO.sent, emitted_zero]
  | succ n ih =>
    have hthen : io.enc.acc.outSamples.toNat + 1024 * 1 + 1024 * n < 2 ^ 64 := by omega
    have hnow : io.enc.acc.outSamples.toNat + 1024 < 2 ^ 64 := Nat.lt_of_le_of_lt (Nat.le_add_right _ _) hthen
    rw [delayRounds, delayFrame_fits hnow, andThen_go, ih (sent_room _ hthen), sent_sent, silenceSlots_sent,
      Nat.add_comm 1 n]
    rfl

/-- The delay runs before the first frame (45_wrapper R151, R157). -/
theorem delayOnce_first {c : BitVec 3} {n : Nat} (hfirst : io.enc.delayDone = false)
    (hn : n = cfg.delayFrames (delaySamples io.enc)) (hfits : io.enc.acc.outSamples.toNat + 1024 * n < 2 ^ 64) :
    delayOnce cfg c io = .go (io.sent n (silenceSlots cfg c n io.enc)).delayed := by
  rw [delayOnce, hfirst, if_neg Bool.false_ne_true, delaySilence, ← hn, delayRounds_fits hfits, andThen_go]
  rfl

/-- The delay never runs again (45_wrapper R151). -/
theorem delayOnce_done {c : BitVec 3} (hdone : io.enc.delayDone = true) : delayOnce cfg c io = .go io := if_pos hdone

/-! ## Frame by frame -/

/-- A round of the loop with a whole frame at the head: the delay where it is due, the frame's slot, and the loop on
what is behind it (45_wrapper R151). -/
theorem feedLoop_frame {io1 : EncIO} {f w : Bytes} (hframe : isFrame f) (hwindow : io.enc.acc.window = f ++ w)
    (hdelay : delayOnce cfg (channelCountOf (headerOfBytes (f.take 7))) io.recordHead = .go io1)
    (hfits : io1.enc.acc.outSamples.toNat + 1024 < 2 ^ 64) :
    feedLoop cfg io = feedLoop cfg ((io1.sent 1 (packedSlot cfg io1.enc f)).consume f.length) := by
  obtain ⟨hheader, hlen⟩ := hframe
  have hhead : io.enc.acc.window.take 7 = f.take 7 := by rw [hwindow, List.take_append_of_le_length hheader]
  have hL : io.recordHead.headLength = f.length := by rw [headLength_recordHead, hhead, hlen]
  have hwhole : io.recordHead.headLength ≤ io.enc.acc.window.length := by
    rw [hL, hwindow, List.length_append]
    omega
  have hbytes : io.recordHead.enc.acc.window.take f.length = f := by rw [recordHead_window, hwindow, List.take_left]
  rw [feedLoop_whole (hL ▸ hheader) hwhole, hL, feedFrame, recordHead_hdr, hhead, hdelay, andThen_go, hbytes,
    wrapEmit_eq_sent hfits, andThen_go, andThen_go]

/-- An encoder that has wrapped every frame its accumulator held, with the header of the last one recorded; tied to the
loop by `feedLoop_frames`. -/
def EncIO.wrapped (cfg : Config) (io : EncIO) (fs : List Bytes) : EncIO :=
  ⟨{ io.enc with acc := { io.enc.acc.emitted fs.length with
      window := []
      hdr := (fs.getLast?.map (fun f => headerOfBytes (f.take 7))).getD io.enc.acc.hdr } },
    io.eout ++ (fs.map (packedSlot cfg io.enc)).flatten⟩

theorem wrapped_nil (hwindow : io.enc.acc.window = []) : io.wrapped cfg [] = io := by
  have hout := emitted_zero io.enc.acc
  simp only [EncIO.wrapped, List.length_nil, hout, ← hwindow]
  simp

/-- Wrapping the frame at the head and then the rest. -/
theorem wrapped_cons (f : Bytes) (fs : List Bytes) (hhead : io.enc.acc.window.take 7 = f.take 7) :
    ((io.recordHead.sent 1 (packedSlot cfg io.recordHead.enc f)).consume f.length).wrapped cfg fs =
      io.wrapped cfg (f :: fs) := by
  have hhdr : ((f :: fs).getLast?.map (fun g => headerOfBytes (g.take 7))).getD io.enc.acc.hdr =
      (fs.getLast?.map (fun g => headerOfBytes (g.take 7))).getD (headerOfBytes (f.take 7)) := by
    rw [List.getLast?_cons]
    cases fs.getLast? <;> rfl
  unfold EncIO.wrapped
  rw [hhdr, List.map_cons, List.flatten_cons, ← List.append_assoc, List.length_cons, Nat.add_comm, ← emitted_emitted,
    ← hhead, packedSlot_consume, packedSlot_sent, packedSlot_recordHead]
  simp only [EncIO.sent, EncIO.consume, EncIO.recordHead, Buffer.consume, Buffer.recordHeader, Buffer.emitted, adtsLen]

/-- After the first frame of a stream the loop wraps whole frames one after another (45_wrapper R151). -/
theorem feedLoop_frames {fs : List Bytes} (hframes : ∀ f ∈ fs, isFrame f) (hwindow : io.enc.acc.window = fs.flatten)
    (hdone : io.enc.delayDone = true) (hfits : io.enc.acc.outSamples.toNat + 1024 * fs.length < 2 ^ 64) :
    feedLoop cfg io = .go (io.wrapped cfg fs) := by
  induction fs generalizing io with
  | nil => rw [wrapped_nil hwindow, feedLoop_short (by simp [hwindow])]
  | cons f fs ih =>
    obtain ⟨hframe, hframes⟩ := List.forall_mem_cons.1 hframes
    rw [List.flatten_cons] at hwindow
    rw [List.length_cons] at hfits
    have hhead : io.enc.acc.window.take 7 = f.take 7 := by rw [hwindow, List.take_append_of_le_length hframe.1]
    have hthen : io.enc.acc.outSamples.toNat + 1024 * 1 + 1024 * fs.length < 2 ^ 64 := by omega
    have hnow : io.enc.acc.outSamples.toNat + 1024 < 2 ^ 64 := Nat.lt_of_le_of_lt (Nat.le_add_right _ _) hthen
    have hrest : ((io.recordHead.sent 1 (packedSlot cfg io.recordHead.enc f)).consume f.length).enc.acc.window =
        fs.flatten := by
      rw [encConsume_window, sent_window, recordHead_window, hwindow, List.drop_left]
    have hroom := sent_room (io := io.recordHead) (packedSlot cfg io.recordHead.enc f) hthen
    rw [feedLoop_frame hframe hwindow (delayOnce_done hdone) hnow, ih hframes hrest (by simpa using hdone) hroom,
      wrapped_cons f fs hhead]

/-- The first frame of a stream, with the delay before it (45_wrapper R151, R157). -/
theorem feedLoop_first_frame {f w : Bytes} {n : Nat} (hframe : isFrame f) (hwindow : io.enc.acc.window = f ++ w)
    (hfirst : io.enc.delayDone = false) (hn : n = cfg.delayFrames (delaySamples io.enc))
    (hfits : io.enc.acc.outSamples.toNat + 1024 * (n + 1) < 2 ^ 64) :
    feedLoop cfg io = feedLoop cfg ((io.recordHead.sent (n + 1)
      (silenceSlots cfg (channelCountOf (headerOfBytes (f.take 7))) n io.enc ++
        packedSlot cfg io.enc f)).delayed.consume f.length) := by
  have hthen : io.enc.acc.outSamples.toNat + 1024 * n + 1024 * 1 < 2 ^ 64 := by
    rwa [Nat.add_assoc, ← Nat.mul_add]
  have hdelay : io.enc.acc.outSamples.toNat + 1024 * n < 2 ^ 64 := Nat.lt_of_le_of_lt (Nat.le_add_right _ _) hthen
  have hroom := sent_room (io := io.recordHead)
    (silenceSlots cfg (channelCountOf (headerOfBytes (f.take 7))) n io.recordHead.enc) hthen
  rw [← delayed_outSamples, Nat.mul_one] at hroom
  rw [feedLoop_frame hframe hwindow (delayOnce_first hfirst hn hdelay) hroom, delayed_sent, sent_sent,
    packedSlot_delayed, packedSlot_sent, packedSlot_recordHead, silenceSlots_recordHead]

end Fits

/-! ## Pushes -/

/-- Settles O51: the loop over the frames just appended. -/
theorem encPushWrapsEveryFrame : Obligations.EncPushWrapsEveryFrame := by
  intro s u fs hactive hwindow hdone hframes hin hout
  have hlen : fs.flatten.length = (s.enc u).acc.window.length + fs.flatten.length := by simp [hwindow]
  split_ifs with hover
  · exact exec_encPush_overCap hactive (by rwa [← hlen])
  have hcap : overCap Config.build ((s.enc u).acc.window.length + fs.flatten.length) = false :=
    hlen ▸ Bool.eq_false_iff.2 hover
  have hframe : ((s.encIO u).fed fs.flatten).enc.acc.window = fs.flatten := by
    rw [encFed_window, show (s.encIO u).enc.acc.window = [] from hwindow, List.nil_append]
  have hgo : encFeed Config.build (s.encIO u) fs.flatten =
      .go (((s.encIO u).fed fs.flatten).wrapped Config.build fs) :=
    (encFeed_fits hcap hin).trans (feedLoop_frames hframes hframe hdone hout)
  rw [exec_encPush_of_go hactive hgo]
  rfl

/-- Settles O52: the delay, the frame, and nothing left behind it. -/
theorem encPushPrependsTheDelay : Obligations.EncPushPrependsTheDelay := by
  rintro cfg io f c n hwindow hfirst hframe rfl hn hcap hin hout
  have hfed : (io.fed f).enc.acc.window = f ++ [] := by simp [hwindow]
  rw [encFeed_fits (by simpa [hwindow] using hcap) hin, feedLoop_first_frame hframe hfed hfirst hn hout,
    feedLoop_short (by simp [hwindow])]
  simp only [EncIO.consume, EncIO.delayed, EncIO.sent, EncIO.recordHead, EncIO.fed, Buffer.consume, Buffer.recordHeader,
    Buffer.emitted, Buffer.fed, hwindow, List.nil_append, List.drop_length, adtsLen, silenceSlots, silenceSlot,
    ← List.append_assoc]
  rfl

end Sys2Proof.Machine
end

section
/-! Searching a track of slots (42_buffer R108, 45_wrapper R152, R154): what stands before a haystack shifts what is
found in it, what stands behind it does not change it, and the padding holds no start-marker. -/

namespace Sys2Proof.Machine

/-! ## The search within a longer sequence -/

theorem scanFrom_add (p h : Bytes) (k i : Nat) : scanFrom p h (k + i) = (scanFrom p h i).map (k + ·) := by
  induction h generalizing i with
  | nil => rfl
  | cons x xs ih =>
    rw [scanFrom, scanFrom, Nat.add_assoc, ih]
    split <;> rfl

theorem find_append_left {pre : Bytes} {k : Nat} (hk : pre.length = k) (h p : Bytes) (start : Nat) :
    find (pre ++ h) p (k + start) = (find h p start).map (k + ·) := by
  rw [find, find, ← List.drop_drop, List.drop_left' hk, scanFrom_add]

theorem occursAt_append_right {p h : Bytes} (post : Bytes) {i : Nat} (hfits : i + p.length ≤ h.length) :
    OccursAt p (h ++ post) i ↔ OccursAt p h i := by
  have hpart : ((h ++ post).drop i).take p.length = (h.drop i).take p.length := by
    rw [List.drop_append_of_le_length (by omega), List.take_append_of_le_length (by rw [List.length_drop]; omega)]
  have hfits' : i + p.length ≤ (h ++ post).length := hfits.trans (List.length_append ▸ Nat.le_add_right _ _)
  simp only [OccursAt, hpart, hfits, hfits', true_and]

/-- What is found stays found with more bytes behind it. -/
theorem find_append_right {p h : Bytes} (post : Bytes) {start i : Nat} (hp : p ≠ []) (hfind : find h p start = some i) :
    find (h ++ post) p start = some i := by
  obtain ⟨hstart, hocc, hleast⟩ := find_least hp hfind
  refine (find_eq_some_iff hp).2 ⟨hstart, (occursAt_append_right post hocc.1).2 hocc, fun j hj hji hocc' => ?_⟩
  exact hleast j hj hji ((occursAt_append_right post (by have := hocc.1; omega)).1 hocc')

theorem endBytes_ne_nil (cfg : Config) : cfg.endBytes ≠ [] :=
  List.ne_nil_of_length_pos (by rw [endBytes_length]; decide)

/-! ## The padding -/

section Padding

variable {cfg : Config}

/-- A start-marker begins with its first byte. -/
theorem head_of_occursAt {h : Bytes} {i : Nat} (hocc : OccursAt cfg.startBytes h i) :
    h[i]? = some cfg.startMarker[0] := by
  have hhead : cfg.startBytes[0]? = some cfg.startMarker[0] := by simp [Config.startBytes]
  rw [← hhead, ← hocc.2, List.getElem?_take_of_lt (by rw [startBytes_length]; decide), List.getElem?_drop, Nat.add_zero]

/-- No start-marker begins in the padding where it does not begin with a zero byte. -/
theorem not_occursAt_zeros (hmark : cfg.startMarker[0] ≠ 0#8) {k i : Nat} (w : Bytes) (hi : i < k) :
    ¬ OccursAt cfg.startBytes (zeros k ++ w) i := by
  intro hocc
  have hbyte : (zeros k ++ w)[i]? = some 0#8 := by
    rw [List.getElem?_append_left (by simpa using hi), zeros, List.getElem?_replicate_of_lt hi]
  exact hmark (Option.some.inj ((head_of_occursAt hocc).symm.trans hbyte))

/-- The first start-marker behind the padding is the one right behind it. -/
theorem find_start_zeros (hmark : cfg.startMarker[0] ≠ 0#8) (k : Nat) (w : Bytes) :
    find (zeros k ++ (cfg.startBytes ++ w)) cfg.startBytes 0 = some k := by
  refine (find_eq_some_iff (startBytes_ne_nil cfg)).2 ⟨Nat.zero_le k, ⟨by simp, ?_⟩, fun j _ hj => ?_⟩
  · rw [List.drop_left' (zeros_length k), List.take_left]
  · exact not_occursAt_zeros hmark _ hj

/-- The padding alone holds no start-marker. -/
theorem find_start_zeros_none (hmark : cfg.startMarker[0] ≠ 0#8) (k : Nat) :
    find (zeros k) cfg.startBytes 0 = none := by
  refine (find_eq_none_iff (startBytes_ne_nil cfg)).2 fun j _ hocc => ?_
  have hfits := hocc.1
  rw [zeros_length, startBytes_length] at hfits
  exact not_occursAt_zeros hmark [] (show j < k by omega) (by rwa [List.append_nil])

end Padding

end Sys2Proof.Machine
end

section
/-! Full mode there and back (45_wrapper R161): the slots an encoder emits, then a decoder that takes them out again one
attempt a frame, each on time and each behind the padding of the one before. -/

namespace Sys2Proof.Machine

/-! ## Encoding a stream without a delay -/

/-- No delay is no frame of delay (45_wrapper R158). -/
theorem delayFrames_zero {cfg : Config} (hdelay : delayFramesOk cfg) : cfg.delayFrames 0 = 0 := by
  have h := abs_lt.1 (hdelay 0)
  omega

/-- The first push of a stream of whole frames without a delay emits one packed slot a frame (45_wrapper R151). -/
theorem encFeed_stream {cfg : Config} {io : EncIO} {f : Bytes} {fs : List Bytes} (hframes : ∀ g ∈ f :: fs, isFrame g)
    (hwindow : io.enc.acc.window = []) (hfirst : io.enc.delayDone = false)
    (hdelay : cfg.delayFrames (delaySamples io.enc) = 0)
    (hcap : overCap cfg (io.enc.acc.window.length + (f :: fs).flatten.length) = false)
    (hin : io.enc.acc.inSamples.toNat + (f :: fs).flatten.length / io.enc.acc.bps.toNat < 2 ^ 64)
    (hout : io.enc.acc.outSamples.toNat + 1024 * (f :: fs).length < 2 ^ 64) :
    ∃ io', encFeed cfg io (f :: fs).flatten = .go io' ∧
      io'.eout = io.eout ++ ((f :: fs).map (packedSlot cfg io.enc)).flatten := by
  obtain ⟨hframe, hframes⟩ := List.forall_mem_cons.1 hframes
  have hfed : (io.fed (f :: fs).flatten).enc.acc.window = f ++ fs.flatten := by
    rw [encFed_window, hwindow, List.nil_append, List.flatten_cons]
  have hthen : io.enc.acc.outSamples.toNat + 1024 * 1 + 1024 * fs.length < 2 ^ 64 := by
    rw [List.length_cons] at hout
    omega
  have hnow : io.enc.acc.outSamples.toNat + 1024 * (0 + 1) < 2 ^ 64 := Nat.lt_of_le_of_lt (Nat.le_add_right _ _) hthen
  rw [encFeed_fits hcap hin, feedLoop_first_frame hframe hfed hfirst hdelay.symm hnow]
  refine ⟨_, feedLoop_frames hframes ?window rfl ?room, ?eout⟩
  case window => rw [encConsume_window, delayed_window, sent_window, recordHead_window, hfed, List.drop_left]
  case room =>
    rw [encConsume_outSamples, delayed_outSamples]
    exact sent_room (io := (io.fed (f :: fs).flatten).recordHead) _ hthen
  case eout =>
    rw [EncIO.wrapped, packedSlot_consume, packedSlot_delayed, packedSlot_sent, packedSlot_recordHead, packedSlot_fed]
    simp [EncIO.delayed, EncIO.sent, silenceSlots]

/-! ## One attempt on a slot -/

/-- A frame whose wrapping holds no marker but its own (45_wrapper R161). -/
def OwnMarkersOnly (cfg : Config) (f : Bytes) : Prop :=
  find (wrap cfg f) cfg.endBytes 15 = some (f.length + 12) ∧
    find ((wrap cfg f).take (f.length + 12)) cfg.startBytes 8 = none

/-- A part of a sequence that stands inside a longer one. -/
theorem slice_within {pre x : Bytes} {k : Nat} (hk : pre.length = k) (post : Bytes) {a b : Nat} (hb : b ≤ x.length) :
    slice (pre ++ (x ++ post)) (k + a) (k + b) = slice x a b := by
  rw [slice, slice, ← List.drop_drop, List.drop_left' hk, Nat.add_sub_add_left]
  by_cases ha : a ≤ x.length
  · rw [List.drop_append_of_le_length ha, List.take_append_of_le_length (by rw [List.length_drop]; omega)]
  · simp [show b - a = 0 by omega]

/-- A part from the same place that ends earlier. -/
theorem slice_eq_take {s : Bytes} {a b n : Nat} (hn : a + n ≤ b) : slice s a (a + n) = (slice s a b).take n := by
  rw [slice, slice, List.take_take, Nat.add_sub_cancel_left, Nat.min_eq_left (by omega)]

/-- The header a wrapped frame shows behind its start-marker is the frame's own (45_wrapper R152). -/
theorem slice_wrap_header (cfg : Config) {f : Bytes} (hheader : 7 ≤ f.length) : slice (wrap cfg f) 8 15 = f.take 7 := by
  rw [slice_eq_take (n := 7) (b := 8 + f.length) (by omega), slice_wrap_frame]

/-- The scan stays where it is when it finds no later start-marker (44_extractor R134). -/
theorem resync_of_none {cfg : Config} {w : Bytes} {pf : Nat} {m : Marked}
    (hnone : find (w.take pf) cfg.startBytes (m.ps + 8) = none) : resync cfg w pf m = m := by
  unfold resync
  cases pf with
  | zero => rfl
  | succ n => rw [resyncRounds, hnone]

theorem silenceCount_self (out : Nat) : silenceCount out out = 0 := by
  unfold silenceCount
  omega

/-- A track that has passed the frame `f` on to its port, with `rest` behind the frame's wrapping. -/
def Track.passed (t : Track) (f rest : Bytes) : Track :=
  ⟨{ t.buf.emitted 1 with window := rest, hdr := headerOfBytes (f.take 7) }, t.port ++ f⟩

theorem passed_window (t : Track) (f rest : Bytes) : (t.passed f rest).buf.window = rest := rfl

theorem passed_port (t : Track) (f rest : Bytes) : (t.passed f rest).port = t.port ++ f := rfl

theorem passed_bps (t : Track) (f rest : Bytes) : (t.passed f rest).buf.bps = t.buf.bps := by
  simp only [Track.passed, Buffer.emitted]

theorem passed_inSamples (t : Track) (f rest : Bytes) : (t.passed f rest).buf.inSamples = t.buf.inSamples := by
  simp only [Track.passed, Buffer.emitted]

theorem passed_outSamples (t : Track) (f rest : Bytes) :
    (t.passed f rest).buf.outSamples = (t.buf.emitted 1).outSamples := by
  simp only [Track.passed]

section Slot

variable {cfg : Config} {f : Bytes} (k : Nat) (rest : Bytes)

/-- Behind the padding of the slot before it, a wrapped frame's start-marker is the first. -/
theorem find_start_wrapped (hmark : cfg.startMarker[0] ≠ 0#8) :
    find (zeros k ++ (wrap cfg f ++ rest)) cfg.startBytes 0 = some k := by
  rw [wrap, List.append_assoc, List.append_assoc, List.append_assoc]
  exact find_start_zeros hmark k _

theorem find_end_wrapped (hown : OwnMarkersOnly cfg f) :
    find (zeros k ++ (wrap cfg f ++ rest)) cfg.endBytes (k + 15) = some (k + (f.length + 12)) := by
  rw [find_append_left (zeros_length k), find_append_right rest (endBytes_ne_nil cfg) hown.1, Option.map_some]

theorem no_later_start_wrapped (hown : OwnMarkersOnly cfg f) :
    find ((zeros k ++ (wrap cfg f ++ rest)).take (k + (f.length + 12))) cfg.startBytes (k + 8) = none := by
  have htake : (zeros k ++ (wrap cfg f ++ rest)).take (k + (f.length + 12)) =
      zeros k ++ (wrap cfg f).take (f.length + 12) := by
    rw [List.take_append, List.take_of_length_le (by simp), zeros_length, Nat.add_sub_cancel_left,
      List.take_append_of_le_length (by simp)]
  rw [htake, find_append_left (zeros_length k), hown.2, Option.map_none]

theorem slice_wrapped {a b : Nat} (hb : b ≤ f.length + 24) :
    slice (zeros k ++ (wrap cfg f ++ rest)) (k + a) (k + b) = slice (wrap cfg f) a b :=
  slice_within (zeros_length k) rest (by rwa [wrap_length])

theorem drop_wrapped : (zeros k ++ (wrap cfg f ++ rest)).drop (k + (f.length + 12) + 12) = rest := by
  rw [← List.append_assoc]
  exact List.drop_left' (by simp; omega)

end Slot

/-- A frame of a wrapped stream that is on time is emitted, with nothing before it, and its wrapping is consumed
(44_extractor R131 to R140). -/
theorem extractOne_wrapped {cfg : Config} {t : Track} {f rest : Bytes} {k : Nat} (hmark : cfg.startMarker[0] ≠ 0#8)
    (hframe : isFrame f) (hown : OwnMarkersOnly cfg f) (hwindow : t.buf.window = zeros k ++ (wrap cfg f ++ rest))
    (htime : frameStart t.buf k = t.buf.outSamples.toNat) (hfits : t.buf.outSamples.toNat + 1024 < 2 ^ 64) :
    extractOne cfg t = .produced (t.passed f rest) := by
  obtain ⟨hheader, hlen⟩ := hframe
  have hhead : headerAt t.buf.window k = f.take 7 := by
    rw [headerAt, hwindow, slice_wrapped k rest (by omega), slice_wrap_header cfg hheader]
  have hscan : (⟨k, t.buf.recordHeader (f.take 7)⟩ : Marked) =
      resync cfg t.buf.window (k + (f.length + 12)) ⟨k, t.buf.recordHeader (headerAt t.buf.window k)⟩ := by
    rw [hhead, resync_of_none (hwindow ▸ no_later_start_wrapped k rest hown)]
  have hck_at : k + (f.length + 12) - 4 = k + (8 + f.length) := by omega
  have hblk : f = slice t.buf.window (k + 8) (k + (f.length + 12) - 4) := by
    rw [hck_at, hwindow, slice_wrapped k rest (by omega), slice_wrap_frame]
  have hck : leNat (slice t.buf.window (k + (f.length + 12) - 4) (k + (f.length + 12))) = (ck f).toNat := by
    rw [hck_at, hwindow, slice_wrapped k rest (by omega), Nat.add_comm f.length 12, slice_wrap_checksum, leNat_le32]
  have hpf : k + (f.length + 12) = k + 12 + (frameLengthOf (headerOfBytes (f.take 7))).toNat := by
    rw [hlen]
    omega
  have hfresh : (t.buf.outSamples.toNat : Int) ≤ frameStart t.buf k + 512 := by omega
  have hcount : 0 = silenceCount t.buf.outSamples.toNat (frameStart t.buf k) := by rw [htime, silenceCount_self]
  rw [goodFrameIsEmitted cfg t _ f _ k _ 0 _ rfl (hwindow ▸ find_start_wrapped k rest hmark)
    (hwindow ▸ find_end_wrapped k rest hown) hscan hblk hpf hck rfl hfresh hcount hfits, hwindow, drop_wrapped]
  simp only [templates, List.replicate_zero, List.flatten_nil, List.append_nil, recordHeader_hdr, Buffer.emitted,
    Nat.zero_add, Track.passed]

/-! ## The decode loop over the slots -/

/-- A frame that fits its slot makes it exactly `SLOT` bytes long (45_wrapper R154). -/
theorem slotOf_length {cfg : Config} {e : Enc} {f : Bytes} (hfits : f.length + 24 ≤ 1024 * trackBps e) :
    (slotOf cfg e f).length = 1024 * trackBps e := by
  rw [slotOf_eq, List.length_append, wrap_length, zeros_length]
  omega

theorem slots_length {cfg : Config} {e : Enc} {fs : List Bytes}
    (hfits : ∀ f ∈ fs, f.length + 24 ≤ 1024 * trackBps e) :
    (fs.map (slotOf cfg e)).flatten.length = 1024 * trackBps e * fs.length := by
  induction fs with
  | nil => rfl
  | cons f fs ih =>
    obtain ⟨hf, hfs⟩ := List.forall_mem_cons.1 hfits
    rw [List.map_cons, List.flatten_cons, List.length_append, slotOf_length hf, ih hfs, List.length_cons]
    ring

/-- A frame at the head of whole slots, all the input taken so far being sent or still there, is on time (44_extractor
R137). -/
theorem frameStart_of_slots {b : Buffer} {k n : Nat} (hbps : 0 < b.bps.toNat)
    (hwindow : b.window.length = k + 1024 * b.bps.toNat * n)
    (hin : b.inSamples.toNat = b.outSamples.toNat + 1024 * n) : frameStart b k = b.outSamples.toNat := by
  have hsamples : b.window.length / b.bps.toNat = k / b.bps.toNat + 1024 * n := by
    rw [hwindow, show 1024 * b.bps.toNat * n = b.bps.toNat * (1024 * n) by ring, Nat.add_mul_div_left _ _ hbps]
  simp only [frameStart, Buffer.inStart, hsamples, hin]
  omega

/-- The decode loop takes the frames out of their slots one after another, and ends in the last padding (44_extractor
R141). -/
theorem extractTrack_slots {cfg : Config} {e : Enc} {fs : List Bytes} {t : Track} {k : Nat}
    (hmark : cfg.startMarker[0] ≠ 0#8)
    (hframes : ∀ f ∈ fs, isFrame f ∧ f.length + 24 ≤ 1024 * trackBps e ∧ OwnMarkersOnly cfg f)
    (hwindow : t.buf.window = zeros k ++ (fs.map (slotOf cfg e)).flatten) (hbps : t.buf.bps.toNat = trackBps e)
    (hpos : 0 < trackBps e) (hin : t.buf.inSamples.toNat = t.buf.outSamples.toNat + 1024 * fs.length) :
    ∃ t', extractTrack cfg t = .go t' ∧ t'.port = t.port ++ fs.flatten := by
  induction fs generalizing t k with
  | nil =>
    have hnone : extractOne cfg t = .noFrame t := by
      simp only [extractOne, hwindow, List.map_nil, List.flatten_nil, List.append_nil, find_start_zeros_none hmark]
    exact ⟨t, by rw [decodeLoopRunsToNoFrame, hnone], by simp⟩
  | cons f fs ih =>
    obtain ⟨⟨hframe, hfits, hown⟩, hrest⟩ := List.forall_mem_cons.1 hframes
    have hslots : t.buf.window = zeros k ++ (wrap cfg f ++
        (zeros (1024 * trackBps e - (f.length + 24)) ++ (fs.map (slotOf cfg e)).flatten)) := by
      rw [hwindow, List.map_cons, List.flatten_cons, slotOf_eq, List.append_assoc]
    have hlength : t.buf.window.length = k + 1024 * t.buf.bps.toNat * (f :: fs).length := by
      rw [hwindow, List.length_append, zeros_length, slots_length (fun g hg => (hframes g hg).2.1), hbps]
    have hcount : t.buf.inSamples.toNat = t.buf.outSamples.toNat + 1024 * 1 + 1024 * fs.length := by
      rw [hin, List.length_cons, Nat.add_assoc, ← Nat.mul_add, Nat.add_comm 1]
    have hnow : t.buf.outSamples.toNat + 1024 < 2 ^ 64 :=
      Nat.lt_of_le_of_lt (Nat.le_add_right _ _) (hcount ▸ t.buf.inSamples.isLt)
    have hone := extractOne_wrapped hmark hframe hown hslots (frameStart_of_slots (hbps ▸ hpos) hlength hin) hnow
    obtain ⟨t', hloop, hport⟩ := ih (t := t.passed f _) hrest (passed_window t f _) (by rwa [passed_bps])
      (by rwa [passed_inSamples, passed_outSamples, emitted_outSamples hnow])
    refine ⟨t', ?_, by rw [hport, passed_port, List.append_assoc, List.flatten_cons]⟩
    rw [decodeLoopRunsToNoFrame, hone]
    exact hloop

/-! ## Decoding -/

/-- A payload that shows the start-marker puts a decoder into Full mode, and the decode loop runs over it (43_detector
R121, 44_extractor R141). -/
theorem decPushBody_full {cfg : Config} {d : DecIO} {p : Bytes} {t : Track} (hunknown : d.dec.mode = .unknown)
    (hcap : overCap cfg (d.dec.raw.window.length + p.length) = false)
    (hin : d.dec.raw.inSamples.toNat + p.length / d.dec.raw.bps.toNat < 2 ^ 64)
    (hstart : showsStart cfg (d.dec.raw.fed p).window = true)
    (hloop : extractTrack cfg ⟨d.dec.raw.fed p, d.doutA⟩ = .go t) :
    decPushBody cfg p d = .go ⟨{ d.dec with mode := .full, raw := t.buf }, t.port, d.doutB⟩ := by
  have happend : d.dec.raw.append cfg p = .go (d.dec.raw.fed p) := append_fits hcap hin
  have htaken : takePayload cfg d.dec p = .go { d.dec with mode := .full, raw := d.dec.raw.fed p } := by
    simp only [takePayload, hunknown, detect, Dec.onRaw, happend, map_go, andThen_go, classify, hstart, if_true]
  simp only [decPushBody, htaken, map_go, andThen_go, extractAll, DecIO.onTracks, DecIO.onRaw, hloop]

/-- A first payload of whole slots is decoded in Full mode to the frames in them (43_detector R121, 44_extractor
R140). -/
theorem decPushBody_slots {cfg : Config} {e : Enc} {d : DecIO} {f : Bytes} {fs : List Bytes}
    (hmark : cfg.startMarker[0] ≠ 0#8)
    (hframes : ∀ g ∈ f :: fs, isFrame g ∧ g.length + 24 ≤ 1024 * trackBps e ∧ OwnMarkersOnly cfg g)
    (hunknown : d.dec.mode = .unknown) (hempty : d.dec.raw.window = []) (hbps : d.dec.raw.bps.toNat = trackBps e)
    (hpos : 0 < trackBps e) (hlevel : d.dec.raw.inSamples = d.dec.raw.outSamples)
    (hcap : overCap cfg (d.dec.raw.window.length + ((f :: fs).map (slotOf cfg e)).flatten.length) = false)
    (hcount : d.dec.raw.inSamples.toNat + 1024 * (f :: fs).length < 2 ^ 64) :
    ∃ d', decPushBody cfg ((f :: fs).map (slotOf cfg e)).flatten d = .go d' ∧
      d'.doutA = d.doutA ++ (f :: fs).flatten ∧ d'.doutB = d.doutB ∧ d'.dec.mode = .full := by
  have hsamples : ((f :: fs).map (slotOf cfg e)).flatten.length / d.dec.raw.bps.toNat = 1024 * (f :: fs).length := by
    rw [slots_length fun g hg => (hframes g hg).2.1, hbps, Nat.mul_right_comm, Nat.mul_div_cancel _ hpos]
  have hwindow : (d.dec.raw.fed ((f :: fs).map (slotOf cfg e)).flatten).window =
      zeros 0 ++ ((f :: fs).map (slotOf cfg e)).flatten := by
    rw [Buffer.fed, hempty]
    rfl
  have hin : (d.dec.raw.fed ((f :: fs).map (slotOf cfg e)).flatten).inSamples.toNat =
      d.dec.raw.outSamples.toNat + 1024 * (f :: fs).length := by
    rw [Buffer.fed, hsamples, BitVec.toNat_ofNat, Nat.mod_eq_of_lt hcount, hlevel]
  have hstart : showsStart cfg (d.dec.raw.fed ((f :: fs).map (slotOf cfg e)).flatten).window = true := by
    rw [showsStart, hwindow, List.map_cons, List.flatten_cons, slotOf, wrap, List.append_assoc, List.append_assoc,
      List.append_assoc, List.append_assoc, find_start_zeros hmark]
    rfl
  obtain ⟨t, hloop, hport⟩ := extractTrack_slots (t := ⟨d.dec.raw.fed _, d.doutA⟩) hmark hframes hwindow hbps hpos hin
  exact ⟨_, decPushBody_full hunknown hcap (hsamples ▸ hcount) hstart hloop, hport, rfl, rfl⟩

/-- Settles O55: the slots the encoder emits are those the decoder takes out. -/
theorem fullModeRoundTrip : Obligations.FullModeRoundTrip := by
  intro cfg e d fs hbuf hdelay hmark hne hframes hmode hms hacc hfirst hunknown hraw hnch hlen hcount
  obtain ⟨f, fs, rfl⟩ := List.exists_cons_of_ne_nil hne
  have hcap (n : Nat) : overCap cfg n = false := by simp [overCap, hbuf]
  have hsamples : delaySamples e.enc = 0 := by simp [delaySamples, hms]
  have hnch : 0 < e.enc.cfgNch.toNat := Nat.pos_of_ne_zero fun h => hnch (BitVec.eq_of_toNat_eq h)
  have hbps : trackBps e.enc = 2 * e.enc.cfgNch.toNat := trackBps_full hmode
  have hfits : 1024 * (f :: fs).length < 2 ^ 64 := Nat.lt_of_le_of_lt (Nat.le_add_right _ _) hcount
  have hrawBps : d.dec.raw.bps.toNat = trackBps e.enc := by
    have hbound := e.enc.cfgNch.isLt
    rw [hraw, hbps, BitVec.toNat_ofNat, Nat.mod_eq_of_lt (by omega)]
  have hslots : packedSlot cfg e.enc = slotOf cfg e.enc := funext fun g => pack_of_not_half cfg (by simp [hmode]) _
  have hfit : ∀ g ∈ f :: fs, isFrame g ∧ g.length + 24 ≤ 1024 * trackBps e.enc ∧ OwnMarkersOnly cfg g := by
    intro g hg
    obtain ⟨hframe, hroom, hown⟩ := hframes g hg
    exact ⟨hframe, by omega, hown⟩
  obtain ⟨e', hencode, heout⟩ := encFeed_stream (cfg := cfg) (io := e) (fun g hg => (hframes g hg).1) (by rw [hacc])
    hfirst (hsamples ▸ delayFrames_zero hdelay) (hcap _) (by simpa [hacc] using hlen) (by simpa [hacc] using hfits)
  have hstream : e'.eout.drop e.eout.length = ((f :: fs).map (slotOf cfg e.enc)).flatten := by
    rw [heout, hslots, List.drop_left]
  obtain ⟨d', hdecode, hdout⟩ := decPushBody_slots (d := d) hmark hfit hunknown (by rw [hraw]) hrawBps
    (by omega) (by rw [hraw]) (hcap _) (by simpa [hraw] using hfits)
  exact ⟨e', d', hencode, hstream ▸ hdecode, hdout⟩

end Sys2Proof.Machine
end

section
/-! The mixer over one whole mix (47_mixer R170 to R174). What `MIX` has emitted, followed by what its queues and the
bytes still to be pushed will give, is the same before and after every push and every step; so at the end it is the mix
of all the bytes pushed. -/

namespace Sys2Proof.Machine

/-! ## A mixed block, byte by byte -/

/-- Sample `i` of a block: track B in the low byte, track A in the high one (47_mixer R171). -/
theorem mixBlock_getElem? {a b : Bytes} {i : Nat} {x y : Byte} (ha : a[i]? = some x) (hb : b[i]? = some y) :
    (mixBlock a b)[2 * i]? = some (remap y) ∧ (mixBlock a b)[2 * i + 1]? = some (remap x) := by
  fun_induction mixBlock a b generalizing i with
  | case1 a as b bs ih =>
    cases i with
    | zero =>
      obtain rfl := Option.some.inj ha
      obtain rfl := Option.some.inj hb
      exact ⟨rfl, rfl⟩
    | succ i => exact ih ha hb
  | case2 => cases ha
  | case3 => cases hb

/-- Settles O47: the length is the block's own law, the bytes are read off sample by sample. -/
theorem mixBlockBytes : Obligations.MixBlockBytes := fun a b h =>
  ⟨by rw [mixBlock_length, ← h, min_self], fun _ _ _ => mixBlock_getElem?⟩

/-- Subtracting 128 flips bit 7 (47_mixer R171). -/
theorem remap_eq_xor (x : Byte) : remap x = x ^^^ 0x80#8 := by
  revert x
  decide

/-! ## The mix of two sequences of any lengths -/

/-- The block of two sequences with the shorter one padded, as `MIX_END` emits it (47_mixer R173). -/
def mixPadded (a b : Bytes) : Bytes := mixBlock (padTo (max a.length b.length) a) (padTo (max a.length b.length) b)

theorem mixPadded_length (a b : Bytes) : (mixPadded a b).length = 2 * max a.length b.length := by simp [mixPadded]

theorem padTo_append (n : Nat) (x c : Bytes) : padTo (x.length + n) (x ++ c) = x ++ padTo n c := by
  rw [padTo, padTo, List.length_append, Nat.add_sub_add_left, List.append_assoc]

/-- Samples mixed early are the first samples of the whole mix (47_mixer R174). -/
theorem mixPadded_append {x y : Bytes} (c d : Bytes) (h : x.length = y.length) :
    mixPadded (x ++ c) (y ++ d) = mixBlock x y ++ mixPadded c d := by
  have hmax : max (x ++ c).length (y ++ d).length = x.length + max c.length d.length := by
    rw [List.length_append, List.length_append, ← h, Nat.add_max_add_left]
  rw [mixPadded, hmax, padTo_append, h, padTo_append, mixBlock_append _ _ h, mixPadded]

theorem padTo_getElem? {n i : Nat} (s : Bytes) (hi : i < n) : (padTo n s)[i]? = some (s.getD i 0#8) := by
  rw [padTo, List.getD_eq_getElem?_getD]
  by_cases hs : i < s.length
  · rw [List.getElem?_append_left hs, List.getElem?_eq_getElem hs, Option.getD_some]
  · have hs := Nat.le_of_not_lt hs
    rw [List.getElem?_append_right hs, zeros, List.getElem?_replicate_of_lt (by omega), List.getElem?_eq_none hs,
      Option.getD_none]

theorem mixPadded_getElem? {a b : Bytes} {i : Nat} (hi : i < max a.length b.length) :
    (mixPadded a b)[2 * i]? = some (b.getD i 0#8 ^^^ 0x80#8) ∧
      (mixPadded a b)[2 * i + 1]? = some (a.getD i 0#8 ^^^ 0x80#8) := by
  rw [← remap_eq_xor, ← remap_eq_xor]
  exact mixBlock_getElem? (padTo_getElem? a hi) (padTo_getElem? b hi)

/-! ## What a mix will have emitted -/

/-- The bytes on `MOUT` and `TOTAL` as they will be once `r` has been pushed to the queues and the mix is finished. -/
def MixIO.final (m : MixIO) (r : QueueName → Bytes) : Bytes × Nat :=
  (m.mout ++ mixPadded (m.mix.qa ++ r .qa) (m.mix.qb ++ r .qb),
    m.mix.total.toNat + 2 * max (m.mix.qa ++ r .qa).length (m.mix.qb ++ r .qb).length)

/-- A push moves its bytes from those still to come to a queue (47_mixer R170). -/
theorem qpush_final {cfg : Config} {q : QueueName} {p : Bytes} {m m' : MixIO} (h : qpush cfg q p m = .go m')
    (r : QueueName → Bytes) : m'.final r = m.final (fun q' => pushedTo q' [.mixPush q p] ++ r q') := by
  rcases qpush_cases cfg q p m with ⟨_, hq⟩ | ⟨_, hq⟩ <;> rw [hq] at h <;> cases h
  cases q <;> simp [MixIO.final, Mix.setQueue, Mix.queue, pushedTo]

/-- A step moves whole samples from the queues to `MOUT` (47_mixer R172). -/
theorem mixRun_final {m m' : MixIO} (h : mixRun m = .go m') (r : QueueName → Bytes) : m'.final r = m.final r := by
  rcases mixRun_cases m with ⟨t, ht, hrun⟩ | ⟨_, hrun⟩ <;> rw [hrun] at h <;> cases h
  generalize hn : min m.mix.qa.length m.mix.qb.length = n at ht
  have htake : (m.mix.qa.take n).length = (m.mix.qb.take n).length := by simp; omega
  have hout : mixPadded (m.mix.qa ++ r .qa) (m.mix.qb ++ r .qb) =
      mixBlock m.mix.qa m.mix.qb ++ mixPadded (m.mix.qa.drop n ++ r .qa) (m.mix.qb.drop n ++ r .qb) := by
    rw [← mixBlock_take, hn, ← mixPadded_append _ _ htake, ← List.append_assoc, ← List.append_assoc,
      List.take_append_drop, List.take_append_drop]
  refine Prod.ext ?_ ?_
  · simp only [MixIO.final, mixRunOut, hn, hout, List.append_assoc]
  · simp only [MixIO.final, mixRunOut, hn, ht, List.length_append, List.length_drop]
    omega

/-- The end emits what the queues still hold, padded (47_mixer R173). -/
theorem mixEnd_final {m m' : MixIO} (h : mixEnd m = .go m') :
    (m'.mout, m'.mix.total.toNat) = m.final (fun _ => []) := by
  rcases mixEnd_cases m with ⟨t, ht, hend⟩ | ⟨_, hend⟩ <;> rw [hend] at h <;> cases h
  simp only [MixIO.final, List.append_nil, ht]
  rfl

/-! ## One command -/

theorem mixWhenActive_of_active {m : MixIO} (h : m.mix.phase = .active) (body : MixIO → Flow MixIO) :
    m.whenActive body = MixIO.settle (body m) := if_pos h

theorem mixWhenActive_of_halted {m : MixIO} (h : m.mix.phase = .halted) (body : MixIO → Flow MixIO) :
    m.whenActive body = m := if_neg (by simp [h])

/-- The invariant of feeding: from `m₀`, with `p` pushed since, the mixer has halted or is on the way to the mix that
`m₀` followed by `p` gives. -/
def MixIO.Fed (m₀ : MixIO) (p : QueueName → Bytes) (m : MixIO) : Prop :=
  m.mix.phase = .halted ∨ (m.mix.phase = .active ∧ ∀ r, m.final r = m₀.final (fun q => p q ++ r q))

/-- A body that keeps the phase and moves `p'` into the machine keeps the invariant. -/
theorem mixWhenActive_fed {m₀ m : MixIO} {p p' : QueueName → Bytes} {body : MixIO → Flow MixIO}
    (hkeeps : m.mix.Keeps (body m).state.mix)
    (hfinal : ∀ m', body m = .go m' → ∀ r, m'.final r = m.final (fun q => p' q ++ r q)) (h : m₀.Fed p m) :
    m₀.Fed (fun q => p q ++ p' q) (m.whenActive body) := by
  rcases h with hhalted | ⟨hactive, hm⟩
  · rw [mixWhenActive_of_halted hhalted]
    exact .inl hhalted
  · rw [mixWhenActive_of_active hactive]
    cases hbody : body m with
    | go m' =>
      rw [hbody] at hkeeps
      refine .inr ⟨hkeeps.phase.trans hactive, fun r => ?_⟩
      simp only [MixIO.settle, hfinal m' hbody, hm, List.append_assoc]
    | raised f m' => exact .inl rfl

theorem mixFeed_fed {i : Instr} {m₀ m m' : MixIO} {p : QueueName → Bytes} (hfeed : isMixFeed i = true)
    (heffect : MixEffect m i m') (h : m₀.Fed p m) : m₀.Fed (fun q => p q ++ pushedTo q [i]) m' := by
  cases heffect with
  | push q b => exact mixWhenActive_fed (qpush_keeps q b m) (fun _ => qpush_final) h
  | mixStep => exact mixWhenActive_fed (mixRun_keeps m) (fun _ => mixRun_final) h
  | other i hunit => cases i with
    | mixPush | mixStep => exact absurd rfl hunit
    | _ => cases hfeed
  | _ => cases hfeed

/-- A `MIX_FINISH` that finishes emits what was still owed (48_commands R194). -/
theorem mixFinish_final {m₀ m m' : MixIO} {p : QueueName → Bytes} (heffect : MixEffect m .mixFinish m')
    (hfinished : m'.mix.phase = .finished) (h : m₀.Fed p m) : (m'.mout, m'.mix.total.toNat) = m₀.final p := by
  cases heffect with
  | other _ hunit => exact absurd rfl hunit
  | finish =>
    rcases h with hhalted | ⟨hactive, hm⟩
    · rw [mixWhenActive_of_halted hhalted, hhalted] at hfinished
      cases hfinished
    · rw [mixWhenActive_of_active hactive] at hfinished ⊢
      cases hend : mixEnd m with
      | go x =>
        have hp : m.final (fun _ => []) = m₀.final p := by simpa using hm fun _ => []
        exact (mixEnd_final hend).trans hp
      | raised f x =>
        rw [hend] at hfinished
        cases hfinished

/-! ## A list of commands -/

theorem runList_cons {i : Instr} {is : List Instr} {s t : State} (h : runList (i :: is) s = some t) :
    ∃ u, exec i s = .next u ∧ runList is u = some t := by
  rw [runList] at h
  cases hexec : exec i s with
  | next u => exact ⟨u, rfl, by rwa [hexec] at h⟩
  | fault _ | refused _ =>
    rw [hexec] at h
    cases h

theorem runList_append {l l' : List Instr} {s t : State} (h : runList (l ++ l') s = some t) :
    ∃ u, runList l s = some u ∧ runList l' u = some t := by
  induction l generalizing s with
  | nil => exact ⟨s, rfl, h⟩
  | cons i is ih =>
    obtain ⟨s1, hexec, hrest⟩ := runList_cons h
    obtain ⟨u, his, hl'⟩ := ih hrest
    exact ⟨u, by rw [runList, hexec]; exact his, hl'⟩

theorem pushedTo_cons (q : QueueName) (i : Instr) (is : List Instr) :
    pushedTo q (i :: is) = pushedTo q [i] ++ pushedTo q is := by
  cases i with
  | mixPush q' p =>
    simp only [pushedTo]
    split
    · rw [List.append_nil]
    · rfl
  | _ => rfl

theorem runList_fed {l : List Instr} {s t : State} {m₀ : MixIO} {p : QueueName → Bytes}
    (hfeed : ∀ i ∈ l, isMixFeed i = true) (hrun : runList l s = some t) (h : m₀.Fed p s.mixIO) :
    m₀.Fed (fun q => p q ++ pushedTo q l) t.mixIO := by
  induction l generalizing s p with
  | nil =>
    cases hrun
    simpa only [pushedTo, List.append_nil] using h
  | cons i is ih =>
    obtain ⟨hi, his⟩ := List.forall_mem_cons.1 hfeed
    obtain ⟨u, hexec, hrest⟩ := runList_cons hrun
    simpa only [pushedTo_cons _ i is, List.append_assoc] using ih his hrest (mixFeed_fed hi (exec_mix hexec) h)

/-- A mix that finishes has emitted what its start and the bytes pushed give (47_mixer R174). -/
theorem runList_mix_final {l : List Instr} {s t : State} (hactive : s.mix.phase = .active)
    (hfeed : ∀ i ∈ l, isMixFeed i = true) (hrun : runList (l ++ [.mixFinish]) s = some t)
    (hfinished : t.mix.phase = .finished) :
    (t.ports.mout, t.mix.total.toNat) = s.mixIO.final (fun q => pushedTo q l) := by
  obtain ⟨u, hl, hlast⟩ := runList_append hrun
  obtain ⟨t', hfinish, hend⟩ := runList_cons hlast
  obtain rfl := Option.some.inj hend
  have hstart : s.mixIO.Fed (fun _ => []) s.mixIO := .inr ⟨hactive, fun _ => rfl⟩
  exact mixFinish_final (exec_mix hfinish) hfinished (runList_fed hfeed hl hstart)

/-- Settles O60: the mix starts with empty queues and `TOTAL` 0, so what left is the mix of the bytes pushed alone. -/
theorem mixTotalsIgnoreFeedingOrder : Obligations.MixTotalsIgnoreFeedingOrder := by
  rintro s t l a b m hmix hfeed hrun hfinished rfl rfl rfl
  have hfinal := runList_mix_final (by rw [hmix]) hfeed hrun hfinished
  simp only [MixIO.final, State.mixIO, hmix, List.nil_append, Prod.mk.injEq] at hfinal
  obtain ⟨hout, htotal⟩ := hfinal
  rw [hout]
  refine ⟨htotal.trans (Nat.zero_add _), List.prefix_append _ _, by rw [List.length_append, mixPadded_length],
    fun i hi => ?_⟩
  rw [Nat.add_assoc, List.getElem?_append_right (Nat.le_add_right _ _), Nat.add_sub_cancel_left,
    List.getElem?_append_right (Nat.le_add_right _ _), Nat.add_sub_cancel_left]
  exact mixPadded_getElem? hi

end Sys2Proof.Machine
end

section
/-! The commands of the command chapter (48_commands), unit by unit: what a command does while its unit is `Active`, as
one equation per unit, and that it is refused otherwise. -/

namespace Sys2Proof.Machine

/-! ## A unit put back into the machine -/

/-- `DEC` and its ports replaced. -/
def State.withDecIO (s : State) (d : DecIO) : State :=
  { s with dec := d.dec, ports := { s.ports with doutA := d.doutA, doutB := d.doutB } }

/-- `ENC[u]` and its port replaced. -/
def State.withEncIO (s : State) (u : EncIndex) (io : EncIO) : State :=
  { s.setEnc u io.enc with ports := s.ports.setEout u io.eout }

/-- `MIX` and its port replaced. -/
def State.withMixIO (s : State) (m : MixIO) : State :=
  { s with mix := m.mix, ports := { s.ports with mout := m.mout } }

section Active

variable {s : State}

/-- A command of an `Active` `DEC` does to the machine what its body does to `DEC` (48_commands R181, R196). -/
theorem whenActive_onDec_active (hactive : s.dec.phase = .active) (k : DecIO → Flow DecIO) :
    s.whenActive .dec (fun s1 => s1.onDec k) = s.withDecIO (DecIO.settle (k s.decIO)) := by
  rw [whenActive_active (u := .dec) hactive, show s.onDec k = (k s.decIO).map s.withDecIO from rfl]
  cases k s.decIO <;> rfl

/-- The same of an encoder. -/
theorem whenActive_onEnc_active {u : EncIndex} (hactive : (s.enc u).phase = .active) (k : EncIO → Flow EncIO) :
    s.whenActive (.enc u) (fun s1 => s1.onEnc u k) = s.withEncIO u (EncIO.settle (k (s.encIO u))) := by
  rw [whenActive_active (u := .enc u) hactive, show s.onEnc u k = (k (s.encIO u)).map (s.withEncIO u) from rfl]
  cases k (s.encIO u) with
  | go io => rfl
  | raised f io => cases u <;> rfl

/-- The same of `MIX`. -/
theorem whenActive_onMix_active (hactive : s.mix.phase = .active) (k : MixIO → Flow MixIO) :
    s.whenActive .mix (fun s1 => s1.onMix k) = s.withMixIO (MixIO.settle (k s.mixIO)) := by
  rw [whenActive_active (u := .mix) hactive, show s.onMix k = (k s.mixIO).map s.withMixIO from rfl]
  cases k s.mixIO <;> rfl

/-- `DEC_FINISH` of an `Active` `DEC` (48_commands R187). -/
theorem exec_decFinish_active (hactive : s.dec.phase = .active) : exec .decFinish s =
    .next (s.withDecIO (DecIO.settle ((decFinishBody Config.build s.decIO).andThen DecIO.close))) := by
  simp only [exec, execDecFinish, onDec_closeUnit, whenActive_onDec_active hactive]

/-- `ENC_FINISH` of an `Active` encoder (48_commands R190). -/
theorem exec_encFinish_active {u : EncIndex} (hactive : (s.enc u).phase = .active) : exec (.encFinish u) s =
    .next (s.withEncIO u (EncIO.settle ((encFlush Config.build (s.encIO u)).andThen EncIO.close))) := by
  simp only [exec, execEncFinish, onEnc_closeUnit, whenActive_onEnc_active hactive]

/-- `MIX_PUSH` to an `Active` `MIX` (48_commands R192). -/
theorem exec_mixPush_active (hactive : s.mix.phase = .active) (q : QueueName) (p : Bytes) :
    exec (.mixPush q p) s = .next (s.withMixIO (MixIO.settle (qpush Config.build q p s.mixIO))) :=
  congrArg Host.Outcome.next (whenActive_onMix_active hactive _)

/-- `MIX_STEP` of an `Active` `MIX` (48_commands R193). -/
theorem exec_mixStep_active (hactive : s.mix.phase = .active) :
    exec .mixStep s = .next (s.withMixIO (MixIO.settle (mixRun s.mixIO))) :=
  congrArg Host.Outcome.next (whenActive_onMix_active hactive _)

/-- `MIX_FINISH` of an `Active` `MIX` (48_commands R194). -/
theorem exec_mixFinish_active (hactive : s.mix.phase = .active) : exec .mixFinish s =
    .next (s.withMixIO (MixIO.settle ((mixEnd s.mixIO).andThen MixIO.close))) := by
  simp only [exec, execMixFinish, onMix_closeUnit, whenActive_onMix_active hactive]

end Active

/-! ## Out of phase -/

/-- A unit that is not `Active` runs no body (48_commands R181). -/
theorem next_whenActive_refused {s : State} {u : UnitName} (hphase : s.phase u ≠ .active) (body : State → Flow State) :
    (Host.Outcome.next (s.whenActive u body) : Host.Outcome State Fault Refusal) = .next { s with cmdErr := 4#8 } :=
  congrArg Host.Outcome.next (if_neg hphase)

/-- Settles O19: a unit's commands but its `INIT` are bodies run only while it is `Active`. -/
theorem onlyActiveUnitsRun : Obligations.OnlyActiveUnitsRun := by
  intro i u s hunit hinit hphase
  cases i with
  | nop | reset | rdreg | wrreg => cases hunit
  | decInit | encInit | mixInit => cases hunit; exact absurd rfl hinit
  | decPush | decFinish | encPush | encFinish | mixPush | mixStep | mixFinish =>
    cases hunit; exact next_whenActive_refused hphase _

end Sys2Proof.Machine
end

section
/-! The general commands (48_commands section 2): `NOP`, `RESET`, and `WRREG` check by check, the phase before the value
(90_conflicts C8). -/

namespace Sys2Proof.Machine

/-! ## `NOP` and `RESET` -/

theorem hasPayload_of_format_n {o : Opcode} (hformat : formatOf o = .n) : hasPayload o = false := by
  cases o <;> simp [formatOf, hasPayload] at hformat ⊢

/-- A command of format `N`, sent with any of its fields set (30_encoding R62, R65). -/
theorem decode_of_field_set {w : Word64} {o : Opcode} (hop : opField w = opCode o) (hformat : formatOf o = .n)
    (hset : selField w ≠ 0 ∨ rsvdField w ≠ 0 ∨ argField w ≠ 0) : decode ⟨w, []⟩ = .refused .eRsvd := by
  have hreserved : reservedBitsSet (formatOf o) w := by
    rw [hformat]
    by_contra hclear
    obtain ⟨hrsvd, hsel, harg⟩ := not_reserved_n.1 hclear
    simp [hrsvd, hsel, harg] at hset
  calc decode ⟨w, []⟩
    _ = decodeAs w [] o :=
      decode_of_opcode (payloadLength_of_no_payload hop (hasPayload_of_format_n hformat)).symm (opcodeOf_eq_some.2 hop)
    _ = .refused .eRsvd := decodeAs_of_reserved [] hreserved

/-- Settles O13: `NOP` is of format `N`. -/
theorem nopDoesNothing : Obligations.NopDoesNothing :=
  ⟨fun _ => rfl, fun _ hop hset => decode_of_field_set (o := .nop) hop rfl hset⟩

/-- Settles O14, field by field. -/
theorem resetCommandResets : Obligations.ResetCommandResets := fun _ => rfl

/-! ## `WRREG` -/

section Write

variable {r : Reg} {u : UnitName} {w : Nat} {sel : BitVec 8} {v : BitVec 32} {s : State}

/-- The phase is checked first (48_commands R186). -/
theorem writeReg_of_active (haccess : regAccess r = .rw u w) (hphase : s.phase u = .active) :
    writeReg r v s = s.refuse .ePhase := by
  simp only [writeReg, haccess, if_pos hphase]

/-- Then the value (48_commands R186). -/
theorem writeReg_of_tooWide (haccess : regAccess r = .rw u w) (hphase : s.phase u ≠ .active) (hwide : 2 ^ w ≤ v.toNat) :
    writeReg r v s = s.refuse .eArg := by
  simp only [writeReg, haccess, if_neg hphase, if_pos hwide]

/-- A value that fits is stored (48_commands R186). -/
theorem writeReg_of_fits (haccess : regAccess r = .rw u w) (hphase : s.phase u ≠ .active) (hfits : v.toNat < 2 ^ w) :
    writeReg r v s = storeReg v s r := by
  simp only [writeReg, haccess, if_neg hphase, if_neg (not_le.2 hfits)]

theorem writeReg_of_readOnly (haccess : regAccess r = .ro) : writeReg r v s = s.refuse .eArg := by
  simp only [writeReg, haccess]

theorem exec_wrreg_active (hreg : regOf sel = some r) (haccess : regAccess r = .rw u w) (hphase : s.phase u = .active) :
    exec (.wrreg sel v) s = .next { s with cmdErr := 4#8 } :=
  (exec_wrreg_of_reg hreg v s).trans (congrArg Host.Outcome.next (writeReg_of_active haccess hphase))

theorem exec_wrreg_tooWide (hreg : regOf sel = some r) (haccess : regAccess r = .rw u w) (hphase : s.phase u ≠ .active)
    (hwide : 2 ^ w ≤ v.toNat) : exec (.wrreg sel v) s = .next { s with cmdErr := 5#8 } :=
  (exec_wrreg_of_reg hreg v s).trans (congrArg Host.Outcome.next (writeReg_of_tooWide haccess hphase hwide))

theorem exec_wrreg_fits (hreg : regOf sel = some r) (haccess : regAccess r = .rw u w) (hphase : s.phase u ≠ .active)
    (hfits : v.toNat < 2 ^ w) : exec (.wrreg sel v) s = .next (storeReg v s r) :=
  (exec_wrreg_of_reg hreg v s).trans (congrArg Host.Outcome.next (writeReg_of_fits haccess hphase hfits))

end Write

/-- The numbers of an encoder's four configuration registers (10_state R31). -/
theorem regOf_encBank (u : EncIndex) :
    regOf (encBank u 1#8) = some (.encCfgMode u) ∧ regOf (encBank u 2#8) = some (.encCfgNch u) ∧
      regOf (encBank u 3#8) = some (.encCfgRate u) ∧ regOf (encBank u 4#8) = some (.encCfgDelayMs u) := by
  cases u <;> decide

theorem regOf_decNch : regOf 0x12#8 = some .decNch := by decide

/-- The numbers of the map that are not writable name read-only registers (10_state R31). -/
theorem regOf_readOnly (sel : BitVec 8) : sel.toNat ∈ registerNumbers → sel.toNat ∉ writableNumbers →
    (regOf sel).map regAccess = some .ro := by
  revert sel
  decide

/-- Settles O17: every number's register, and that the value fits its width. -/
theorem wrregStores : Obligations.WrregStores := by
  intro s v
  refine ⟨rfl, fun hphase hfits => exec_wrreg_fits regOf_decNch rfl hphase hfits, fun u hphase => ?_⟩
  obtain ⟨hmode, hnch, hrate, hdelay⟩ := regOf_encBank u
  exact ⟨fun hfits => exec_wrreg_fits hmode rfl hphase hfits, fun hfits => exec_wrreg_fits hnch rfl hphase hfits,
    exec_wrreg_fits hrate rfl hphase v.isLt, exec_wrreg_fits hdelay rfl hphase v.isLt⟩

/-- Settles O18, in the order of the checks. -/
theorem wrregRefusesInOrder : Obligations.WrregRefusesInOrder := by
  intro s v
  refine ⟨fun hphase => exec_wrreg_active regOf_decNch rfl hphase,
    fun hphase hwide => exec_wrreg_tooWide regOf_decNch rfl hphase hwide, ?encActive, ?encWide, ?readOnly⟩
  case encActive =>
    intro u hphase k hk
    obtain ⟨hmode, hnch, hrate, hdelay⟩ := regOf_encBank u
    simp only [List.mem_cons, List.not_mem_nil, or_false] at hk
    rcases hk with rfl | rfl | rfl | rfl
    · exact exec_wrreg_active hmode rfl hphase
    · exact exec_wrreg_active hnch rfl hphase
    · exact exec_wrreg_active hrate rfl hphase
    · exact exec_wrreg_active hdelay rfl hphase
  case encWide =>
    intro u hphase
    obtain ⟨hmode, hnch, _, _⟩ := regOf_encBank u
    exact ⟨fun hwide => exec_wrreg_tooWide hmode rfl hphase hwide,
      fun hwide => exec_wrreg_tooWide hnch rfl hphase hwide⟩
  case readOnly =>
    intro sel hmem hnot
    obtain ⟨r, hreg, haccess⟩ := Option.map_eq_some_iff.1 (regOf_readOnly sel hmem hnot)
    exact (exec_wrreg_of_reg hreg v s).trans (congrArg Host.Outcome.next (writeReg_of_readOnly haccess))

end Sys2Proof.Machine
end

section
/-! The commands of `DEC` (48_commands section 3): the two outcomes of `DEC_INIT`, and what `DEC_PUSH` and `DEC_FINISH` do
in each decided mode, both by way of the tracks that mode makes active. -/

namespace Sys2Proof.Machine

/-- Settles O31: `NCH` decides, and the new stream's `BPS` are `2 * NCH`, `NCH` and `NCH`. -/
theorem decInitOpensAStream : Obligations.DecInitOpensAStream := by
  intro s
  refine ⟨fun hnch => if_pos hnch, fun hnch => ?_⟩
  have hopen : exec .decInit s = .next (({ s with dec := s.dec.newStream }).openUnit .dec) := if_neg hnch
  rw [hopen, BitVec.ofNat_toNat]
  rfl

/-! ## The active tracks -/

section Tracks

variable {d : DecIO} {k : Track → Flow Track} {a b : Track}

/-- Mode `Full` runs the raw buffer's track (44_extractor R148). -/
theorem onTracks_full (hmode : d.dec.mode = .full) (hraw : k ⟨d.dec.raw, d.doutA⟩ = .go a) :
    d.onTracks k = .go ⟨{ d.dec with raw := a.buf }, a.port, d.doutB⟩ := by
  simp only [DecIO.onTracks, hmode, DecIO.onRaw, hraw, map_go]

/-- Mode `Half` runs the low sub-track (44_extractor R148). -/
theorem onTracks_half (hmode : d.dec.mode = .half) (hlo : k ⟨d.dec.lo, d.doutA⟩ = .go a) :
    d.onTracks k = .go ⟨{ d.dec with lo := a.buf }, a.port, d.doutB⟩ := by
  simp only [DecIO.onTracks, hmode, DecIO.onLoA, hlo, map_go]

/-- Mode `Mix` runs both sub-tracks, the high one feeding `DOUT_A` (44_extractor R148). -/
theorem onTracks_mix (hmode : d.dec.mode = .mix) (hhi : k ⟨d.dec.hi, d.doutA⟩ = .go a)
    (hlo : k ⟨d.dec.lo, d.doutB⟩ = .go b) :
    d.onTracks k = .go ⟨{ d.dec with lo := b.buf, hi := a.buf }, a.port, b.port⟩ := by
  simp only [DecIO.onTracks, hmode, DecIO.onLoB, hlo, map_go, andThen_go, DecIO.onHi, hhi]

end Tracks

/-! ## `DEC_PUSH` -/

section Push

variable {cfg : Config} {d : Dec} {p : Bytes}

/-- `APPEND_PACKED` where neither test fails (42_buffer R102). -/
theorem appendPacked_fits {b : Buffer} {lane : Lane} (hcap : overCap cfg (b.window.length + p.length / 2) = false)
    (hin : b.inSamples.toNat + p.length / 2 / b.bps.toNat < 2 ^ 64) :
    b.appendPacked cfg lane p = .go (b.fed (laneBytes lane p)) :=
  append_fits (by rwa [laneBytes_length]) (by rwa [laneBytes_length])

/-- In mode `Full` the payload extends the raw buffer (48_commands R185). -/
theorem takePayload_full (hmode : d.mode = .full) (hcap : overCap cfg (d.raw.window.length + p.length) = false)
    (hin : d.raw.inSamples.toNat + p.length / d.raw.bps.toNat < 2 ^ 64) :
    takePayload cfg d p = .go { d with raw := d.raw.fed p } := by
  simp only [takePayload, hmode, Dec.onRaw, append_fits hcap hin, map_go]
  rfl

/-- In mode `Half` its low lane extends the low sub-track (48_commands R185). -/
theorem takePayload_half (hmode : d.mode = .half) (hcap : overCap cfg (d.lo.window.length + p.length / 2) = false)
    (hin : d.lo.inSamples.toNat + p.length / 2 / d.lo.bps.toNat < 2 ^ 64) :
    takePayload cfg d p = .go { d with lo := d.lo.fed (laneBytes .low p) } := by
  simp only [takePayload, hmode, Dec.onLo, appendPacked_fits hcap hin, map_go]

/-- In mode `Mix` the low lane is taken first, then the high lane (48_commands R185). -/
theorem takePayload_mix (hmode : d.mode = .mix) (hlo : overCap cfg (d.lo.window.length + p.length / 2) = false)
    (hloIn : d.lo.inSamples.toNat + p.length / 2 / d.lo.bps.toNat < 2 ^ 64) :
    takePayload cfg d p =
      ({ d with lo := d.lo.fed (laneBytes .low p) }).onHi (fun b => b.appendPacked cfg .high p) := by
  simp only [takePayload, hmode, Dec.onLo, appendPacked_fits hlo hloIn, map_go, andThen_go]

theorem takePayload_mix_fits (hmode : d.mode = .mix) (hlo : overCap cfg (d.lo.window.length + p.length / 2) = false)
    (hloIn : d.lo.inSamples.toNat + p.length / 2 / d.lo.bps.toNat < 2 ^ 64)
    (hhi : overCap cfg (d.hi.window.length + p.length / 2) = false)
    (hhiIn : d.hi.inSamples.toNat + p.length / 2 / d.hi.bps.toNat < 2 ^ 64) :
    takePayload cfg d p = .go { d with lo := d.lo.fed (laneBytes .low p), hi := d.hi.fed (laneBytes .high p) } := by
  simp only [takePayload_mix hmode hlo hloIn, Dec.onHi, appendPacked_fits hhi hhiIn, map_go]

/-- A high lane that does not fit is found only after the low lane has been appended (48_commands R185, R196). -/
theorem takePayload_mix_overCap (hmode : d.mode = .mix) (hlo : overCap cfg (d.lo.window.length + p.length / 2) = false)
    (hloIn : d.lo.inSamples.toNat + p.length / 2 / d.lo.bps.toNat < 2 ^ 64)
    (hhi : overCap cfg (d.hi.window.length + p.length / 2) = true) :
    takePayload cfg d p = .raised .bufOvf { d with lo := d.lo.fed (laneBytes .low p) } := by
  simp only [takePayload_mix hmode hlo hloIn, Dec.onHi, appendPacked_overCap .high hhi, map_raised]

/-- The decode loop of a track just fed goes on: it raises only within 1536 samples of `2^64` (60_exceptions R213). -/
theorem extractTrack_fed {b : Buffer} {port : Bytes} (hin : b.inSamples.toNat + p.length / b.bps.toNat + 1536 < 2 ^ 64) :
    ∃ t, extractTrack cfg ⟨b.fed p, port⟩ = .go t := by
  cases hloop : extractTrack cfg ⟨b.fed p, port⟩ with
  | go t => exact ⟨t, rfl⟩
  | raised f t =>
    have hlate : 2 ^ 64 ≤ (b.fed p).inSamples.toNat + 1536 := (extractTrack_raised hloop).2
    have hcount : (b.fed p).inSamples.toNat = b.inSamples.toNat + p.length / b.bps.toNat :=
      Nat.mod_eq_of_lt (Nat.lt_of_add_right_lt hin)
    omega

end Push

section Exec

variable {s : State} {p : Bytes} {x : Dec}

/-- A push whose extraction goes on leaves the unit and its ports as the extraction does (48_commands R185). -/
theorem exec_decPush_of_extracted {d : DecIO} (hactive : s.dec.phase = .active)
    (htaken : takePayload Config.build s.dec p = .go x)
    (hgo : extractAll Config.build ⟨x, s.ports.doutA, s.ports.doutB⟩ = .go d) :
    exec (.decPush p) s = .next (s.withDecIO d) := by
  rw [exec_decPush_of_taken hactive htaken, State.onDec]
  simp only [hgo]
  rfl

/-- A payload taken in part halts the unit with that part (48_commands R196). -/
theorem exec_decPush_of_partial {f : UnitFault} (hactive : s.dec.phase = .active)
    (hraised : takePayload Config.build s.dec p = .raised f x) :
    exec (.decPush p) s = .next { s with dec := { x with phase := .halted, err := faultCode f } } := by
  rw [exec_decPush_active p hactive, State.onDec, decPushBody]
  simp only [hraised]
  rfl

end Exec

/-- Settles O33, mode by mode: the capacity tests, then the decode loops, which do not raise. -/
theorem decPushExtracts : Obligations.DecPushExtracts := by
  intro s p hactive
  refine ⟨?full, ?half, ?mix⟩
  case full =>
    intro hmode hin
    split_ifs with hover
    · exact exec_decPush_of_raised hactive (takePayload_raw_overCap (.inr hmode) hover)
    have htaken := takePayload_full hmode (Bool.eq_false_iff.2 hover) (Nat.lt_of_add_right_lt hin)
    obtain ⟨a, ha⟩ := extractTrack_fed (port := s.ports.doutA) hin
    exact ⟨a, ha, exec_decPush_of_extracted hactive htaken (onTracks_full hmode ha)⟩
  case half =>
    intro hmode hin
    split_ifs with hover
    · exact exec_decPush_of_raised hactive (takePayload_lo_overCap (.inl hmode) hover)
    have htaken := takePayload_half hmode (Bool.eq_false_iff.2 hover) (Nat.lt_of_add_right_lt hin)
    obtain ⟨a, ha⟩ := extractTrack_fed (p := laneBytes .low p) (port := s.ports.doutA) (by rwa [laneBytes_length])
    exact ⟨a, ha, exec_decPush_of_extracted hactive htaken (onTracks_half hmode ha)⟩
  case mix =>
    intro hmode hloIn hhiIn
    split_ifs with hlo hhi
    · exact exec_decPush_of_raised hactive (takePayload_lo_overCap (.inr hmode) hlo)
    · exact exec_decPush_of_partial hactive
        (takePayload_mix_overCap hmode (Bool.eq_false_iff.2 hlo) (Nat.lt_of_add_right_lt hloIn) hhi)
    have htaken := takePayload_mix_fits hmode (Bool.eq_false_iff.2 hlo) (Nat.lt_of_add_right_lt hloIn)
      (Bool.eq_false_iff.2 hhi) (Nat.lt_of_add_right_lt hhiIn)
    obtain ⟨a, ha⟩ := extractTrack_fed (b := s.dec.hi) (p := laneBytes .high p) (port := s.ports.doutA)
      (by rwa [laneBytes_length])
    obtain ⟨b, hb⟩ := extractTrack_fed (b := s.dec.lo) (p := laneBytes .low p) (port := s.ports.doutB)
      (by rwa [laneBytes_length])
    exact ⟨a, b, ha, hb, exec_decPush_of_extracted hactive htaken (onTracks_mix hmode ha hb)⟩

/-! ## `DEC_FINISH` -/

/-- Settles O42: without a format the drain is not reached. -/
theorem decFinishWithoutFormatFaults : Obligations.DecFinishWithoutFormatFaults := by
  intro s hactive hmode
  rcases decFinishBody_cases Config.build s.decIO with ⟨_, hraised⟩ | ⟨hdecided, _⟩
  · rw [exec_decFinish_active hactive, hraised]
    rfl
  · exact absurd hmode hdecided

/-- The drain of a track whose input is not within 512 samples of `2^64` (44_extractor R142). -/
theorem drainTrack_fits {cfg : Config} {t : Track} {n : Nat}
    (hn : n = silenceCount t.buf.outSamples.toNat t.buf.inSamples.toNat)
    (hin : t.buf.inSamples.toNat + 512 < 2 ^ 64) :
    drainTrack cfg t = .go ⟨t.buf.emitted n, t.port ++ templates cfg (channelCountOf t.buf.hdr) n⟩ := by
  have hout := t.buf.outSamples.isLt
  exact driftTo_fits hn (by rw [hn, silenceCount]; omega)

/-- With the mode decided the unit finishes as its drain leaves it (48_commands R187). -/
theorem exec_decFinish_of_drained {s : State} {d : DecIO} (hactive : s.dec.phase = .active)
    (hmode : s.dec.mode ≠ .unknown) (hgo : drain Config.build s.decIO = .go d) :
    exec .decFinish s = .next (s.withDecIO { d with dec := { d.dec with phase := .finished } }) := by
  rcases decFinishBody_cases Config.build s.decIO with ⟨hunknown, _⟩ | ⟨_, hdrain⟩
  · exact absurd hunknown hmode
  · rw [exec_decFinish_active hactive, hdrain, hgo]
    rfl

/-- Settles O43: each mode's tracks are drained by the least silence. -/
theorem decFinishDrains : Obligations.DecFinishDrains := by
  intro s nr nl nh hactive hnr hnl hnh
  refine ⟨fun hmode hin => ?_, fun hmode hin => ?_, fun hmode hloIn hhiIn => ?_⟩
  · exact exec_decFinish_of_drained hactive (by simp [hmode])
      (onTracks_full (d := s.decIO) hmode (drainTrack_fits hnr hin))
  · exact exec_decFinish_of_drained hactive (by simp [hmode])
      (onTracks_half (d := s.decIO) hmode (drainTrack_fits hnl hin))
  · exact exec_decFinish_of_drained hactive (by simp [hmode])
      (onTracks_mix (d := s.decIO) hmode (drainTrack_fits hnh hhiIn) (drainTrack_fits hnl hloIn))

end Sys2Proof.Machine
end

section
/-! The commands of `ENC[u]` and of `MIX` (48_commands sections 4 and 5): opening, and what each body answers where its
counter fits and where it does not. -/

namespace Sys2Proof.Machine

/-! ## `ENC_INIT` and `ENC_FINISH` -/

/-- Settles O49: the configuration decides. -/
theorem encInitOpensAStream : Obligations.EncInitOpensAStream := by
  intro s u
  refine ⟨fun hcfg => if_pos hcfg, fun hmode hnch => ?_⟩
  have hopen : exec (.encInit u) s = .next ((s.setEnc u (s.enc u).newStream).openUnit (.enc u)) :=
    if_neg (not_or.2 ⟨hmode, hnch⟩)
  rw [hopen]
  cases u <;> rfl

section Flush

variable {cfg : Config} {io : EncIO}

/-- With nothing left `ENC_FLUSH` emits nothing (45_wrapper R160). -/
theorem encFlush_empty (hempty : io.enc.acc.window = []) : encFlush cfg io = .go io :=
  if_pos (by rw [hempty, List.length_nil])

/-- What is left is sent as one slot and consumed (45_wrapper R160). -/
theorem encFlush_fits (hleft : io.enc.acc.window ≠ []) (hfits : io.enc.acc.outSamples.toNat + 1024 < 2 ^ 64) :
    encFlush cfg io = .go ⟨{ io.enc with acc := { io.enc.acc.emitted 1 with window := [] } },
      io.eout ++ packedSlot cfg io.enc io.enc.acc.window⟩ := by
  rw [encFlush, if_neg (mt List.length_eq_zero_iff.1 hleft), wrapEmit_eq_sent hfits, andThen_go]
  simp only [EncIO.consume, Buffer.consume, EncIO.sent, Buffer.emitted, List.drop_length]

/-- Where the counter does not fit, the slot has been sent and nothing is consumed (log 11). -/
theorem encFlush_overflows (hleft : io.enc.acc.window ≠ []) (hover : 2 ^ 64 ≤ io.enc.acc.outSamples.toNat + 1024) :
    encFlush cfg io = .raised .cntOvf (io.emit (packedSlot cfg io.enc io.enc.acc.window)) := by
  rw [encFlush, if_neg (mt List.length_eq_zero_iff.1 hleft)]
  rcases wrapEmit_cases cfg io io.enc.acc.window with ⟨n, hn, _⟩ | ⟨_, hraised⟩
  · have := n.isLt
    omega
  · rw [hraised]
    rfl

end Flush

/-- Settles O54: the three ways `ENC_FLUSH` ends. -/
theorem encFinishFlushesTheResidue : Obligations.EncFinishFlushesTheResidue := by
  intro s u hactive
  rw [exec_encFinish_active hactive]
  refine ⟨fun hempty => ?_, fun hleft hfits => ?_, fun hleft hover => ?_⟩
  · rw [encFlush_empty (io := s.encIO u) hempty]
    cases u <;> rfl
  · rw [encFlush_fits (io := s.encIO u) hleft hfits]
    rfl
  · rw [encFlush_overflows (io := s.encIO u) hleft hover]
    rfl

/-! ## `MIX_INIT` and `MIX_PUSH` -/

/-- Settles O56, field by field. -/
theorem mixInitOpensAMix : Obligations.MixInitOpensAMix := fun _ => rfl

/-- A push to either queue of an `Active` `MIX` (48_commands R192). -/
theorem exec_mixPush_queue {s : State} (hactive : s.mix.phase = .active) (q : QueueName) (p : Bytes) :
    exec (.mixPush q p) s =
      if overCap Config.build ((s.mix.queue q).length + p.length) then
        .next { s with mix := { s.mix with phase := .halted, err := 0x11#8 } }
      else .next { s with mix := s.mix.setQueue q (s.mix.queue q ++ p) } := by
  rw [exec_mixPush_active hactive]
  split_ifs with hover
  · rw [qpush_overCap (q := q) (m := s.mixIO) hover]
    rfl
  · rcases qpush_cases Config.build q p s.mixIO with ⟨hover', _⟩ | ⟨_, hgo⟩
    · exact absurd hover' hover
    · rw [hgo]
      rfl

/-- Settles O57, queue by queue. -/
theorem mixPushQueues : Obligations.MixPushQueues :=
  fun _ p hactive => ⟨exec_mixPush_queue hactive .qa p, exec_mixPush_queue hactive .qb p⟩

/-! ## `MIX_STEP` and `MIX_FINISH` -/

section Total

variable {m : MixIO} {n : Nat}

theorem addTotal_fits (hfits : m.mix.total.toNat + n < 2 ^ 64) :
    m.addTotal n = .go { m with mix := { m.mix with total := BitVec.ofNat 64 (m.mix.total.toNat + n) } } := by
  rw [MixIO.addTotal, addCounter_fits hfits]

theorem addTotal_overflows (hover : 2 ^ 64 ≤ m.mix.total.toNat + n) : m.addTotal n = .raised .cntOvf m := by
  rw [MixIO.addTotal, addCounter_none.2 hover]

end Total

/-- What `MIX_RUN` emits and drops before it adds to the total (47_mixer R172). -/
def MixIO.stepped (m : MixIO) (n : Nat) : MixIO where
  mix := { m.mix with qa := m.mix.qa.drop n, qb := m.mix.qb.drop n }
  mout := m.mout ++ mixBlock (m.mix.qa.take n) (m.mix.qb.take n)

theorem mixRun_eq (m : MixIO) : mixRun m =
    (m.stepped (min m.mix.qa.length m.mix.qb.length)).addTotal (2 * min m.mix.qa.length m.mix.qb.length) := rfl

/-- `MIX_END` adds to the total last as well (47_mixer R173). -/
theorem mixEnd_eq (m : MixIO) : mixEnd m = (mixEndOut m).addTotal (2 * max m.mix.qa.length m.mix.qb.length) := rfl

/-- Settles O58: the word, the phase, then the total. -/
theorem mixStepMixesWhatBothHold : Obligations.MixStepMixesWhatBothHold := by
  refine ⟨decodeInvertsEncode .mixStep rfl, fun w hop hset => decode_of_field_set (o := .mixStep) hop rfl hset,
    fun s hphase => next_whenActive_refused (u := .mix) hphase _, ?_⟩
  rintro s n hactive rfl
  rw [exec_mixStep_active hactive, mixRun_eq]
  refine ⟨fun hfits => ?_, fun hover => ?_⟩
  · rw [addTotal_fits hfits]
    rfl
  · rw [addTotal_overflows hover]
    rfl

/-- Settles O59: the word, the registers, the phase, then the total. -/
theorem mixFinishPadsTheTail : Obligations.MixFinishPadsTheTail := by
  refine ⟨decodeInvertsEncode .mixFinish rfl, fun w hop hset => decode_of_field_set (o := .mixFinish) hop rfl hset,
    fun s t _ => ⟨readsAs_of_reg (r := .mixTotal) (by decide) rfl,
      readsAs_of_reg (r := .mixTotalSat32) (by decide) (totalSat32_view t.mix.total)⟩,
    fun s hphase => next_whenActive_refused (u := .mix) hphase _, ?_⟩
  rintro s m hactive rfl
  rw [exec_mixFinish_active hactive, mixEnd_eq]
  refine ⟨fun hfits => ?_, fun hover => ?_⟩
  · rw [addTotal_fits hfits]
    rfl
  · rw [addTotal_overflows hover]
    rfl

end Sys2Proof.Machine
end

section
/-! What a step can end in (70_reset R230, R231, R246), by the host's next entry: nothing sent, a hardware reset, a
command. -/

namespace Sys2Proof.Machine

/-! ## No instruction stops the machine -/

/-- 70_reset R246: every instruction completes, in every state. -/
theorem exec_next (i : Instr) (s : State) : ∃ t, exec i s = .next t := by
  cases i with
  | rdreg sel =>
    cases hreg : regOf sel with
    | some r => exact ⟨_, exec_rdreg_of_reg hreg s⟩
    | none => exact ⟨_, exec_rdreg_reserved hreg s⟩
  | wrreg sel v =>
    cases hreg : regOf sel with
    | some r => exact ⟨_, exec_wrreg_of_reg hreg v s⟩
    | none => exact ⟨_, exec_wrreg_reserved hreg v s⟩
  | decInit =>
    by_cases hnch : s.dec.nch = 0#8
    · exact ⟨_, if_pos hnch⟩
    · exact ⟨_, if_neg hnch⟩
  | encInit u =>
    by_cases hcfg : (s.enc u).cfgMode = 0#2 ∨ (s.enc u).cfgNch = 0#8
    · exact ⟨_, if_pos hcfg⟩
    · exact ⟨_, if_neg hcfg⟩
  | nop | reset | decPush | decFinish | encPush | encFinish | mixInit | mixPush | mixStep | mixFinish => exact ⟨_, rfl⟩

/-! ## The decoder's third answer -/

/-- The fields of a word are refused or read, never taken for no command (30_encoding R65). -/
theorem decodeAs_ne_notACommand (w : Word64) (p : Bytes) (o : Opcode) : decodeAs w p o ≠ .notACommand := by
  by_cases hreserved : reservedBitsSet (formatOf o) w
  · rw [decodeAs_of_reserved p hreserved]
    nofun
  · rw [decodeAs_of_not_reserved p hreserved]
    cases readOperands w p o <;> nofun

/-- 30_encoding R63: only the length of the payload can make a pair no command. -/
theorem decode_eq_notACommand {c : Command} : decode c = .notACommand ↔ c.payload.length ≠ payloadLength c.word := by
  refine ⟨fun h hlen => ?_, fun hlen => if_neg hlen⟩
  cases hop : opcodeOf (opField c.word) with
  | none => cases (decode_of_no_opcode hlen hop).symm.trans h
  | some o => exact decodeAs_ne_notACommand _ _ _ ((decode_of_opcode hlen hop).symm.trans h)

theorem runCommand_of_notACommand {c : Command} (hdecode : decode c = .notACommand) (s : State) :
    runCommand c s = .fault .notACommand := by
  rw [runCommand, hdecode]

/-- A pair of the right length completes, refused or run (30_encoding R65, 70_reset R246). -/
theorem runCommand_next {c : Command} (hlen : c.payload.length = payloadLength c.word) (s : State) :
    ∃ t, runCommand c s = .next t := by
  cases hdecode : decode c with
  | instr i => rw [runCommand_of_instr hdecode]; exact exec_next i s
  | refused e => exact ⟨_, runCommand_of_refused hdecode s⟩
  | notACommand => exact absurd hlen (decode_eq_notACommand.1 hdecode)

/-! ## The host's next entry -/

theorem step_of_nothing {s : State} (hinput : s.input = []) : step s = .next s := by
  rw [step, hinput]

/-- 70_reset R230: the reset is taken off the queue, then every unit is reset. -/
theorem step_of_hardReset {s : State} {rest : List HostInput} (hinput : s.input = .hardReset :: rest) :
    step s = .next (State.resetUnits { s with input := rest }) := by
  rw [step, hinput]

/-- The next entry is a word with a payload of another length than it asks for (30_encoding R63, log 3). -/
def State.NoCommandNext (s : State) : Prop :=
  ∃ c rest, s.input = .command c :: rest ∧ c.payload.length ≠ payloadLength c.word

/-- A step faults on no command, and completes on anything else. -/
theorem step_cases (s : State) :
    (s.NoCommandNext ∧ step s = .fault .notACommand) ∨ (¬ s.NoCommandNext ∧ ∃ t, step s = .next t) := by
  cases hinput : s.input with
  | nil => exact .inr ⟨fun ⟨c, rest, hcommand, _⟩ => (nomatch hinput.symm.trans hcommand), _, step_of_nothing hinput⟩
  | cons entry rest =>
    cases entry with
    | hardReset =>
      exact .inr ⟨fun ⟨c, rest', hcommand, _⟩ => (nomatch hinput.symm.trans hcommand), _, step_of_hardReset hinput⟩
    | command c =>
      rw [step_of_command hinput]
      by_cases hlen : c.payload.length = payloadLength c.word
      · refine .inr ⟨fun ⟨c', rest', hcommand, hne⟩ => ?_, runCommand_next hlen _⟩
        cases hinput.symm.trans hcommand
        exact hne hlen
      · exact .inl ⟨⟨c, rest, hinput, hlen⟩, runCommand_of_notACommand (decode_eq_notACommand.2 hlen) _⟩

/-- Settles O8, by the two ways a step can end. -/
theorem stepStopsOnNoCommand : Obligations.StepStopsOnNoCommand := by
  refine ⟨fun s => ?_, fun s r hrefused => ?_, fun s hinput => step_of_nothing hinput⟩
  · rcases step_cases s with ⟨hno, hstep⟩ | ⟨hno, t, hstep⟩ <;> rw [hstep]
    · exact ⟨fun _ => hno, fun _ => ⟨_, rfl⟩⟩
    · exact ⟨nofun, fun h => absurd h hno⟩
  · rcases step_cases s with ⟨_, hstep⟩ | ⟨_, t, hstep⟩ <;> cases hstep.symm.trans hrefused

/-- Settles O9: the word is the encoding of `RESET`, and both entries leave the reset state. -/
theorem hardwareResetEqualsResetCommand : Obligations.HardwareResetEqualsResetCommand := by
  intro s rest hinput
  have hreset : step s = .next (State.resetUnits { s with input := rest }) := step_of_hardReset hinput
  have hdecode : decode (encode .reset) = .instr .reset := decodeInvertsEncode .reset rfl
  refine ⟨?_, hreset⟩
  calc step s
    _ = exec .reset { s with input := rest } := hreset
    _ = step { s with input := .command (encode .reset) :: rest } :=
      (stepRunsTheDecodedCommand { s with input := .command (encode .reset) :: rest } _ _ _ rfl hdecode).symm

end Sys2Proof.Machine
end

section
/-! Unit faults (60_exceptions R212, R213, R217): what a `Halted` unit keeps, and how a unit halts. -/

namespace Sys2Proof.Machine

/-! ## A halted unit -/

theorem decWhenActive_of_halted {d : DecIO} (h : d.dec.phase = .halted) (body : DecIO → Flow DecIO) :
    d.whenActive body = d := if_neg (by simp [h])

theorem encWhenActive_of_halted {io : EncIO} (h : io.enc.phase = .halted) (body : EncIO → Flow EncIO) :
    io.whenActive body = io := if_neg (by simp [h])

/-- 60_exceptions R217: of a `Halted` `DEC` only `NCH` can change. -/
theorem decEffect_of_halted {i : Instr} {d d' : DecIO} (h : DecEffect d i d') (hhalted : d.dec.phase = .halted)
    (hreset : i ≠ .reset) (hinit : i ≠ .decInit) : d' = { d with dec := { d.dec with nch := d'.dec.nch } } := by
  cases h with
  | init => exact absurd rfl hinit
  | push p => rw [decWhenActive_of_halted hhalted]
  | finish => rw [decWhenActive_of_halted hhalted]
  | reset => exact absurd rfl hreset
  | config => rfl
  | other => rfl

/-- 60_exceptions R217: of a `Halted` encoder only the four configuration registers can change. -/
theorem encEffect_of_halted {i : Instr} {u : EncIndex} {io io' : EncIO} (h : EncEffect u io i io')
    (hhalted : io.enc.phase = .halted) (hreset : i ≠ .reset) (hinit : i ≠ .encInit u) :
    io' = { io with enc := { io.enc with
      cfgMode := io'.enc.cfgMode, cfgNch := io'.enc.cfgNch
      cfgRate := io'.enc.cfgRate, cfgDelayMs := io'.enc.cfgDelayMs } } := by
  cases h with
  | init => exact absurd rfl hinit
  | push p => rw [encWhenActive_of_halted hhalted]
  | finish => rw [encWhenActive_of_halted hhalted]
  | reset => exact absurd rfl hreset
  | config => rfl
  | other => rfl

/-- 60_exceptions R217: of a `Halted` `MIX` nothing can change. -/
theorem mixEffect_of_halted {i : Instr} {m m' : MixIO} (h : MixEffect m i m') (hhalted : m.mix.phase = .halted)
    (hreset : i ≠ .reset) (hinit : i ≠ .mixInit) : m' = m := by
  cases h with
  | init => exact absurd rfl hinit
  | push q p => exact mixWhenActive_of_halted hhalted _
  | mixStep => exact mixWhenActive_of_halted hhalted _
  | finish => exact mixWhenActive_of_halted hhalted _
  | reset => exact absurd rfl hreset
  | other => rfl

/-- Settles O21, unit by unit. -/
theorem haltedUnitIsFrozen : Obligations.HaltedUnitIsFrozen := by
  intro i s t u hhalted h hreset hinit
  cases u with
  | dec => exact sameDec_iff.2 (decEffect_of_halted (exec_dec h) hhalted hreset hinit)
  | enc u =>
    obtain ⟨henc, heout⟩ := EncIO.mk.inj (encEffect_of_halted (exec_enc u h) hhalted hreset hinit)
    exact ⟨heout, henc⟩
  | mix => exact sameMix_iff.2 (mixEffect_of_halted (exec_mix h) hhalted hreset hinit)

/-! ## Entry into `Halted`: unit `DEC` -/

/-- `DEC` has halted on a fault that the command can raise, `NCH` as it was (60_exceptions R212, R213). -/
structure Dec.HaltedBy (i : Instr) (d d' : Dec) : Prop where
  nch : d'.nch = d.nch
  err : ∃ f ∈ mayRaise i, d'.err = faultCode f

/-- A command of `DEC` that halts it has run its body and taken a fault that the body raised. -/
theorem decWhenActive_halts {i : Instr} {d : DecIO} {body : DecIO → Flow DecIO}
    (hgo : ∀ x, body d = .go x → x.dec.phase ≠ .halted)
    (hraised : ∀ f x, body d = .raised f x → f ∈ mayRaise i ∧ x.dec.nch = d.dec.nch)
    (hbefore : d.dec.phase ≠ .halted) (hafter : (d.whenActive body).dec.phase = .halted) :
    d.dec.HaltedBy i (d.whenActive body).dec := by
  rcases decWhenActive_cases d body with h | ⟨_, ⟨x, hx, h⟩ | ⟨f, x, hx, h⟩⟩ <;> rw [h] at hafter ⊢
  · exact absurd hafter hbefore
  · exact absurd hafter (hgo x hx)
  · obtain ⟨hmem, hnch⟩ := hraised f x hx
    exact ⟨hnch, f, hmem, rfl⟩

theorem decEffect_halts {i : Instr} {d d' : DecIO} (h : DecEffect d i d') (hbefore : d.dec.phase ≠ .halted)
    (hafter : d'.dec.phase = .halted) : d.dec.HaltedBy i d'.dec := by
  cases h with
  | init =>
    unfold DecIO.opened at hafter
    split at hafter
    · exact absurd hafter hbefore
    · cases hafter
  | push p =>
    have hkeeps := decPushBody_keeps p d
    refine decWhenActive_halts (fun x hx => ?_) (fun f x hx => ?_) hbefore hafter <;> rw [hx] at hkeeps
    · exact fun hphase => hbefore (hkeeps.phase.symm.trans hphase)
    · rcases decPushBody_raised hx with rfl | rfl <;> exact ⟨by simp [mayRaise], hkeeps.nch⟩
  | finish =>
    have hkeeps := decFinishBody_keeps Config.build d
    refine decWhenActive_halts (fun x hx => ?_) (fun f x hx => ?_) hbefore hafter
    · obtain ⟨y, _, hclose⟩ := andThen_eq_go.1 hx
      obtain rfl := Flow.go.inj hclose
      nofun
    · rcases andThen_eq_raised.1 hx with hbody | ⟨y, _, hclose⟩
      · rw [hbody] at hkeeps
        rcases decFinishBody_raised hbody with ⟨rfl, _⟩ | rfl <;> exact ⟨by simp [mayRaise], hkeeps.nch⟩
      · cases hclose
  | reset => cases hafter
  | config => exact absurd hafter hbefore
  | other => exact absurd hafter hbefore

/-! ## Entry into `Halted`: units `ENC[u]` -/

/-- The encoder has halted on a fault that the command can raise, its configuration as it was (60_exceptions R212,
R213). -/
structure Enc.HaltedBy (i : Instr) (e e' : Enc) : Prop where
  cfgMode : e'.cfgMode = e.cfgMode
  cfgNch : e'.cfgNch = e.cfgNch
  cfgRate : e'.cfgRate = e.cfgRate
  cfgDelayMs : e'.cfgDelayMs = e.cfgDelayMs
  err : ∃ f ∈ mayRaise i, e'.err = faultCode f

/-- A command of an encoder that halts it has run its body and taken a fault that the body raised. -/
theorem encWhenActive_halts {i : Instr} {io : EncIO} {body : EncIO → Flow EncIO}
    (hgo : ∀ x, body io = .go x → x.enc.phase ≠ .halted)
    (hraised : ∀ f x, body io = .raised f x → f ∈ mayRaise i ∧ io.Serves x)
    (hbefore : io.enc.phase ≠ .halted) (hafter : (io.whenActive body).enc.phase = .halted) :
    io.enc.HaltedBy i (io.whenActive body).enc := by
  rcases encWhenActive_cases io body with h | ⟨_, ⟨x, hx, h⟩ | ⟨f, x, hx, h⟩⟩ <;> rw [h] at hafter ⊢
  · exact absurd hafter hbefore
  · exact absurd hafter (hgo x hx)
  · obtain ⟨hmem, hserves⟩ := hraised f x hx
    obtain ⟨_, _, henc⟩ := hserves.fields
    rw [henc]
    exact ⟨rfl, rfl, rfl, rfl, f, hmem, rfl⟩

theorem encEffect_halts {i : Instr} {u : EncIndex} {io io' : EncIO} (h : EncEffect u io i io')
    (hbefore : io.enc.phase ≠ .halted) (hafter : io'.enc.phase = .halted) : io.enc.HaltedBy i io'.enc := by
  cases h with
  | init =>
    unfold EncIO.opened at hafter
    split at hafter
    · exact absurd hafter hbefore
    · cases hafter
  | push p =>
    have hserves := encFeed_serves io p
    refine encWhenActive_halts (fun x hx => ?_) (fun f x hx => ?_) hbefore hafter <;> rw [hx] at hserves
    · obtain ⟨_, _, henc⟩ := hserves.fields
      rw [state_go] at henc
      rw [henc]
      exact hbefore
    · rcases encFeed_raised hx with rfl | rfl | rfl <;> exact ⟨by simp [mayRaise], hserves⟩
  | finish =>
    have hserves := encFlush_serves Config.build io
    refine encWhenActive_halts (fun x hx => ?_) (fun f x hx => ?_) hbefore hafter
    · obtain ⟨y, _, hclose⟩ := andThen_eq_go.1 hx
      obtain rfl := Flow.go.inj hclose
      nofun
    · rcases andThen_eq_raised.1 hx with hbody | ⟨y, _, hclose⟩
      · rw [hbody] at hserves
        obtain rfl := encFlush_raised hbody
        exact ⟨by simp [mayRaise], hserves⟩
      · cases hclose
  | reset => cases hafter
  | config => exact absurd hafter hbefore
  | other => exact absurd hafter hbefore

/-! ## Entry into `Halted`: unit `MIX` -/

/-- A command of `MIX` that halts it has run its body and taken a fault that the body raised. -/
theorem mixWhenActive_halts {i : Instr} {m : MixIO} {body : MixIO → Flow MixIO}
    (hgo : ∀ x, body m = .go x → x.mix.phase ≠ .halted) (hraised : ∀ f x, body m = .raised f x → f ∈ mayRaise i)
    (hbefore : m.mix.phase ≠ .halted) (hafter : (m.whenActive body).mix.phase = .halted) :
    ∃ f ∈ mayRaise i, (m.whenActive body).mix.err = faultCode f := by
  rcases mixWhenActive_cases m body with h | ⟨_, ⟨x, hx, h⟩ | ⟨f, x, hx, h⟩⟩ <;> rw [h] at hafter ⊢
  · exact absurd hafter hbefore
  · exact absurd hafter (hgo x hx)
  · exact ⟨f, hraised f x hx, rfl⟩

/-- A body that keeps the phase does not halt `MIX` by going on. -/
theorem mixKeeps_not_halted {m : MixIO} {r : Flow MixIO} (hkeeps : m.mix.Keeps r.state.mix)
    (hbefore : m.mix.phase ≠ .halted) (x : MixIO) (hx : r = .go x) : x.mix.phase ≠ .halted := by
  rw [hx] at hkeeps
  exact fun hphase => hbefore (hkeeps.phase.symm.trans hphase)

theorem mixEffect_halts {i : Instr} {m m' : MixIO} (h : MixEffect m i m') (hbefore : m.mix.phase ≠ .halted)
    (hafter : m'.mix.phase = .halted) : ∃ f ∈ mayRaise i, m'.mix.err = faultCode f := by
  cases h with
  | init => cases hafter
  | push q p =>
    refine mixWhenActive_halts (mixKeeps_not_halted (qpush_keeps q p m) hbefore) (fun f x hx => ?_) hbefore hafter
    simp [qpush_raised hx, mayRaise]
  | mixStep =>
    refine mixWhenActive_halts (mixKeeps_not_halted (mixRun_keeps m) hbefore) (fun f x hx => ?_) hbefore hafter
    simp [mixRun_raised hx, mayRaise]
  | finish =>
    refine mixWhenActive_halts (fun x hx => ?_) (fun f x hx => ?_) hbefore hafter
    · obtain ⟨y, _, hclose⟩ := andThen_eq_go.1 hx
      obtain rfl := Flow.go.inj hclose
      nofun
    · rcases andThen_eq_raised.1 hx with hbody | ⟨y, _, hclose⟩
      · simp [mixEnd_raised hbody, mayRaise]
      · cases hclose
  | reset => cases hafter
  | other => exact absurd hafter hbefore

/-! ## Entry into `Halted`: the machine -/

theorem exec_halts {i : Instr} {s t : State} {u : UnitName} (h : exec i s = .next t) (hbefore : s.phase u ≠ .halted)
    (hafter : t.phase u = .halted) : SameConfig u s t ∧ ∃ f ∈ mayRaise i, t.unitErr u = faultCode f := by
  cases u with
  | dec =>
    have hby := decEffect_halts (exec_dec h) hbefore hafter
    exact ⟨hby.nch, hby.err⟩
  | enc u =>
    have hby := encEffect_halts (exec_enc u h) hbefore hafter
    exact ⟨⟨hby.cfgMode, hby.cfgNch, hby.cfgRate, hby.cfgDelayMs⟩, hby.err⟩
  | mix => exact ⟨trivial, mixEffect_halts (exec_mix h) hbefore hafter⟩

/-- Of the writers of `PHASE` only a unit fault leaves `Halted`, and it is taken in an `Active` unit (10_state R13). -/
theorem active_of_halts {i : Instr} {s t : State} {u : UnitName} (h : exec i s = .next t)
    (hbefore : s.phase u ≠ .halted) (hafter : t.phase u = .halted) : unitOf i = some u ∧ s.phase u = .active := by
  rcases phaseIsWrittenByFewCommands i s t u h (fun heq => hbefore (heq ▸ hafter)) with
    ⟨_, hphase⟩ | ⟨_, hphase⟩ | ⟨_, _, hphase⟩ | ⟨hunit, hactive, _⟩
  · cases hafter.symm.trans hphase
  · cases hafter.symm.trans hphase
  · cases hafter.symm.trans hphase
  · exact ⟨hunit, hactive⟩

@[simp] theorem refuse_phase (s : State) (e : ErrCode) (u : UnitName) : (s.refuse e).phase u = s.phase u := by
  rcases u with _ | (_ | _) | _ <;> rfl

/-- Settles O22: a refused command keeps the phase, so the one that halts the unit stays in it. -/
theorem faultEntryHaltsOneUnit : Obligations.FaultEntryHaltsOneUnit := by
  intro i s t u h hbefore hafter
  obtain ⟨hunit, hactive⟩ := active_of_halts h hbefore hafter
  obtain ⟨hconfig, hfault⟩ := exec_halts h hbefore hafter
  refine ⟨hunit, hactive, ?_, hconfig, hfault⟩
  rcases exec_only hunit h with honly | rfl | rfl
  · exact honly
  · exact absurd ((refuse_phase s _ u).symm.trans hafter) hbefore
  · exact absurd ((refuse_phase s _ u).symm.trans hafter) hbefore

end Sys2Proof.Machine
end

section
/-! Refusals (60_exceptions R211): a command changes `CMDERR` by a clear, or by a refusal that changes nothing else. -/

namespace Sys2Proof.Machine

/-- `CMDERR` is the one register that a write clears (10_state R11, R31). -/
theorem regOf_clearedByWrite (sel : BitVec 8) : (regOf sel).map regAccess = some .wc → sel = 0x01#8 := by
  revert sel
  decide

/-- A write that changes `CMDERR` clears it or is refused (48_commands R186). -/
theorem writeReg_changes_cmdErr {r : Reg} {v : BitVec 32} {s : State} (hne : (writeReg r v s).cmdErr ≠ s.cmdErr) :
    (regAccess r = .wc ∧ writeReg r v s = { s with cmdErr := 0#8 }) ∨
      ∃ e ∈ [ErrCode.ePhase, ErrCode.eArg], writeReg r v s = s.refuse e := by
  cases haccess : regAccess r with
  | wc => exact .inl ⟨rfl, by rw [writeReg, haccess]⟩
  | ro => exact .inr ⟨.eArg, by simp, writeReg_of_readOnly haccess⟩
  | rw u w =>
    by_cases hphase : s.phase u = .active
    · exact .inr ⟨.ePhase, by simp, writeReg_of_active haccess hphase⟩
    · by_cases hwide : 2 ^ w ≤ v.toNat
      · exact .inr ⟨.eArg, by simp, writeReg_of_tooWide haccess hphase hwide⟩
      · rw [writeReg_of_fits haccess hphase (not_le.1 hwide), storeReg_cmdErr] at hne
        exact absurd rfl hne

/-- `t` is `s` after the instruction `i` was refused: `CMDERR` and nothing else, or a refused `RDREG`
(60_exceptions R211). -/
def RefusedTo (i : Instr) (s t : State) : Prop :=
  ∃ e ∈ [ErrCode.eSel, ErrCode.ePhase, ErrCode.eArg],
    t = s.refuse e ∨ ∃ sel, i = .rdreg sel ∧ t = s.refuseRead e

theorem exec_wrreg_changes_cmdErr {sel : BitVec 8} {v : BitVec 32} {s t : State} (h : exec (.wrreg sel v) s = .next t)
    (hne : t.cmdErr ≠ s.cmdErr) :
    (sel = 0x01#8 ∧ t = { s with cmdErr := 0#8 }) ∨ RefusedTo (.wrreg sel v) s t := by
  cases hreg : regOf sel with
  | some r =>
    obtain rfl := Host.Outcome.next.inj ((exec_wrreg_of_reg hreg v s).symm.trans h)
    rcases writeReg_changes_cmdErr hne with ⟨haccess, hclear⟩ | ⟨e, he, hrefused⟩
    · exact .inl ⟨regOf_clearedByWrite sel (by rw [hreg, Option.map_some, haccess]), hclear⟩
    · exact .inr ⟨e, List.mem_cons_of_mem _ he, .inl hrefused⟩
  | none =>
    obtain rfl := Host.Outcome.next.inj ((exec_wrreg_reserved hreg v s).symm.trans h)
    exact .inr ⟨.eSel, by simp, .inl rfl⟩

/-- A read that changes `CMDERR` is of a reserved number (48_commands R182). -/
theorem exec_rdreg_changes_cmdErr {sel : BitVec 8} {s t : State} (h : exec (.rdreg sel) s = .next t)
    (hne : t.cmdErr ≠ s.cmdErr) : RefusedTo (.rdreg sel) s t := by
  cases hreg : regOf sel with
  | some r =>
    obtain rfl := Host.Outcome.next.inj ((exec_rdreg_of_reg hreg s).symm.trans h)
    exact absurd rfl hne
  | none =>
    obtain rfl := Host.Outcome.next.inj ((exec_rdreg_reserved hreg s).symm.trans h)
    exact ⟨.eSel, by simp, .inr ⟨sel, rfl, rfl⟩⟩

/-- A command of a unit that changes `CMDERR` is refused for the phase or the argument (48_commands R181). -/
theorem exec_unit_changes_cmdErr {i : Instr} {u : UnitName} {s t : State} (hu : unitOf i = some u)
    (h : exec i s = .next t) (hne : t.cmdErr ≠ s.cmdErr) : RefusedTo i s t := by
  rcases exec_only hu h with ⟨hsame, _⟩ | hrefused | hrefused
  · exact absurd hsame hne
  · exact ⟨.ePhase, by simp, .inl hrefused⟩
  · exact ⟨.eArg, by simp, .inl hrefused⟩

/-- Settles O23: a unit's command is refused, a general one resets, reads or writes. -/
theorem refusalChangesCmdErrAlone : Obligations.RefusalChangesCmdErrAlone := by
  intro i s t h hne
  cases hu : unitOf i with
  | some u => exact .inr (.inr (exec_unit_changes_cmdErr hu h hne))
  | none =>
    cases i with
    | nop => exact absurd (Host.Outcome.next.inj h ▸ rfl) hne
    | reset => exact .inl rfl
    | rdreg sel => exact .inr (.inr (exec_rdreg_changes_cmdErr h hne))
    | wrreg sel v =>
      rcases exec_wrreg_changes_cmdErr h hne with ⟨rfl, hclear⟩ | hrefused
      · exact .inr (.inl ⟨v, rfl, hclear⟩)
      · exact .inr (.inr hrefused)
    | _ => cases hu

end Sys2Proof.Machine
end
